-- ==== Sys2Proof/Word.lean ====
section
/-! DEFINITION. The machine word, the byte, and a pair of binary32 words. -/

namespace Sys2Proof

/-- A 32-bit word (rule R9): a register, an address, or a binary32 bit pattern (rule R110). -/
abbrev Word := BitVec 32

/-- One byte of host data memory (rule R60). -/
abbrev Byte := BitVec 8

/-- A complex entry: a real and an imaginary binary32 value (rules R36, R39, R40). -/
structure Cpx where
  re : Word
  im : Word
  deriving DecidableEq, Repr

/-- `(+0, +0)`. -/
def Cpx.zero : Cpx := ⟨0#32, 0#32⟩

end Sys2Proof
end

