-- ==== Sys2Proof/Config.lean ====
section
/-! DEFINITION. What an implementation fixes (rule R8), and the free values the spec leaves open. -/

namespace Sys2Proof

/-- Names one occurrence of a free value: the state's draw counter at the end, and before it the
path of the operation inside the command. Two operations of a run never share a path, so each
draws independently (rule R114). -/
abbrev Draw := List Nat

namespace Config

/-- The parameter `MATH` (rules R8, R121) as plain data: the finite operands, with the value, at
which the core's `COS`, `SIN` and `EXP2` differ from the reference value. There are 2^32 words, so
every three functions on words are some `MathTable`. -/
structure MathTable where
  cos : List (Word × Word)
  sin : List (Word × Word)
  exp2 : List (Word × Word)
  deriving DecidableEq, Repr

/-- The reference value of `MATH` (rule R121): no difference anywhere. -/
def MathTable.reference : MathTable := { cos := [], sin := [], exp2 := [] }

/-- `LOG2_NMAX`, `KBANK_CAP` and `MATH` of rule R8. The widths are those in which `CAP` and `KBCAP`
show them (rules R22, R23). -/
structure Params where
  log2NMax : BitVec 5
  kbankCap : BitVec 32
  math : MathTable
  deriving DecidableEq, Repr

/-- The default parameters of rule R8: `LOG2_NMAX = 16`, `KBANK_CAP = 2^18`, the reference `MATH`. -/
def Params.default : Params := ⟨16#5, 262144#32, MathTable.reference⟩

/-- `N_MAX = 2^LOG2_NMAX` (rule R8). -/
def Params.nMax (p : Params) : Nat := 2 ^ p.log2NMax.toNat

/-- What the datapath takes for `MATH` (rules R8, R121): three functions on finite binary32 values. -/
structure Math where
  cos : Word → Word
  sin : Word → Word
  exp2 : Word → Word

/-- Which NaN an operation returns (`NAN_DRAW`, rule R114): an index of one of the
2 · (2^23 - 1) NaN patterns. FREE VALUE: no body, nothing can evaluate it. -/
opaque nanDraw : Draw → Fin 16777214

/-- A word the spec leaves at any value (rules R40, R44, R72, R271), drawn at each occurrence.
FREE VALUE. -/
opaque freeWord : Draw → Word

/-- The word in an entry of an internal store that nothing has written (rules R35, R39). FREE VALUE. -/
opaque freeEntry : List Nat → Word

end Config
end Sys2Proof
end

