-- ==== Sys2Proof/Machine/Numerics.lean ====
section
/-! DEFINITION. Binary32 arithmetic (40_numerics.md): every operation rounded once from its exact result. -/

namespace Sys2Proof.Machine

/-! ## Format (rule R110) -/

/-- The sign `s = v[31]`. -/
def signBit (a : Word) : Bool := a.getLsbD 31

/-- The biased exponent `e = v[30:23]`. -/
def expField (a : Word) : Nat := (a.extractLsb' 23 8).toNat

/-- The fraction `f = v[22:0]`. -/
def fracField (a : Word) : Nat := (a.extractLsb' 0 23).toNat

/-- A NaN: `e = 255, f ≠ 0`. -/
def isNaN (a : Word) : Bool := expField a == 255 && fracField a != 0

/-- An infinity: `e = 255, f = 0`. -/
def isInf (a : Word) : Bool := expField a == 255 && fracField a == 0

/-- `isfinite(a)`: `e ≠ 255` (rule R116). -/
def isFinite (a : Word) : Bool := expField a != 255

/-- A zero of either sign: `e = 0, f = 0`. -/
def isZero (a : Word) : Bool := expField a == 0 && fracField a == 0

/-- The magnitude of a finite value in units of `2^-149`: an exact integer for every finite value,
subnormal (`f`) or normal (`(2^23 + f) · 2^(e-1)`). -/
def quanta (a : Word) : Nat :=
  if expField a = 0 then fracField a else (2 ^ 23 + fracField a) <<< (expField a - 1)

/-- The value of a finite word in units of `2^-149`. -/
def signedQuanta (a : Word) : Int := if signBit a then -(quanta a : Int) else (quanta a : Int)

/-- The word with this sign and these low 31 bits. -/
def packMag (neg : Bool) (bits : Nat) : Word :=
  BitVec.ofNat 32 (bits + if neg then 2 ^ 31 else 0)

/-- The zero of a sign. -/
def zeroOf (neg : Bool) : Word := packMag neg 0

/-- The low 31 bits of an infinity. -/
def infBits : Nat := 0x7F800000

/-- The infinity of a sign. -/
def infOf (neg : Bool) : Word := packMag neg infBits

/-- The NaN with index `i`, from 0 to 2 · (2^23 - 1) - 1: any sign, any fraction but 0. -/
def nanPattern (i : Nat) : Word := packMag (i / 8388607 == 1) (infBits + (i % 8388607 + 1))

/-- The NaN an operation draws (rule R114). -/
def nanOf (d : Draw) : Word := nanPattern (Config.nanDraw d).val

/-! ## Rounding (rules R111, R112, R113) -/

/-- `num / den` rounded to an integer, ties to even. -/
def roundHalfEven (num den : Nat) : Nat :=
  let q := num / den
  let r := num % den
  if 2 * r < den then q else if den < 2 * r then q + 1 else q + q % 2

/-- `RN` of the magnitude `num / den · 2^-149`, as the low 31 bits of a word. With `sh` the place of
the last kept bit, the rounded significand `r` is at most `2^24` and `sh · 2^23 + r` is the pattern
of `r · 2^sh` quanta, so that a carry runs into the exponent, subnormals need no case of their own,
and a magnitude past the largest finite value becomes the pattern of infinity (rule R112). -/
def roundMag (num den : Nat) : Nat :=
  let sh := Nat.log2 (num / den) - 23
  min (sh * 2 ^ 23 + roundHalfEven num (den <<< sh)) infBits

/-! ## Operations (rules R111, R112, R115 to R119) -/

/-- `fneg(a)`: bit 31 inverted, never a draw (rule R115). -/
def fneg (a : Word) : Word := a ^^^ 0x80000000#32

/-- `fadd(a, b)` (rules R111, R112, R114). -/
def fadd (d : Draw) (a b : Word) : Word :=
  if isNaN a || isNaN b then nanOf d
  else if isInf a then
    if isInf b && (signBit a != signBit b) then nanOf d else a
  else if isInf b then b
  else
    let z := signedQuanta a + signedQuanta b
    if z = 0 then zeroOf (signBit a && signBit b)
    else packMag (decide (z < 0)) (roundMag z.natAbs 1)

/-- `fsub(a, b)`: the sum with the operand's sign inverted, which is IEEE 754's difference for every
operand that is not a NaN (rules R111, R112). -/
def fsub (d : Draw) (a b : Word) : Word := fadd d a (fneg b)

/-- `fmul(a, b)` (rules R111, R112, R114). -/
def fmul (d : Draw) (a b : Word) : Word :=
  let neg := signBit a != signBit b
  if isNaN a || isNaN b then nanOf d
  else if isInf a || isInf b then
    if isZero a || isZero b then nanOf d else infOf neg
  else packMag neg (roundMag (quanta a * quanta b) (2 ^ 149))

/-- `fdiv(a, b)` (rules R111, R112, R114). -/
def fdiv (d : Draw) (a b : Word) : Word :=
  let neg := signBit a != signBit b
  if isNaN a || isNaN b then nanOf d
  else if isInf a then
    if isInf b then nanOf d else infOf neg
  else if isInf b then zeroOf neg
  else if isZero b then
    if isZero a then nanOf d else infOf neg
  else packMag neg (roundMag (quanta a <<< 149) (quanta b))

/-- `fceil(a)` (rule R117): away from zero for a positive value, towards zero for a negative one. -/
def fceil (d : Draw) (a : Word) : Word :=
  if isNaN a then nanOf d
  else if isInf a then a
  else
    let q := quanta a
    let whole := if signBit a then q / 2 ^ 149 else (q + (2 ^ 149 - 1)) / 2 ^ 149
    packMag (signBit a) (roundMag (whole * 2 ^ 149) 1)

/-- `i2f(v)` (rule R118). -/
def i2f (v : Int) : Word := packMag (decide (v < 0)) (roundMag (v.natAbs * 2 ^ 149) 1)

/-- `f2i(a)`, applied only to an integral value from 1 to `N_MAX` (rule R119). -/
def f2i (a : Word) : Nat := quanta a / 2 ^ 149

/-- The low 31 bits with the sign: rises with the value of every word that is not a NaN, infinities
among them, and is 0 for both zeros. -/
def orderKey (a : Word) : Int :=
  let m : Int := (expField a * 2 ^ 23 + fracField a : Nat)
  if signBit a then -m else m

/-- `a f> b` (rule R116). -/
def fgt (a b : Word) : Bool := !isNaN a && !isNaN b && decide (orderKey b < orderKey a)

/-- `a f>= b` (rule R116). -/
def fge (a b : Word) : Bool := !isNaN a && !isNaN b && decide (orderKey b ≤ orderKey a)

/-- `a f< b` (rule R116). -/
def flt (a b : Word) : Bool := fgt b a

/-- `posfin(x)` (rule R196). -/
def posfin (x : Word) : Bool := isFinite x && fgt x 0#32

/-! ## Constants (rule R122) -/

/-- `ONE`. -/
def oneF : Word := 0x3F800000#32

/-- `HALF`. -/
def halfF : Word := 0x3F000000#32

/-- `TWO_PI_F`. -/
def twoPiF : Word := 0x40C90FDB#32

/-- `INV(m)`: the binary32 value `2^-m`, pattern `(127 - m) << 23`. -/
def invPow2 (m : Nat) : Word := BitVec.ofNat 32 ((127 - m) <<< 23)

/-! ## Integers (rule R124) -/

/-- `ISPOW2(v)`. -/
def isPow2 (v : Int) : Bool := decide (0 < v) && (v.toNat &&& (v.toNat - 1) == 0)

/-! ## Complex products (rules R125, R126) -/

/-- `cmul(w, o)`. -/
def cmul (d : Draw) (w o : Cpx) : Cpx :=
  { re := fsub (0 :: d) (fmul (1 :: d) w.re o.re) (fmul (2 :: d) w.im o.im)
    im := fadd (3 :: d) (fmul (4 :: d) w.re o.im) (fmul (5 :: d) w.im o.re) }

/-- `cmulconj(a, c)`. -/
def cmulconj (d : Draw) (a c : Cpx) : Cpx :=
  { re := fadd (0 :: d) (fmul (1 :: d) a.re c.re) (fmul (2 :: d) a.im c.im)
    im := fsub (3 :: d) (fmul (4 :: d) a.im c.re) (fmul (5 :: d) a.re c.im) }

end Sys2Proof.Machine
end

