-- ==== Sys2Proof/Machine/Math.lean ====
section
/-! DEFINITION. `COS`, `SIN`, `EXP2` (rule R121) and the twiddle ROM (rule R156), rounded once from 256-bit fixed point. -/

namespace Sys2Proof.Machine

/-! Fixed point: a natural number `v` stands for `v · 2^-256`. The series below are good to about
2^-250, and to about 2^-126 after the reduction of the largest argument. That this decides every
rounding to binary32 is PRESUMED (log entry 11). -/

/-- 1. -/
def fixOne : Nat := 2 ^ 256

/-- π/2, rounded down. -/
def piHalfFix : Nat :=
  181885788445883162140117471388864931326696688664196214979386075558969447233092

/-- ln 2, rounded down. -/
def ln2Fix : Nat :=
  80260960185991308862233904206310070533990667611589946606122867505419956976171

/-- `1 - x²/(j(j+1)) · (1 - x²/((j+2)(j+3)) · (1 - …))`, `k` factors deep, of the square `x2`. -/
def alternating (x2 : Nat) : Nat → Nat → Nat
  | 0, _ => fixOne
  | k + 1, j => fixOne - (x2 * alternating x2 k (j + 2)) / (fixOne * (j * (j + 1)))

/-- cos of an angle from 0 to π/2. -/
def cosFix (x : Nat) : Nat := alternating (x * x / fixOne) 40 1

/-- sin of an angle from 0 to π/2; at most 1. -/
def sinFix (x : Nat) : Nat := min fixOne (x * alternating (x * x / fixOne) 40 2 / fixOne)

/-- `1 + y/j · (1 + y/(j+1) · (1 + …))`, `k` factors deep. -/
def expFix (y : Nat) : Nat → Nat → Nat
  | 0, _ => fixOne
  | k + 1, j => fixOne + (y * expFix y k (j + 1)) / (fixOne * j)

/-- `RN` of a fixed-point magnitude with a sign. -/
def roundFix (neg : Bool) (v : Nat) : Word := packMag neg (roundMag v (2 ^ 107))

/-- The magnitude of a finite value in fixed point: exact, since `256 - 149 = 107`. -/
def fixOfWord (a : Word) : Nat := quanta a <<< 107

/-- `RN(cos(a))` of a finite value: reduced by quarter turns. -/
def cosRef (a : Word) : Word :=
  let q := fixOfWord a / piHalfFix % 4
  let r := fixOfWord a % piHalfFix
  if q = 0 then roundFix false (cosFix r)
  else if q = 1 then roundFix true (sinFix r)
  else if q = 2 then roundFix true (cosFix r)
  else roundFix false (sinFix r)

/-- `RN(sin(a))` of a finite value: reduced by quarter turns; odd, so `SIN(±0) = ±0`. -/
def sinRef (a : Word) : Word :=
  let q := fixOfWord a / piHalfFix % 4
  let r := fixOfWord a % piHalfFix
  let s := signBit a
  if q = 0 then roundFix s (sinFix r)
  else if q = 1 then roundFix s (cosFix r)
  else if q = 2 then roundFix (!s) (sinFix r)
  else roundFix (!s) (cosFix r)

/-- `2^f` of a fraction `f` below 1. -/
def exp2Fix (f : Nat) : Nat := expFix (f * ln2Fix / fixOne) 64 1

/-- `RN(2^a)` of a finite value: `2^i · 2^f` with `i` the integer part and `0 ≤ f < 1`, overflow to
infinity and gradual underflow (rule R121). -/
def exp2Ref (a : Word) : Word :=
  let x := fixOfWord a
  if signBit a then
    let i := (x + (fixOne - 1)) / fixOne
    if 160 < i then zeroOf false
    else packMag false (roundMag (exp2Fix (i * fixOne - x) <<< 149) (fixOne <<< i))
  else
    let i := x / fixOne
    if 128 ≤ i then infOf false
    else packMag false (roundMag (exp2Fix (x % fixOne) <<< (i + 149)) fixOne)

/-- The reference value of `MATH`: correct rounding (rule R121). -/
def mathReference : Config.Math := { cos := cosRef, sin := sinRef, exp2 := exp2Ref }

/-- The core's `MATH` (rules R8, R121): the parameter's value where its table names one, the
reference value elsewhere. -/
def coreMath (p : Config.Params) : Config.Math :=
  { cos := fun a => (p.math.cos.lookup a).getD (cosRef a)
    sin := fun a => (p.math.sin.lookup a).getD (sinRef a)
    exp2 := fun a => (p.math.exp2.lookup a).getD (exp2Ref a) }

/-- `COS(a)` (rule R121): a NaN or an infinity gives a NaN. -/
def fcos (M : Config.Math) (d : Draw) (a : Word) : Word :=
  if isFinite a then M.cos a else nanOf d

/-- `SIN(a)` (rule R121): a NaN or an infinity gives a NaN. -/
def fsin (M : Config.Math) (d : Draw) (a : Word) : Word :=
  if isFinite a then M.sin a else nanOf d

/-- `EXP2(a)` (rule R121): a NaN gives a NaN, `+∞` gives `+∞`, `-∞` gives `+0`. -/
def fexp2 (M : Config.Math) (d : Draw) (a : Word) : Word :=
  if isNaN a then nanOf d
  else if isInf a then (if signBit a then zeroOf false else infOf false)
  else M.exp2 a

/-- A rounded magnitude with a sign, an exact zero being `+0` (rule R156). -/
def roundFixPosZero (neg : Bool) (v : Nat) : Word := if v = 0 then zeroOf false else roundFix neg v

/-- `TWROM[k]` for `N_MAX = 2^log2NMax` and `k < N_MAX/2` (rule R156): cosine and sine of
`-2π·k/N_MAX`, the quarter turn taken out exactly. -/
def twRom (log2NMax k : Nat) : Cpx :=
  let x := piHalfFix * (4 * k % 2 ^ log2NMax) / 2 ^ log2NMax
  if 4 * k < 2 ^ log2NMax then
    { re := roundFixPosZero false (cosFix x), im := roundFixPosZero true (sinFix x) }
  else
    { re := roundFixPosZero true (sinFix x), im := roundFixPosZero true (cosFix x) }

/-- `TW[i] = TWROM[i · (N_MAX / FFT_N)]` for `FFT_N = 2^m` (rules R36, R156). -/
def twView (log2NMax m i : Nat) : Cpx := twRom log2NMax (i * 2 ^ (log2NMax - m))

end Sys2Proof.Machine
end

