-- ==== Sys2Proof/Machine/Fft.lean ====
section
/-! DEFINITION. The FFT datapath (41_fft.md): bit reversal, permutation, butterfly, stages. -/

namespace Sys2Proof.Machine

/-! ## The bit-reversal table (rule R155) -/

/-- From `j`: clear set bits from `bit` down, then set the first clear one. `fuel` bounds the bits
that can be cleared. -/
def nextReversed : Nat → Nat → Nat → Nat
  | 0, bit, j => j ^^^ bit
  | fuel + 1, bit, j =>
    if j &&& bit ≠ 0 then nextReversed fuel (bit >>> 1) (j ^^^ bit) else j ^^^ bit

/-- `count` entries of the table from the entry `j` on. -/
def bitrevFrom (n : Nat) : Nat → Nat → List Nat
  | 0, _ => []
  | count + 1, j => j :: bitrevFrom n count (nextReversed (Nat.log2 n) (n >>> 1) j)

/-- `bitrev_gen(n)` (rule R155). -/
def bitrevGen (n : Nat) : List Nat := bitrevFrom n n 0

/-- `rev_m(i)`, the `m`-bit reversal of `i` (rule R155's closed form). -/
def revBits : Nat → Nat → Nat
  | 0, _ => 0
  | m + 1, i => i % 2 * 2 ^ m + revBits m (i / 2)

/-! ## Working arrays -/

/-- Element `i` of a working array. -/
def cpxAt (x : List Cpx) (i : Nat) : Cpx := x.getD i Cpx.zero

/-- `BITREV[i]`; an entry the table does not list is unspecified (rule R35): a free value of its own
index. DESIGN CHOICE (log entry 7): the same one at every time. -/
def bitrevAt (table : List Nat) (i : Nat) : Nat := table.getD i (Config.freeEntry [i, 0]).toNat

/-- Swap two elements, both read before either is written. -/
def swapAt (x : List Cpx) (i r : Nat) : List Cpx := (x.set i (cpxAt x r)).set r (cpxAt x i)

/-- `PERMUTE(X, n)` (rule R158). -/
def permute (table : List Nat) (n : Nat) (x : List Cpx) : List Cpx :=
  (List.range n).foldl
    (fun y i => if i < bitrevAt table i then swapAt y i (bitrevAt table i) else y) x

/-- `BUTTERFLY(X, p, q, w)` (rule R160): both elements read before either is written. -/
def butterfly (d : Draw) (x : List Cpx) (p q : Nat) (w : Cpx) : List Cpx :=
  let e := cpxAt x p
  let t := cmul (0 :: d) w (cpxAt x q)
  (x.set q ⟨fsub (1 :: d) e.re t.re, fsub (2 :: d) e.im t.im⟩).set p
    ⟨fadd (3 :: d) e.re t.re, fadd (4 :: d) e.im t.im⟩

/-- The butterflies of one block of a stage: `j` from 0 to `half - 1`, twiddle `TW[j · step]`
(rules R157, R161). -/
def fftBlock (tw : Nat → Cpx) (d : Draw) (base half step : Nat) (x : List Cpx) : List Cpx :=
  (List.range half).foldl
    (fun y j => butterfly (j :: d) y (base + j) (base + j + half) (tw (j * step))) x

/-- One stage of length `len` over an array of `n`: the blocks in ascending order (rule R161). -/
def fftStage (tw : Nat → Cpx) (d : Draw) (n len : Nat) (x : List Cpx) : List Cpx :=
  (List.range (n / len)).foldl
    (fun y b => fftBlock tw (b :: d) (b * len) (len / 2) (n / len) y) x

/-- `FFT_CORE(X, n)` for `n = 2^m` (rule R161): permutation, then stages `len = 2, 4, …, n`. -/
def fftCore (tw : Nat → Cpx) (table : List Nat) (d : Draw) (m : Nat) (x : List Cpx) : List Cpx :=
  (List.range m).foldl (fun y k => fftStage tw (k :: d) (2 ^ m) (2 ^ (k + 1)) y)
    (permute table (2 ^ m) x)

/-! ## The transforms on words (rules R165, R170) -/

/-- The real and the imaginary words as one working array. -/
def zipCpx (re im : List Word) : List Cpx := List.zipWith Cpx.mk re im

/-- The result of the forward transform on the buffers' words (rule R165). -/
def forwardResult (tw : Nat → Cpx) (table : List Nat) (d : Draw) (m : Nat) (re im : List Word) :
    List Cpx :=
  fftCore tw table d m (zipCpx re im)

/-- One output element of the inverse transform: scaled by `2^-m`, the imaginary part negated
(rules R123, R170). -/
def inverseScale (d : Draw) (m : Nat) (x : Cpx) : Cpx :=
  { re := fmul (0 :: d) x.re (invPow2 m), im := fneg (fmul (1 :: d) x.im (invPow2 m)) }

/-- The result of the inverse transform on the buffers' words: conjugate, forward, scale, conjugate
(rule R170). -/
def inverseResult (tw : Nat → Cpx) (table : List Nat) (d : Draw) (m : Nat) (re im : List Word) :
    List Cpx :=
  (fftCore tw table (0 :: d) m (zipCpx re (im.map fneg))).mapIdx
    (fun i x => inverseScale (i :: 1 :: d) m x)

end Sys2Proof.Machine
end

