-- ==== Sys2Proof/Machine/Cqt.lean ====
section
/-! DEFINITION. The CQT datapath (42_cqt.md): kernel generation and the complex correlator. -/

namespace Sys2Proof.Machine

/-! ## Kernel generation -/

/-- `bpo_f`, `Q`, `nyq` (rule R197). -/
structure BankConsts where
  bpoF : Word
  q : Word
  nyq : Word
  deriving DecidableEq, Repr

/-- `bank_consts(bpo, sr)` (rule R197). -/
def bankConsts (M : Config.Math) (d : Draw) (bpo : Int) (sr : Word) : BankConsts :=
  { bpoF := i2f bpo
    q := fdiv (0 :: d) oneF
      (fsub (1 :: d) (fexp2 M (2 :: d) (fdiv (3 :: d) oneF (i2f bpo))) oneF)
    nyq := fmul (4 :: d) sr halfF }

/-- `freq_k` (rule R198). -/
def centreFreq (M : Config.Math) (d : Draw) (k : Nat) (bpoF fmin : Word) : Word :=
  fmul (0 :: d) fmin (fexp2 M (1 :: d) (fdiv (2 :: d) (i2f k) bpoF))

/-- `Lr`, the unclamped filter length (rule R200). -/
def rawLength (d : Draw) (q sr freq : Word) : Word :=
  fceil (0 :: d) (fdiv (1 :: d) (fmul (2 :: d) q sr) freq)

/-- Bin `k` is skipped: at or above Nyquist, non-positive, or shorter than one sample
(rules R199, R200). -/
def binSkipped (freq nyq lr : Word) : Bool := !fgt freq 0#32 || fge freq nyq || !fge lr oneF

/-- `L`, clamped in binary32 before any conversion (rule R201). -/
def clampLength (lr : Word) (n : Nat) : Nat := if fge lr (i2f n) then n else f2i lr

/-- `w_i`, the Hann window (rule R203). -/
def hann (M : Config.Math) (d : Draw) (i len : Nat) : Word :=
  fsub (0 :: d) halfF
    (fmul (1 :: d) halfF
      (fcos M (2 :: d) (fdiv (3 :: d) (fmul (4 :: d) twoPiF (i2f i)) (i2f ((len : Int) - 1)))))

/-- `t_i` (rule R204). -/
def centredTime (d : Draw) (i len : Nat) : Word :=
  fsub (0 :: d) (i2f i) (fmul (1 :: d) (i2f ((len : Int) - 1)) halfF)

/-- `phi_i` (rule R204). -/
def carrierPhase (d : Draw) (i len : Nat) (freq sr : Word) : Word :=
  fdiv (0 :: d) (fmul (1 :: d) (fmul (2 :: d) twoPiF freq) (centredTime (3 :: d) i len)) sr

/-- `SCR[i]` of a bin that is not skipped (rule R202): window times carrier inside the filter
length, `(+0, +0)` outside. -/
def sample (M : Config.Math) (d : Draw) (i len : Nat) (freq sr : Word) : Cpx :=
  if i < len then
    let w := hann M (0 :: d) i len
    let phi := carrierPhase (1 :: d) i len freq sr
    { re := fmul (2 :: d) w (fcos M (3 :: d) phi), im := fmul (4 :: d) w (fsin M (5 :: d) phi) }
  else Cpx.zero

/-- The time-domain buffer of a bin (rule R202). -/
def timeBuffer (M : Config.Math) (d : Draw) (n len : Nat) (freq sr : Word) : List Cpx :=
  (List.range n).map (fun i => sample M (i :: d) i len freq sr)

/-- The stored kernel of bin `k` for `n = 2^m` (rules R198 to R205): all `(+0, +0)` for a skipped
bin, else the forward transform of its time-domain buffer. -/
def kernel (M : Config.Math) (tw : Nat → Cpx) (table : List Nat) (d : Draw) (m k : Nat)
    (c : BankConsts) (sr fmin : Word) : List Cpx :=
  let freq := centreFreq M (0 :: d) k c.bpoF fmin
  let lr := rawLength (1 :: d) c.q sr freq
  if binSkipped freq c.nyq lr then List.replicate (2 ^ m) Cpx.zero
  else
    fftCore tw table (2 :: d) m (timeBuffer M (3 :: d) (2 ^ m) (clampLength lr (2 ^ m)) freq sr)

/-- The bank of kernels `0 .. bins-1` (rule R195). -/
def kernelBank (M : Config.Math) (tw : Nat → Cpx) (table : List Nat) (d : Draw) (m bins : Nat)
    (bpo : Int) (sr fmin : Word) : List (List Cpx) :=
  let c := bankConsts M (0 :: d) bpo sr
  (List.range bins).map (fun k => kernel M tw table (k :: 1 :: d) m k c sr fmin)

/-! ## The correlator (rule R212) -/

/-- `KBANK[k][i]`; an entry the bank does not list is unspecified (rule R39): a free value of its own
bin and index. DESIGN CHOICE (log entry 7): the same one at every time. -/
def kernelAt (bank : List (List Cpx)) (k i : Nat) : Cpx :=
  (bank.getD k []).getD i ⟨Config.freeEntry [k, i, 1], Config.freeEntry [k, i, 2]⟩

/-- One multiply-accumulate step at index `i` (rule R212). -/
def accumulate (d : Draw) (x : List Cpx) (kern : Nat → Cpx) (acc : Cpx) (i : Nat) : Cpx :=
  let p := cmulconj (0 :: i :: d) (cpxAt x i) (kern i)
  { re := fadd (1 :: i :: d) acc.re p.re, im := fadd (2 :: i :: d) acc.im p.im }

/-- `CORRELATE(A, K, n)` for `n = 2^m` (rule R212): ascending order from `+0`, then scaled by
`2^-m`. -/
def correlate (d : Draw) (x : List Cpx) (kern : Nat → Cpx) (m : Nat) : Cpx :=
  let acc := (List.range (2 ^ m)).foldl (accumulate (0 :: d) x kern) Cpx.zero
  { re := fmul (1 :: d) acc.re (invPow2 m), im := fmul (2 :: d) acc.im (invPow2 m) }

/-- The coefficients of bins `0 .. bins-1` (rule R210). -/
def cqtResult (bank : List (List Cpx)) (d : Draw) (m bins : Nat) (re im : List Word) : List Cpx :=
  (List.range bins).map (fun k => correlate (k :: d) (zipCpx re im) (kernelAt bank k) m)

/-- `SCR[0 .. n-1]` at any value, as kernel construction leaves it (V4 of
93_implementation_defined.md). -/
def scratchUnspecified (d : Draw) (n : Nat) : List Cpx :=
  (List.range n).map (fun i => ⟨Config.freeWord (0 :: i :: d), Config.freeWord (1 :: i :: d)⟩)

end Sys2Proof.Machine
end

