-- ==== Sys2Proof/Machine/State.lean ====
section
/-! DEFINITION. Everything the spec gives the machine (rules R46, R47), as plain data, and its reset value. -/

namespace Sys2Proof.Machine

/-- The sequencer phase (rule R30). -/
inductive Phase where
  | idle
  | busy
  deriving DecidableEq, Repr

/-- The error codes of rule R241. Codes 12 to 15 are reserved and never reported. -/
inductive ErrCode where
  | noError
  | invalidLength
  | invalidParam
  | nullBuffer
  | allocFail
  | uninit
  | bankTooSmall
  | lengthMismatch
  | alreadyInit
  | badPointer
  | busError
  | illegalCmd
  deriving DecidableEq, Repr

/-- The command latch `L` (rule R44). -/
structure Latch where
  w : Word
  ptrRe : Word
  ptrIm : Word
  ptrOre : Word
  ptrOim : Word
  n : Word
  bpo : Word
  oct : Word
  sr : Word
  fmin : Word
  deriving DecidableEq, Repr

/-- The addresses `base` to `base + size - 1`. -/
structure Window where
  base : Nat
  size : Nat
  deriving DecidableEq, Repr

/-- What the platform puts behind the memory master port (rules R69, R70, R72, R290). -/
structure Platform where
  /-- `CSR_BASE`, where the core's own register block is reachable as data addresses, if anywhere. -/
  csrBase : Option Word
  /-- Windows that are not ordinary memory (rule R69). -/
  devices : List Window
  /-- Windows in which the port answers an access of the core with an error (rule R72). -/
  errors : List Window
  /-- Windows in which the port never answers an access of the core (rule R290). -/
  silent : List Window
  deriving DecidableEq, Repr

/-- One access of the CSR port: a byte offset in the 256-byte block and the byte strobes (rule R41). -/
inductive CsrAccess where
  | read (off : BitVec 8) (strobes : BitVec 4)
  | write (off : BitVec 8) (strobes : BitVec 4) (data : Word)
  deriving DecidableEq, Repr

/-- What a port answers: the data and whether it is an error response (rule R41). -/
structure Reply where
  data : Word
  error : Bool
  deriving DecidableEq, Repr

/-- What can happen to the machine in one step. -/
inductive Input where
  /-- The core's turn: the running command completes (rules R31, R290). -/
  | core
  /-- One access of the CSR port (rule R41). -/
  | csr (a : CsrAccess)
  /-- The core's turn and a CSR access in the same cycle (rule R246). -/
  | coreWithCsr (a : CsrAccess)
  /-- The host loads the word at a data address (`mem.r`, rule R99). -/
  | memRead (addr : Word)
  /-- The host stores a word at a data address (`mem.w`, rule R99). -/
  | memWrite (addr data : Word)
  /-- The host loads one byte (rule R63 speaks of narrower host accesses). -/
  | memReadByte (addr : Word)
  /-- The host stores one byte. -/
  | memWriteByte (addr : Word) (data : Byte)
  /-- `rst` is asserted (rule R270). -/
  | rstAssert
  /-- `rst` is released (rules R270, R271). -/
  | rstRelease
  /-- The platform changes what stands behind the memory port (rule R70). -/
  | platform (p : Platform)
  deriving DecidableEq, Repr

/-- Host data memory (rule R60): address and byte pairs, addresses strictly rising, no entry equal
to what an unlisted address reads as. -/
abbrev Memory := List Host.Cell

/-- The state (rules R46, R47), with the parameters and the outside world beside it. -/
structure State where
  /-- The parameters of rule R8. No step changes them. -/
  cfg : Config.Params
  /-- The platform behind the memory port. -/
  plat : Platform
  /-- The level of the reset input (rule R270). -/
  rst : Bool
  /-- `PHASE`, visible as `STATUS.BUSY` (rule R30). -/
  phase : Phase
  /-- `STATUS.DONE` (rule R25). -/
  done : Bool
  /-- `STATUS.OK` (rule R25). -/
  ok : Bool
  /-- `STATUS.ERR` (rules R25, R241). -/
  err : ErrCode
  /-- `CTRL.IE_DONE` (rule R26). -/
  ieDone : Bool
  /-- `CTRL.IE_OVR` (rule R26). -/
  ieOvr : Bool
  /-- `IRQ.DONE_P` (rule R27). -/
  doneP : Bool
  /-- `IRQ.OVR_P` (rule R27). -/
  ovrP : Bool
  /-- The pointer registers of rule R32. -/
  ptrRe : Word
  ptrIm : Word
  ptrOre : Word
  ptrOim : Word
  /-- The argument registers of rule R33. -/
  argN : Word
  argBpo : Word
  argOct : Word
  argSr : Word
  argFmin : Word
  /-- `L` (rule R44). -/
  latch : Latch
  /-- `FFT_VALID` and `FFT_LOG2N` (rule R34). -/
  fftValid : Bool
  fftLog2n : BitVec 5
  /-- `BITREV` (rule R35): the entries `INIT_FFT` wrote; an unlisted entry is unspecified. -/
  bitrev : List Nat
  /-- `CQT_VALID`, `CQT_BINS`, `CQT_LEN` (rule R37). -/
  cqtValid : Bool
  cqtBins : Word
  cqtLen : Word
  /-- `KBANK` (rule R39): the kernels `INIT_CQT` wrote; an unlisted entry is unspecified. -/
  kbank : List (List Cpx)
  /-- `SCR` (rule R40); an unlisted entry is unspecified. -/
  scr : List Cpx
  /-- Host data memory (rule R60). -/
  mem : Memory
  /-- What is still to happen, oldest first; when it is empty the core has its turn. -/
  inputs : List Input
  /-- The answer to the last access of the CSR port or of host memory by the host. -/
  reply : Option Reply
  /-- The draw counter: no two commands or resets share a value of it. -/
  draws : Nat
  deriving DecidableEq, Repr

/-- Why the machine stops. -/
inductive Fault where
  /-- The memory port never answers an access of the running command, which stays busy forever
  (rule R290; K1 of 93_implementation_defined.md). Raised by FFT, IFFT and CQT. Safe. -/
  | portNeverAnswers
  /-- A host load or store passes the top of the 2^32-byte address space (rule R60). Raised by the
  host's memory accesses. Safe. -/
  | noSuchAddress
  deriving DecidableEq, Repr

/-- Why the model has no step. -/
inductive Refusal where
  /-- No meaning yet for this mnemonic. Raised by no arm. Safe. -/
  | notModelled (mnemonic : String)
  /-- `OVERLAP`: a command issued with overlapping buffers (rule R76). Raised by FFT, IFFT and CQT. Safe. -/
  | overlap
  /-- A buffer lies in a device window or in the core's own register block (rules R69, R283 H4).
  Raised by FFT, IFFT and CQT. Safe. -/
  | bufferNotMemory
  /-- The host writes a running command's ranges, or reads its written ranges (rules R75, R283 H1).
  Raised by the host's memory accesses. Safe. -/
  | runningBuffer
  /-- A CSR access while `rst` is asserted (rule R270). Raised by CSR accesses, and by host accesses
  that reach the register block. Safe. -/
  | csrDuringReset
  deriving DecidableEq, Repr

/-- The latch with every word zero: its value in `State.reset` (rule R44 gives none).
DESIGN CHOICE (log entry 6), unsafe. -/
def Latch.zero : Latch :=
  { w := 0#32, ptrRe := 0#32, ptrIm := 0#32, ptrOre := 0#32, ptrOim := 0#32,
    n := 0#32, bpo := 0#32, oct := 0#32, sr := 0#32, fmin := 0#32 }

/-- A platform with ordinary memory everywhere. DESIGN CHOICE (log entry 4), unsafe. -/
def Platform.allMemory : Platform :=
  { csrBase := none, devices := [], errors := [], silent := [] }

/-- The machine right after reset (rules R46, R270), with the default parameters of rule R8. -/
def State.reset : State :=
  { cfg := Config.Params.default
    plat := Platform.allMemory
    rst := false
    phase := .idle
    done := false
    ok := false
    err := .noError
    ieDone := false
    ieOvr := false
    doneP := false
    ovrP := false
    ptrRe := 0#32
    ptrIm := 0#32
    ptrOre := 0#32
    ptrOim := 0#32
    argN := 0#32
    argBpo := 0#32
    argOct := 0#32
    argSr := 0#32
    argFmin := 0#32
    latch := Latch.zero
    fftValid := false
    fftLog2n := 0#5
    bitrev := []
    cqtValid := false
    cqtBins := 0#32
    cqtLen := 0#32
    kbank := []
    scr := []
    mem := []
    inputs := []
    reply := none
    draws := 0 }

end Sys2Proof.Machine
end

