-- ==== Sys2Proof/Machine/Flags.lean ====
section
/-! DEFINITION. The status flags and pending bits (rule R45): their register views and the interrupt output. -/

namespace Sys2Proof.Machine

/-- The numeric codes of rule R241. -/
def errCodeBits (e : ErrCode) : BitVec 4 :=
  match e with
  | .noError => 0#4
  | .invalidLength => 1#4
  | .invalidParam => 2#4
  | .nullBuffer => 3#4
  | .allocFail => 4#4
  | .uninit => 5#4
  | .bankTooSmall => 6#4
  | .lengthMismatch => 7#4
  | .alreadyInit => 8#4
  | .badPointer => 9#4
  | .busError => 10#4
  | .illegalCmd => 11#4

/-- `STATUS.BUSY` is the phase seen as a bit (rule R30). -/
def busyBit (s : State) : Bool := s.phase == .busy

/-- `STATUS` (rule R25), most significant field first; reserved bits read 0. -/
def statusWord (s : State) : Word :=
  0#11 ++ s.fftLog2n ++ 0#6 ++ BitVec.ofBool s.cqtValid ++ BitVec.ofBool s.fftValid
    ++ errCodeBits s.err ++ 0#1 ++ BitVec.ofBool s.ok ++ BitVec.ofBool s.done
    ++ BitVec.ofBool (busyBit s)

/-- `CTRL` (rule R26). -/
def ctrlWord (s : State) : Word := 0#30 ++ BitVec.ofBool s.ieOvr ++ BitVec.ofBool s.ieDone

/-- `IRQ` (rule R27). -/
def irqWord (s : State) : Word := 0#30 ++ BitVec.ofBool s.ovrP ++ BitVec.ofBool s.doneP

/-- A host write of `CTRL`: bits [31:2] are ignored (rule R26). -/
def writeCtrl (v : Word) (s : State) : State :=
  { s with ieDone := v.getLsbD 0, ieOvr := v.getLsbD 1 }

/-- A host write of `IRQ`: a 1 clears its bit, a 0 leaves it (rule R27). -/
def writeIrq (v : Word) (s : State) : State :=
  { s with doneP := s.doneP && !v.getLsbD 0, ovrP := s.ovrP && !v.getLsbD 1 }

/-- The interrupt output (rule R243). -/
def irqLine (s : State) : Bool := (s.doneP && s.ieDone) || (s.ovrP && s.ieOvr)

end Sys2Proof.Machine
end

