-- ==== Sys2Proof/Syntax.lean ====
section
/-! DEFINITION. The commands of the opcode map. -/

namespace Sys2Proof

/-- The seven commands of rule R92, one constructor per row of the opcode table. A command word
carries no operand (rule R93), so no constructor has a field. -/
inductive Instr where
  | initFft
  | fft
  | ifft
  | initCqt
  | cqt
  | freeFft
  | freeCqt
  deriving DecidableEq, Repr

end Sys2Proof
end

