-- ==== Sys2Proof/WellFormed.lean ====
section
/-! DEFINITION. Which syntactic things are well formed: commands, command words, parameters. -/

namespace Sys2Proof

/-- Every command is well formed: it has no operand field (rule R93). -/
def Instr.wellFormed (_ : Instr) : Bool := true

/-- The fields of a legal command word: `RSV = 0` and `OPC` from 1 to 7 (rules R91, R92). -/
def commandWordWellFormed (w : Word) : Bool :=
  w.extractLsb' 4 28 == 0#28 && decide (1 ≤ w.toNat) && decide (w.toNat ≤ 7)

/-- The ranges of rule R8: `LOG2_NMAX` from 0 to 24 and `KBANK_CAP` at least 1. -/
def Config.Params.wellFormed (p : Config.Params) : Bool :=
  decide (p.log2NMax.toNat ≤ 24) && decide (1 ≤ p.kbankCap.toNat)

end Sys2Proof
end

