-- ==== Sys2Proof/Decode.lean ====
section
/-! DEFINITION. Command words: the decoder, total and rejecting by name, and the encoder. -/

namespace Sys2Proof

/-- Why a command word or a row of bytes is no command. -/
inductive DecodeError where
  /-- `RSV`, bits [31:4], is not 0 (rule R97). -/
  | reservedBits
  /-- `OPC` is 0 or at least 8 (rule R97). -/
  | illegalOpcode
  /-- Not the four bytes of one word (rule R90: always one word). -/
  | notOneWord
  deriving DecidableEq, Repr

/-- `OPC = w[3:0]` (rule R91). -/
def opc (w : Word) : BitVec 4 := w.extractLsb' 0 4

/-- `RSV = w[31:4]` (rule R91). -/
def rsv (w : Word) : BitVec 28 := w.extractLsb' 4 28

/-- Rule R98. -/
def decode (w : Word) : Except DecodeError Instr :=
  if rsv w ≠ 0#28 then .error .reservedBits
  else if opc w = 0x1#4 then .ok .initFft
  else if opc w = 0x2#4 then .ok .fft
  else if opc w = 0x3#4 then .ok .ifft
  else if opc w = 0x4#4 then .ok .initCqt
  else if opc w = 0x5#4 then .ok .cqt
  else if opc w = 0x6#4 then .ok .freeFft
  else if opc w = 0x7#4 then .ok .freeCqt
  else .error .illegalOpcode

/-- The word on the CSR port's byte lanes, byte offset `o` holding bits `[8o+7 : 8o]` (rule R62). -/
def decodeBytes (bs : List Byte) : Except DecodeError Instr :=
  match bs with
  | [b0, b1, b2, b3] => decode (b3 ++ b2 ++ b1 ++ b0)
  | _ => .error .notOneWord

/-- The opcode of each command, from the map of rule R92. -/
def opcodeOf (i : Instr) : BitVec 4 :=
  match i with
  | .initFft => 0x1#4
  | .fft => 0x2#4
  | .ifft => 0x3#4
  | .initCqt => 0x4#4
  | .cqt => 0x5#4
  | .freeFft => 0x6#4
  | .freeCqt => 0x7#4

/-- The command word: `OPC` in [3:0], zeros above (rules R91, R92). -/
def encode (i : Instr) : Word := 0#28 ++ opcodeOf i

/-- The four byte lanes of a word, lowest offset first (rule R62). -/
def bytesOfWord (w : Word) : List Byte :=
  [w.extractLsb' 0 8, w.extractLsb' 8 8, w.extractLsb' 16 8, w.extractLsb' 24 8]

/-- The command the decoder reads from the `nbits`-bit word `w`, its bits above `nbits` zero. -/
def decodeTableWord (nbits w : Nat) : Option Instr :=
  if nbits ≤ 32 then
    match decodeBytes (bytesOfWord (BitVec.ofNat 32 (w % 2 ^ nbits))) with
    | .ok i => some i
    | .error _ => none
  else none

end Sys2Proof
end

