-- ==== Sys2Proof/Machine/Memory.lean ====
section
/-! DEFINITION. Host data memory: bytes, little-endian words, buffers of words. -/

namespace Sys2Proof.Machine

/-- The number of byte addresses, `2^ADDR_W` (rules R8, R60). -/
def addressSpace : Nat := 2 ^ 32

/-- What an address no entry lists reads as. DESIGN CHOICE (log entry 5), unsafe. -/
def unlistedByte : Byte := 0#8

/-- The canonical form from address `lo` up: addresses of the space, strictly rising, no entry that
an unlisted address would read as well. -/
def Memory.wfFrom : Nat → Memory → Bool
  | _, [] => true
  | lo, (a, b) :: t =>
    decide (lo ≤ a) && decide (a < addressSpace) && b != unlistedByte && Memory.wfFrom (a + 1) t

/-- The canonical form. -/
def Memory.wf (m : Memory) : Bool := Memory.wfFrom 0 m

/-- The byte at an address. -/
def Memory.readByte : Memory → Nat → Byte
  | [], _ => unlistedByte
  | (k, v) :: t, a => if k = a then v else Memory.readByte t a

/-- An entry in front of a memory, unless it is what an unlisted address reads as. -/
def Memory.consByte (a : Nat) (b : Byte) (m : Memory) : Memory :=
  if b = unlistedByte then m else (a, b) :: m

/-- Memory with one byte written, in canonical form again. -/
def Memory.writeByte : Memory → Nat → Byte → Memory
  | [], a, b => Memory.consByte a b []
  | (k, v) :: t, a, b =>
    if a < k then Memory.consByte a b ((k, v) :: t)
    else if a = k then Memory.consByte a b t
    else (k, v) :: Memory.writeByte t a b

/-- `MemRead(addr, 4)`, little-endian (rules R13, R62). -/
def Memory.readWord (m : Memory) (a : Nat) : Word :=
  Memory.readByte m (a + 3) ++ Memory.readByte m (a + 2) ++ Memory.readByte m (a + 1)
    ++ Memory.readByte m a

/-- `MemWrite(addr, 4, v)`, little-endian (rules R13, R62). -/
def Memory.writeWord (m : Memory) (a : Nat) (v : Word) : Memory :=
  Memory.writeByte
    (Memory.writeByte
      (Memory.writeByte (Memory.writeByte m a (v.extractLsb' 0 8)) (a + 1) (v.extractLsb' 8 8))
      (a + 2) (v.extractLsb' 16 8))
    (a + 3) (v.extractLsb' 24 8)

/-- Element `i` of a buffer at pointer `p` is the word at `p + 4·i` (rule R61). -/
def elementAddress (p : Word) (i : Nat) : Nat := p.toNat + 4 * i

/-- Elements `0 .. len-1` of the buffer at `p` (rule R61). -/
def Memory.readBuffer (m : Memory) (p : Word) (len : Nat) : List Word :=
  (List.range len).map (fun i => Memory.readWord m (elementAddress p i))

/-- The words of a list written one after another, from address `a` up. -/
def Memory.writeWords : Memory → Nat → List Word → Memory
  | m, _, [] => m
  | m, a, v :: vs => Memory.writeWords (Memory.writeWord m a v) (a + 4) vs

/-- The list written as the elements of the buffer at `p`, from element 0 (rule R61). -/
def Memory.writeBuffer (m : Memory) (p : Word) (vs : List Word) : Memory :=
  Memory.writeWords m p.toNat vs

end Sys2Proof.Machine
end

