-- ==== Sys2Proof/Machine/Operands.lean ====
section
/-! DEFINITION. The operand forms: latched integers, binary32 values, pointers, and the buffers of each command. -/

namespace Sys2Proof.Machine

/-! ## Latched operands (rules R44, R93 to R96) -/

/-- `latch(w, PTR_RE, …, ARG_FMIN)` (rules R31, R44). -/
def latchOf (w : Word) (s : State) : Latch :=
  { w := w, ptrRe := s.ptrRe, ptrIm := s.ptrIm, ptrOre := s.ptrOre, ptrOim := s.ptrOim,
    n := s.argN, bpo := s.argBpo, oct := s.argOct, sr := s.argSr, fmin := s.argFmin }

/-- The latch with every word at any value (V5 of 93_implementation_defined.md). -/
def latchUnspecified (d : Draw) : Latch :=
  { w := Config.freeWord (0 :: d), ptrRe := Config.freeWord (1 :: d),
    ptrIm := Config.freeWord (2 :: d), ptrOre := Config.freeWord (3 :: d),
    ptrOim := Config.freeWord (4 :: d), n := Config.freeWord (5 :: d),
    bpo := Config.freeWord (6 :: d), oct := Config.freeWord (7 :: d),
    sr := Config.freeWord (8 :: d), fmin := Config.freeWord (9 :: d) }

/-- `L.N` as `int32` (rule R94). -/
def nInt (l : Latch) : Int := l.n.toInt

/-- `L.BPO` as `int32` (rule R94). -/
def bpoInt (l : Latch) : Int := l.bpo.toInt

/-- `L.OCT` as `int32` (rule R94). -/
def octInt (l : Latch) : Int := l.oct.toInt

/-- `bins = BPO · OCT`, exact (rule R124). -/
def binsInt (l : Latch) : Int := bpoInt l * octInt l

/-- `L.N` as a length in elements: 0 when it is not positive. -/
def nLen (l : Latch) : Nat := (nInt l).toNat

/-- `bins` as a length in elements: 0 unless both factors are positive (rule R124). -/
def binsLen (l : Latch) : Nat := (bpoInt l).toNat * (octInt l).toNat

/-! ## Buffers (rules R61, R64, R65, R66, R140) -/

/-- A pointer and a length in elements (rule R61). -/
structure Buffer where
  ptr : Word
  len : Nat
  deriving DecidableEq, Repr

/-- `bufok(P, len)`, in exact integers (rule R140). -/
def bufok (p : Word) (len : Nat) : Bool :=
  decide (p.toNat % 4 = 0) && decide ((p.toNat : Int) + 4 * len - 1 ≤ 2 ^ 32 - 1)

/-- The pointer value 0 means absent (rule R66). -/
def isAbsent (p : Word) : Bool := p == 0#32

/-- The byte `a` lies in the buffer's range `[P, P + 4·len - 1]` (rule R61). An absent buffer has
none (rule R66). -/
def Buffer.holds (b : Buffer) (a : Nat) : Bool :=
  !isAbsent b.ptr && decide (b.ptr.toNat ≤ a) && decide (a < b.ptr.toNat + 4 * b.len)

/-- Two byte intervals, each a start and a size, share a byte. -/
def meet (a n b m : Nat) : Bool :=
  decide (0 < n) && decide (0 < m) && decide (a < b + m) && decide (b < a + n)

/-- Two buffers share a byte (rule R76). -/
def Buffer.overlaps (b c : Buffer) : Bool := meet b.ptr.toNat (4 * b.len) c.ptr.toNat (4 * c.len)

/-- A buffer shares a byte with a window. -/
def Buffer.inWindow (b : Buffer) (w : Window) : Bool := meet b.ptr.toNat (4 * b.len) w.base w.size

/-- The buffers a command only reads (rule R61). -/
def readOnlyBuffers (i : Instr) (l : Latch) : List Buffer :=
  match i with
  | .initFft => []
  | .fft => []
  | .ifft => []
  | .initCqt => []
  | .cqt => [⟨l.ptrRe, nLen l⟩, ⟨l.ptrIm, nLen l⟩]
  | .freeFft => []
  | .freeCqt => []

/-- The buffers a command writes (rule R61): in place for FFT and IFFT. -/
def writtenBuffers (i : Instr) (l : Latch) : List Buffer :=
  match i with
  | .initFft => []
  | .fft => [⟨l.ptrRe, nLen l⟩, ⟨l.ptrIm, nLen l⟩]
  | .ifft => [⟨l.ptrRe, nLen l⟩, ⟨l.ptrIm, nLen l⟩]
  | .initCqt => []
  | .cqt => [⟨l.ptrOre, binsLen l⟩, ⟨l.ptrOim, binsLen l⟩]
  | .freeFft => []
  | .freeCqt => []

/-- All buffers of a command (rule R61). -/
def commandBuffers (i : Instr) (l : Latch) : List Buffer :=
  readOnlyBuffers i l ++ writtenBuffers i l

/-- `OVERLAP` (rule R76): a written buffer meets another written buffer or one that is only read.
Two buffers that are only read may overlap. -/
def buffersConflict (readOnly written : List Buffer) : Bool :=
  readOnly.any (fun r => written.any (fun w => r.overlaps w)) ||
    match written with
    | [] => false
    | w :: ws => ws.any (fun v => w.overlaps v)

/-! ## The platform behind the memory port (rules R69, R72, R290) -/

/-- What is not ordinary memory: devices, and the core's own register block where the platform
makes it reachable (rules R69, R283 H4). -/
def Platform.nonMemory (p : Platform) : List Window :=
  match p.csrBase with
  | none => p.devices
  | some b => ⟨b.toNat, 256⟩ :: p.devices

/-- Some buffer touches some window. -/
def touches (bs : List Buffer) (ws : List Window) : Bool :=
  bs.any (fun b => ws.any (fun w => b.inWindow w))

/-- How the memory port serves all accesses of a command. -/
inductive PortAnswer where
  | served
  | error
  | never
  deriving DecidableEq, Repr

/-- The port's answer to a command on these buffers (rules R72, R290). -/
def portAnswer (p : Platform) (bs : List Buffer) : PortAnswer :=
  if touches bs p.silent then .never else if touches bs p.errors then .error else .served

end Sys2Proof.Machine
end

