-- ==== Sys2Proof/Machine/Ops.lean ====
section
/-! DEFINITION. The operations the commands share: accept, completion, the checks, the memory commands, reset. -/

namespace Sys2Proof.Machine

/-! ## Accept and completion (rule R31) -/

/-- A write of `CMD` with word `w` (rules R24, R31): latched when idle, dropped with `OVR_P` set
when busy. -/
def accept (w : Word) (s : State) : State :=
  match s.phase with
  | .busy => { s with ovrP := true }
  | .idle =>
    { s with latch := latchOf w s, phase := .busy, done := false, ok := false, err := .noError }

/-- The root of the free values drawn in the state's current command (rule R114). -/
def drawRoot (s : State) : Draw := [s.draws]

/-- THE COMPLETION ACTIONS, the analogue of trap entry (rules R31, R245), shared by every command,
success or failure: `OK`, `ERR`, `BUSY`, `DONE`, `DONE_P`. Nothing else is saved and no mode
changes. The latch, unread while idle, is then at any value (V5 of 93_implementation_defined.md). -/
def complete (e : ErrCode) (s : State) : State :=
  { s with
    ok := e == .noError, err := e, phase := .idle, done := true, doneP := true,
    latch := latchUnspecified (0 :: drawRoot s), draws := s.draws + 1 }

/-- `succeed` (rule R14). -/
def succeed (s : State) : State := complete .noError s

/-- `fail(CODE)` (rule R14). -/
def fail (e : ErrCode) (s : State) : State := complete e s

/-- An illegal command word (rule R97): completes with `ILLEGAL_CMD` and no other effect. -/
def illegalCommand (s : State) : State := fail .illegalCmd s

/-! ## The engine's view of its parameters (rules R34, R36, R140) -/

/-- `FFT_N = 2^FFT_LOG2N` (rules R34, R140). -/
def fftN (s : State) : Nat := 2 ^ s.fftLog2n.toNat

/-- `TW[i]`, the view of the ROM for the state's length (rule R36). -/
def twiddle (s : State) : Nat → Cpx := twView s.cfg.log2NMax.toNat s.fftLog2n.toNat

/-! ## Checks, in the order of rule R244 -/

/-- The checks of `INIT_FFT` (rule R145). -/
def initFftError (s : State) : Option ErrCode :=
  if !isPow2 (nInt s.latch) then some .invalidLength
  else if s.fftValid then some .alreadyInit
  else if nInt s.latch > s.cfg.nMax then some .allocFail
  else none

/-- The checks of `FFT` and `IFFT` (rules R165, R170). -/
def transformError (s : State) : Option ErrCode :=
  if !isPow2 (nInt s.latch) then some .invalidLength
  else if isAbsent s.latch.ptrRe || isAbsent s.latch.ptrIm then some .nullBuffer
  else if !s.fftValid then some .uninit
  else if nInt s.latch ≠ fftN s then some .lengthMismatch
  else if !bufok s.latch.ptrRe (nLen s.latch) || !bufok s.latch.ptrIm (nLen s.latch) then
    some .badPointer
  else none

/-- The checks of `INIT_CQT` (rule R195). -/
def initCqtError (s : State) : Option ErrCode :=
  if !isPow2 (nInt s.latch) then some .invalidLength
  else if bpoInt s.latch ≤ 0 ∨ octInt s.latch ≤ 0 then some .invalidParam
  else if !posfin s.latch.sr || !posfin s.latch.fmin then some .invalidParam
  else if s.cqtValid then some .alreadyInit
  else if !s.fftValid then some .uninit
  else if nInt s.latch ≠ fftN s then some .lengthMismatch
  else if binsInt s.latch * nInt s.latch > s.cfg.kbankCap.toNat then some .allocFail
  else none

/-- The checks of `CQT` (rule R210). -/
def cqtError (s : State) : Option ErrCode :=
  if isAbsent s.latch.ptrRe || isAbsent s.latch.ptrIm || isAbsent s.latch.ptrOre
      || isAbsent s.latch.ptrOim then some .nullBuffer
  else if bpoInt s.latch ≤ 0 ∨ octInt s.latch ≤ 0 then some .invalidParam
  else if !s.cqtValid then some .uninit
  else if binsInt s.latch > s.cqtBins.toNat then some .bankTooSmall
  else if nInt s.latch ≠ s.cqtLen.toNat then some .lengthMismatch
  else if !bufok s.latch.ptrRe (nLen s.latch) || !bufok s.latch.ptrIm (nLen s.latch)
      || !bufok s.latch.ptrOre (binsLen s.latch) || !bufok s.latch.ptrOim (binsLen s.latch) then
    some .badPointer
  else none

/-! ## Commands on host memory -/

/-- The word addresses of a buffer that exist (rules R61, R65). -/
def bufferAddresses (b : Buffer) : List Nat :=
  if isAbsent b.ptr then []
  else ((List.range b.len).map (elementAddress b.ptr)).filter (fun a => decide (a + 4 ≤ addressSpace))

/-- Every word of the buffers at any value, each word independently (rules R72, R271). -/
def scramble (d : Draw) (bs : List Buffer) (m : Memory) : Memory :=
  (bs.flatMap bufferAddresses).foldl (fun m a => Memory.writeWord m a (Config.freeWord (a :: d))) m

/-- Memory after an access of the running command was answered with an error (rule R72). -/
def busErrorMemory (i : Instr) (s : State) : Memory :=
  scramble (1 :: drawRoot s) (writtenBuffers i s.latch) s.mem

/-- A command on host memory: its checks first, before any access (rule R141); then the host duties
the core does not check (rules R69, R76), refused when broken; then the port's answer (rules R72,
R290); then `result`, the memory the command leaves. -/
def memoryCommand (i : Instr) (err : Option ErrCode) (result : State → Memory) (s : State) :
    Host.Outcome State Fault Refusal :=
  match err with
  | some e => .next (fail e s)
  | none =>
    if buffersConflict (readOnlyBuffers i s.latch) (writtenBuffers i s.latch) then .refused .overlap
    else if touches (commandBuffers i s.latch) s.plat.nonMemory then .refused .bufferNotMemory
    else
      match portAnswer s.plat (commandBuffers i s.latch) with
      | .never => .fault .portNeverAnswers
      | .error => .next (fail .busError { s with mem := busErrorMemory i s })
      | .served => .next (succeed { s with mem := result s })

/-- The two halves of complex results written to two buffers, from element 0 (rules R165, R210). -/
def writeCpx (m : Memory) (pRe pIm : Word) (xs : List Cpx) : Memory :=
  Memory.writeBuffer (Memory.writeBuffer m pRe (xs.map Cpx.re)) pIm (xs.map Cpx.im)

/-- The latched real buffer's words, `L.N` of them. -/
def readReal (s : State) : List Word := Memory.readBuffer s.mem s.latch.ptrRe (nLen s.latch)

/-- The latched imaginary buffer's words, `L.N` of them. -/
def readImag (s : State) : List Word := Memory.readBuffer s.mem s.latch.ptrIm (nLen s.latch)

/-! ## Reset (rules R270, R271, R272) -/

/-- The running command's written ranges at any value; memory untouched when none runs (R271, R272). -/
def abandonedMemory (s : State) : Memory :=
  match s.phase, decode s.latch.w with
  | .busy, .ok i => scramble (1 :: drawRoot s) (writtenBuffers i s.latch) s.mem
  | _, _ => s.mem

/-- The release of `rst`: every state element at its reset value (rule R270), the latch and the
internal stores unspecified, host memory as rule R271 says. The parameters, the platform and what
is still to happen are not the core's state. -/
def afterReset (s : State) : State :=
  { State.reset with
    cfg := s.cfg, plat := s.plat, inputs := s.inputs, reply := none,
    latch := latchUnspecified (0 :: drawRoot s), mem := abandonedMemory s, draws := s.draws + 1 }

end Sys2Proof.Machine
end

