-- ==== Sys2Proof/Machine/Csr.lean ====
section
/-! DEFINITION. The register block and its port (10_state.md sections 2 to 5). -/

namespace Sys2Proof.Machine

/-- The named registers of the block. -/
inductive Reg where
  | id
  | cap
  | kbcap
  | cmd
  | status
  | ctrl
  | irq
  | cqtBins
  | cqtLen
  | ptrRe
  | ptrIm
  | ptrOre
  | ptrOim
  | argN
  | argBpo
  | argOct
  | argSr
  | argFmin
  deriving DecidableEq, Repr

/-- The byte offset of each register (10_state.md section 2). -/
def regOffset (r : Reg) : BitVec 8 :=
  match r with
  | .id => 0x00#8
  | .cap => 0x04#8
  | .kbcap => 0x08#8
  | .cmd => 0x0C#8
  | .status => 0x10#8
  | .ctrl => 0x14#8
  | .irq => 0x18#8
  | .cqtBins => 0x1C#8
  | .cqtLen => 0x20#8
  | .ptrRe => 0x24#8
  | .ptrIm => 0x28#8
  | .ptrOre => 0x2C#8
  | .ptrOim => 0x30#8
  | .argN => 0x34#8
  | .argBpo => 0x38#8
  | .argOct => 0x3C#8
  | .argSr => 0x40#8
  | .argFmin => 0x44#8

/-- Every named register. -/
def allRegs : List Reg :=
  [.id, .cap, .kbcap, .cmd, .status, .ctrl, .irq, .cqtBins, .cqtLen, .ptrRe, .ptrIm, .ptrOre,
    .ptrOim, .argN, .argBpo, .argOct, .argSr, .argFmin]

/-- The register at an offset; none at a reserved one (rule R42). -/
def regAt (off : BitVec 8) : Option Reg := allRegs.find? (fun r => regOffset r == off)

/-- The value a read of the register returns (rules R21 to R33). -/
def readReg (r : Reg) (s : State) : Word :=
  match r with
  | .id => 0x46465443#32
  | .cap => 0#27 ++ s.cfg.log2NMax
  | .kbcap => s.cfg.kbankCap
  | .cmd => 0#32
  | .status => statusWord s
  | .ctrl => ctrlWord s
  | .irq => irqWord s
  | .cqtBins => s.cqtBins
  | .cqtLen => s.cqtLen
  | .ptrRe => s.ptrRe
  | .ptrIm => s.ptrIm
  | .ptrOre => s.ptrOre
  | .ptrOim => s.ptrOim
  | .argN => s.argN
  | .argBpo => s.argBpo
  | .argOct => s.argOct
  | .argSr => s.argSr
  | .argFmin => s.argFmin

/-- A host write of the register (rules R21 to R33, R43): read-only registers ignore it. -/
def writeReg (r : Reg) (v : Word) (s : State) : State :=
  match r with
  | .id => s
  | .cap => s
  | .kbcap => s
  | .cmd => accept v s
  | .status => s
  | .ctrl => writeCtrl v s
  | .irq => writeIrq v s
  | .cqtBins => s
  | .cqtLen => s
  | .ptrRe => { s with ptrRe := v }
  | .ptrIm => { s with ptrIm := v }
  | .ptrOre => { s with ptrOre := v }
  | .ptrOim => { s with ptrOim := v }
  | .argN => { s with argN := v }
  | .argBpo => { s with argBpo := v }
  | .argOct => { s with argOct := v }
  | .argSr => { s with argSr := v }
  | .argFmin => { s with argFmin := v }

/-- The port takes 32-bit accesses at multiples of 4 only (rule R41): all byte strobes set. -/
def csrLegal (off : BitVec 8) (strobes : BitVec 4) : Bool :=
  strobes == 0xF#4 && off.extractLsb' 0 2 == 0#2

/-- What a read of an offset returns; a reserved offset reads 0 (rule R42). -/
def readOffset (off : BitVec 8) (s : State) : Word :=
  match regAt off with
  | some r => readReg r s
  | none => 0#32

/-- A write at an offset; a reserved offset ignores it (rule R42). -/
def writeOffset (off : BitVec 8) (v : Word) (s : State) : State :=
  match regAt off with
  | some r => writeReg r v s
  | none => s

/-- One access of the CSR port (rule R41): an illegal one is answered with an error response, reads
0, and changes nothing. -/
def csrAccess (a : CsrAccess) (s : State) : State :=
  match a with
  | .read off strobes =>
    if csrLegal off strobes then { s with reply := some ⟨readOffset off s, false⟩ }
    else { s with reply := some ⟨0#32, true⟩ }
  | .write off strobes v =>
    if csrLegal off strobes then { writeOffset off v s with reply := some ⟨0#32, false⟩ }
    else { s with reply := some ⟨0#32, true⟩ }

end Sys2Proof.Machine
end

