-- ==== Sys2Proof/Machine/CqtEngine.lean ====
section
/-! DEFINITION. The meanings of INIT_CQT, CQT and FREE_CQT (42_cqt.md). -/

namespace Sys2Proof.Machine

/-- The kernel bank for the latched arguments, with the core's `MATH` (rules R121, R195). -/
def builtBank (s : State) : List (List Cpx) :=
  kernelBank (coreMath s.cfg) (twiddle s) s.bitrev (drawRoot s) s.fftLog2n.toNat (binsLen s.latch)
    (bpoInt s.latch) s.latch.sr s.latch.fmin

/-- The kernel bank constructed and its descriptor set (rule R195). -/
def buildCqt (s : State) : State :=
  { s with
    kbank := builtBank s
    scr := scratchUnspecified (2 :: drawRoot s) (nLen s.latch)
    cqtBins := BitVec.ofNat 32 (binsLen s.latch), cqtLen := BitVec.ofNat 32 (nLen s.latch)
    cqtValid := true }

/-- `INIT_CQT` (rule R195). -/
def execInitCqt (s : State) : Host.Outcome State Fault Refusal :=
  match initCqtError s with
  | some e => .next (fail e s)
  | none => .next (succeed (buildCqt s))

/-- Memory after a successful `CQT` (rules R210, R216). -/
def cqtMemory (s : State) : Memory :=
  writeCpx s.mem s.latch.ptrOre s.latch.ptrOim
    (cqtResult s.kbank (drawRoot s) (Nat.log2 (nLen s.latch)) (binsLen s.latch) (readReal s)
      (readImag s))

/-- `CQT` (rule R210). -/
def execCqt (s : State) : Host.Outcome State Fault Refusal :=
  memoryCommand .cqt (cqtError s) cqtMemory s

/-- The bank descriptor cleared; `KBANK`'s content becomes unspecified (rule R220). -/
def freeCqt (s : State) : State :=
  { s with cqtValid := false, cqtBins := 0#32, cqtLen := 0#32, kbank := [] }

/-- `FREE_CQT` (rule R220). -/
def execFreeCqt (s : State) : Host.Outcome State Fault Refusal := .next (succeed (freeCqt s))

end Sys2Proof.Machine
end

