-- ==== Sys2Proof/Machine/FftEngine.lean ====
section
/-! DEFINITION. The meanings of INIT_FFT, FFT, IFFT and FREE_FFT (41_fft.md). -/

namespace Sys2Proof.Machine

/-- The FFT context for length `n` (rule R145). -/
def buildFft (n : Nat) (s : State) : State :=
  { s with bitrev := bitrevGen n, fftLog2n := BitVec.ofNat 5 (Nat.log2 n), fftValid := true }

/-- `INIT_FFT` (rule R145). -/
def execInitFft (s : State) : Host.Outcome State Fault Refusal :=
  match initFftError s with
  | some e => .next (fail e s)
  | none => .next (succeed (buildFft (nLen s.latch) s))

/-- Memory after a successful `FFT` (rule R165). -/
def fftMemory (s : State) : Memory :=
  writeCpx s.mem s.latch.ptrRe s.latch.ptrIm
    (forwardResult (twiddle s) s.bitrev (drawRoot s) s.fftLog2n.toNat (readReal s) (readImag s))

/-- `FFT` (rule R165). -/
def execFft (s : State) : Host.Outcome State Fault Refusal :=
  memoryCommand .fft (transformError s) fftMemory s

/-- Memory after a successful `IFFT` (rule R170). -/
def ifftMemory (s : State) : Memory :=
  writeCpx s.mem s.latch.ptrRe s.latch.ptrIm
    (inverseResult (twiddle s) s.bitrev (drawRoot s) s.fftLog2n.toNat (readReal s) (readImag s))

/-- `IFFT` (rule R170): the checks of `FFT`, all before any access. -/
def execIfft (s : State) : Host.Outcome State Fault Refusal :=
  memoryCommand .ifft (transformError s) ifftMemory s

/-- The FFT context torn down; `BITREV`'s content becomes unspecified (rule R180). -/
def freeFft (s : State) : State :=
  { s with fftValid := false, fftLog2n := 0#5, bitrev := [] }

/-- `FREE_FFT` (rule R180). -/
def execFreeFft (s : State) : Host.Outcome State Fault Refusal := .next (succeed (freeFft s))

end Sys2Proof.Machine
end

