-- ==== Sys2Proof/Machine/Dispatch.lean ====
section
/-! DEFINITION. One arm per command. -/

namespace Sys2Proof.Machine

/-- The completion of a command on the latched operands (rule R31). -/
def exec (i : Instr) (s : State) : Host.Outcome State Fault Refusal :=
  match i with
  | .initFft => Sys2Proof.Machine.execInitFft s
  | .fft => Sys2Proof.Machine.execFft s
  | .ifft => Sys2Proof.Machine.execIfft s
  | .initCqt => Sys2Proof.Machine.execInitCqt s
  | .cqt => Sys2Proof.Machine.execCqt s
  | .freeFft => Sys2Proof.Machine.execFreeFft s
  | .freeCqt => Sys2Proof.Machine.execFreeCqt s

end Sys2Proof.Machine
end

