-- ==== Sys2Proof/Machine/Sequencer.lean ====
section
/-! DEFINITION. The core's turn, and the inputs from outside: CSR port, host memory, reset, platform. -/

namespace Sys2Proof.Machine

/-- The core's turn (rules R31, R290): while busy, the latched word is decoded and its command
completes, an illegal word with `ILLEGAL_CMD` (rule R97). An idle core waits (rule R255), and one
held in reset does nothing (rule R270). -/
def coreTurn (s : State) : Host.Outcome State Fault Refusal :=
  if s.rst then .next s
  else
    match s.phase with
    | .idle => .next s
    | .busy =>
      match decode s.latch.w with
      | .ok i => exec i s
      | .error _ => .next (illegalCommand s)

/-- A CSR access (rules R41, R270). -/
def csrTurn (a : CsrAccess) (s : State) : Host.Outcome State Fault Refusal :=
  if s.rst then .refused .csrDuringReset else .next (csrAccess a s)

/-- A completion sets `DONE_P` even if the access of the same cycle clears it: the set wins
(rules R27, R246). -/
def setWins (completed : Bool) (s : State) : State := { s with doneP := s.doneP || completed }

/-- A completion and a CSR access in the same cycle: completion first (rule R246). -/
def sameCycle (a : CsrAccess) (s : State) : Host.Outcome State Fault Refusal :=
  if s.rst then .refused .csrDuringReset
  else
    match coreTurn s with
    | .next t => .next (setWins (busyBit s) (csrAccess a t))
    | .fault f => .fault f
    | .refused r => .refused r

/-- The running command touches the host bytes `a .. a+n-1` in one of these buffers (rule R75). -/
def anyHeld (bs : List Buffer) (a n : Nat) : Bool :=
  (List.range n).any (fun k => bs.any (fun b => b.holds (a + k)))

/-- The buffers of the running command whose bytes the host must not write (rule R75). A command
counts as running until the release of a reset that abandons it: DESIGN CHOICE (log entry 15), the
spec says nothing of host accesses to its ranges while `rst` is asserted. -/
def runningBuffers (s : State) : List Buffer :=
  match s.phase, decode s.latch.w with
  | .busy, .ok i => commandBuffers i s.latch
  | _, _ => []

/-- The buffers of the running command whose bytes the host must not read (rule R75); also while
`rst` is asserted, like `runningBuffers`. -/
def runningWritten (s : State) : List Buffer :=
  match s.phase, decode s.latch.w with
  | .busy, .ok i => writtenBuffers i s.latch
  | _, _ => []

/-! ## Host accesses at data addresses -/

/-- The address lies in a device window. -/
def Platform.isDevice (p : Platform) (a : Nat) : Bool :=
  p.devices.any (fun w => decide (w.base ≤ a) && decide (a < w.base + w.size))

/-- Some byte of an access lies in a device window. -/
def Platform.meetsDevice (p : Platform) (a n : Nat) : Bool :=
  (List.range n).any (fun k => p.isDevice (a + k))

/-- The byte a host load finds: memory's, or, in a device window, any value. DESIGN CHOICE (log
entry 28). -/
def loadByte (s : State) (a : Nat) : Byte :=
  if s.plat.isDevice a then (Config.freeWord (a :: 3 :: drawRoot s)).setWidth 8
  else Memory.readByte s.mem a

/-- The word a host load finds, little-endian (rule R62). -/
def loadWord (s : State) (a : Nat) : Word :=
  loadByte s (a + 3) ++ loadByte s (a + 2) ++ loadByte s (a + 1) ++ loadByte s a

/-- Memory after a host store of one byte; a device takes its own bytes. -/
def storeByte (p : Platform) (m : Memory) (a : Nat) (b : Byte) : Memory :=
  if p.isDevice a then m else Memory.writeByte m a b

/-- Memory after a host store of one word, little-endian (rule R62). -/
def storeWord (p : Platform) (m : Memory) (a : Nat) (v : Word) : Memory :=
  storeByte p
    (storeByte p
      (storeByte p (storeByte p m a (v.extractLsb' 0 8)) (a + 1) (v.extractLsb' 8 8))
      (a + 2) (v.extractLsb' 16 8))
    (a + 3) (v.extractLsb' 24 8)

/-- The answer to a host access. A device may answer with an error, and each access of a device
draws anew. -/
def hostReply (a n : Nat) (data : Word) (s : State) : State :=
  { s with
    reply := some ⟨data, s.plat.meetsDevice a n &&
      (Config.freeWord (a :: 4 :: drawRoot s)).getLsbD 0⟩
    draws := s.draws + (s.plat.meetsDevice a n).toNat }

/-- The byte strobes the CSR port sees of an access of `n` bytes at `a`: all of them only if it is a
word inside the block at `base`. -/
def blockStrobes (base a n : Nat) : BitVec 4 :=
  if n = 4 ∧ base ≤ a ∧ a + 4 ≤ base + 256 then 0xF#4 else 0x1#4

/-- A host access of `n` bytes at the data address `a` (rules R60, R75, R283 H10). Past the top of
the space or in the running command's ranges it stops. Where it reaches the register block at
`CSR_BASE` (rules R8, R60) it is the access `csr` of the CSR port, which answers one that is not a
whole aligned word of the block with an error and no effect (rule R41). Else it goes on to `t`. -/
def hostAccess (a n : Nat) (forbidden : List Buffer) (csr : BitVec 8 → BitVec 4 → CsrAccess)
    (s t : State) : Host.Outcome State Fault Refusal :=
  if addressSpace < a + n then .fault .noSuchAddress
  else if anyHeld forbidden a n then .refused .runningBuffer
  else
    match s.plat.csrBase with
    | none => .next t
    | some base =>
      if meet a n base.toNat 256 then
        csrTurn (csr (BitVec.ofNat 8 (a - base.toNat)) (blockStrobes base.toNat a n)) s
      else .next t

/-- One input. -/
def serve (e : Input) (s : State) : Host.Outcome State Fault Refusal :=
  match e with
  | .core => coreTurn s
  | .csr a => csrTurn a s
  | .coreWithCsr a => sameCycle a s
  | .memRead a =>
    hostAccess a.toNat 4 (runningWritten s) .read s
      (hostReply a.toNat 4 (loadWord s a.toNat) s)
  | .memWrite a v =>
    hostAccess a.toNat 4 (runningBuffers s) (fun off strobes => .write off strobes v) s
      { hostReply a.toNat 4 0#32 s with mem := storeWord s.plat s.mem a.toNat v }
  | .memReadByte a =>
    hostAccess a.toNat 1 (runningWritten s) .read s
      (hostReply a.toNat 1 ((loadByte s a.toNat).setWidth 32) s)
  | .memWriteByte a b =>
    hostAccess a.toNat 1 (runningBuffers s) (fun off strobes => .write off strobes (b.setWidth 32)) s
      { hostReply a.toNat 1 0#32 s with mem := storeByte s.plat s.mem a.toNat b }
  | .rstAssert => .next { s with rst := true }
  | .rstRelease => if s.rst then .next (afterReset s) else .next s
  | .platform p => .next { s with plat := p }

end Sys2Proof.Machine
end

