-- ==== Sys2Proof/Machine/Step.lean ====
section
/-! DEFINITION. One step, and how a command word is placed for the next one. -/

namespace Sys2Proof.Machine

/-- One step: the oldest input, or, when nothing else is to happen, the core's turn, which is always
enabled (rule R290). -/
def step (s : State) : Host.Outcome State Fault Refusal :=
  match s.inputs with
  | [] => coreTurn s
  | e :: rest => serve e { s with inputs := rest }

/-- The state in which the very next step runs the command word `w`: as after the accept of a write
of `CMD` with it (rule R31), on the operand registers as they stand, with nothing else to happen
and `rst` released. -/
def State.withFetchWord (s : State) (nbits w : Nat) : State :=
  accept (BitVec.ofNat 32 (w % 2 ^ nbits)) { s with phase := .idle, rst := false, inputs := [] }

end Sys2Proof.Machine
end

