-- ==== Sys2Proof/Machine/HostScript.lean ====
section
/-! DEFINITION. The host-script lines and pseudo-instructions of rules R99 and R100, as inputs. -/

namespace Sys2Proof.Machine

/-- `csrw NAME, v` (rule R99). -/
def csrw (r : Reg) (v : Word) : Input := .csr (.write (regOffset r) 0xF#4 v)

/-- `csrr NAME -> x` (rule R99): the value is the reply. -/
def csrr (r : Reg) : Input := .csr (.read (regOffset r) 0xF#4)

/-- `cmd MNEMONIC` (rule R99). -/
def cmd (i : Instr) : Input := csrw .cmd (encode i)

/-- `wait` (rule R100): some polls while busy, the completion, and the poll that sees `DONE`. -/
def wait (polls : Nat) : List Input := List.replicate polls (csrr .status) ++ [.core, csrr .status]

/-- `initFFT n` (rule R100). -/
def scriptInitFft (polls : Nat) (n : Word) : List Input :=
  [csrw .argN n, cmd .initFft] ++ wait polls

/-- The operand writes of `fft re, im, n` and `ifft re, im, n` (rule R100). -/
def transformOperands (re im n : Word) : List Input :=
  [csrw .ptrRe re, csrw .ptrIm im, csrw .argN n]

/-- `fft re, im, n` (rule R100). -/
def scriptFft (polls : Nat) (re im n : Word) : List Input :=
  transformOperands re im n ++ [cmd .fft] ++ wait polls

/-- `ifft re, im, n` (rule R100). -/
def scriptIfft (polls : Nat) (re im n : Word) : List Input :=
  transformOperands re im n ++ [cmd .ifft] ++ wait polls

/-- `initCQT b, o, n, sr, f` (rule R100). -/
def scriptInitCqt (polls : Nat) (b o n sr f : Word) : List Input :=
  [csrw .argBpo b, csrw .argOct o, csrw .argN n, csrw .argSr sr, csrw .argFmin f, cmd .initCqt]
    ++ wait polls

/-- `cqt ir, ii, or, oi, n, b, o` (rule R100). -/
def scriptCqt (polls : Nat) (ir ii ore oim n b o : Word) : List Input :=
  [csrw .ptrRe ir, csrw .ptrIm ii, csrw .ptrOre ore, csrw .ptrOim oim, csrw .argN n,
    csrw .argBpo b, csrw .argOct o, cmd .cqt] ++ wait polls

/-- `freeFFT` (rule R100). -/
def scriptFreeFft (polls : Nat) : List Input := cmd .freeFft :: wait polls

/-- `freeCQT` (rule R100). -/
def scriptFreeCqt (polls : Nat) : List Input := cmd .freeCqt :: wait polls

/-- `clrirq` (rule R100). -/
def scriptClrIrq : List Input := [csrw .irq 0x3#32]

end Sys2Proof.Machine
end

