-- ==== Sys2Proof/Safety.lean ====
section
/-! DEFINITION. What claims are stated in: the invariant, frames, and when a command is ready to complete. -/

namespace Sys2Proof.Machine

/-! ## Parts of the state that an operation leaves alone -/

/-- The host's registers and the outside: operand registers, enables, `OVR_P`, parameters,
platform, reset input, what is still to happen, the last reply. -/
structure SameOutside (s t : State) : Prop where
  cfg : t.cfg = s.cfg
  plat : t.plat = s.plat
  rst : t.rst = s.rst
  ieDone : t.ieDone = s.ieDone
  ieOvr : t.ieOvr = s.ieOvr
  ovrP : t.ovrP = s.ovrP
  ptrRe : t.ptrRe = s.ptrRe
  ptrIm : t.ptrIm = s.ptrIm
  ptrOre : t.ptrOre = s.ptrOre
  ptrOim : t.ptrOim = s.ptrOim
  argN : t.argN = s.argN
  argBpo : t.argBpo = s.argBpo
  argOct : t.argOct = s.argOct
  argSr : t.argSr = s.argSr
  argFmin : t.argFmin = s.argFmin
  inputs : t.inputs = s.inputs
  reply : t.reply = s.reply

/-- The FFT context (rules R34, R35). -/
structure SameFftContext (s t : State) : Prop where
  valid : t.fftValid = s.fftValid
  log2n : t.fftLog2n = s.fftLog2n
  bitrev : t.bitrev = s.bitrev

/-- The kernel bank and its descriptor (rules R37, R39). -/
structure SameBank (s t : State) : Prop where
  valid : t.cqtValid = s.cqtValid
  bins : t.cqtBins = s.cqtBins
  len : t.cqtLen = s.cqtLen
  kbank : t.kbank = s.kbank

/-- All engine state (section 4 of 10_state.md). -/
structure SameEngine (s t : State) : Prop where
  fft : SameFftContext s t
  bank : SameBank s t
  scr : t.scr = s.scr

/-- Every byte outside the buffers reads as before. -/
def SameMemoryOutside (bs : List Buffer) (s t : State) : Prop :=
  ∀ a, bs.any (fun b => b.holds a) = false → Memory.readByte t.mem a = Memory.readByte s.mem a

/-- The completion actions with a result (rule R245). -/
structure CompletedWith (e : ErrCode) (t : State) : Prop where
  phase : t.phase = .idle
  done : t.done = true
  doneP : t.doneP = true
  ok : t.ok = (e == .noError)
  err : t.err = e

/-- Some byte of the access of `n` bytes at `a` lies in one of the buffers (rule R75). -/
def Touching (bs : List Buffer) (a n : Nat) : Prop :=
  ∃ k < n, bs.any (fun b => b.holds (a + k)) = true

/-- The value of a word that is not a NaN, in units of `2^-149`, with each infinity at a place beyond
every finite value, whose magnitudes are below `2^277` units. -/
def extendedQuanta (a : Word) : Int :=
  if isInf a then (if signBit a then -(2 ^ 277) else 2 ^ 277) else signedQuanta a

/-! ## The invariant -/

/-- What every reachable state satisfies: the parameters are in range (rule R8), memory is
canonical, R38's four clauses, the tables hold what the initialisers built (rules R35, R39), and the
result flags are consistent (rules R25, R31). -/
structure Inv (s : State) : Prop where
  params : s.cfg.wellFormed = true
  memory : Memory.wf s.mem = true
  fftCleared : s.fftValid = false → s.fftLog2n = 0#5
  fftBound : s.fftLog2n.toNat ≤ s.cfg.log2NMax.toNat
  bitrevBuilt : s.fftValid = true → s.bitrev = bitrevGen (fftN s)
  bankCleared : s.cqtValid = false → s.cqtBins = 0#32 ∧ s.cqtLen = 0#32
  bankShape : s.cqtValid = true →
    (∃ m, s.cqtLen.toNat = 2 ^ m) ∧ s.cqtLen.toNat ≤ s.cfg.nMax ∧ 1 ≤ s.cqtBins.toNat ∧
      s.cqtBins.toNat * s.cqtLen.toNat ≤ s.cfg.kbankCap.toNat
  bankStored : s.cqtValid = true →
    s.kbank.length = s.cqtBins.toNat ∧ ∀ k ∈ s.kbank, k.length = s.cqtLen.toNat
  resultCleared : s.done = false → s.ok = false ∧ s.err = .noError
  busyNotDone : s.phase = .busy → s.done = false
  okIsNoError : s.done = true → s.ok = (s.err == .noError)

/-- A quiescent state (rule R284): final memory and state are read here. -/
def Quiescent (s : State) : Prop := s.phase = .idle

/-! ## When a command is ready to complete with its own effect -/

/-- The checks of each command, in their order (rule R244). -/
def commandError (i : Instr) (s : State) : Option ErrCode :=
  match i with
  | .initFft => initFftError s
  | .fft => transformError s
  | .ifft => transformError s
  | .initCqt => initCqtError s
  | .cqt => cqtError s
  | .freeFft => none
  | .freeCqt => none

/-- A pointer and length that pass rules R64, R65 and R66. -/
structure GoodBuffer (p : Word) (len : Nat) : Prop where
  present : p ≠ 0#32
  aligned : p.toNat % 4 = 0
  inSpace : p.toNat + 4 * len ≤ 2 ^ 32

/-- Two buffers share no byte (rule R76). -/
def Apart (p : Word) (len : Nat) (q : Word) (len' : Nat) : Prop :=
  p.toNat + 4 * len ≤ q.toNat ∨ q.toNat + 4 * len' ≤ p.toNat

/-- The command's buffers are ordinary memory and the port serves every access
(rules R69, R72, R290). -/
structure Served (i : Instr) (s : State) : Prop where
  memory : touches (commandBuffers i s.latch) s.plat.nonMemory = false
  served : portAnswer s.plat (commandBuffers i s.latch) = .served

/-- `FFT` and `IFFT` of length `2^m` pass every check and keep the host duties (rules R165, R170,
R76). -/
structure TransformReady (m : Nat) (s : State) : Prop where
  length : s.latch.n.toInt = 2 ^ m
  initialised : s.fftValid = true
  matching : s.fftLog2n.toNat = m
  real : GoodBuffer s.latch.ptrRe (2 ^ m)
  imag : GoodBuffer s.latch.ptrIm (2 ^ m)
  apart : Apart s.latch.ptrRe (2 ^ m) s.latch.ptrIm (2 ^ m)

/-- `CQT` of length `2^m` on `bins = bpo · oct` bins passes every check and keeps the host duties
(rules R210, R76). -/
structure CqtReady (m bpo oct : Nat) (s : State) : Prop where
  bpoPos : 0 < bpo
  octPos : 0 < oct
  bpoArg : s.latch.bpo.toInt = bpo
  octArg : s.latch.oct.toInt = oct
  initialised : s.cqtValid = true
  fits : bpo * oct ≤ s.cqtBins.toNat
  length : s.latch.n.toInt = 2 ^ m
  matching : s.cqtLen.toNat = 2 ^ m
  inReal : GoodBuffer s.latch.ptrRe (2 ^ m)
  inImag : GoodBuffer s.latch.ptrIm (2 ^ m)
  outReal : GoodBuffer s.latch.ptrOre (bpo * oct)
  outImag : GoodBuffer s.latch.ptrOim (bpo * oct)
  outsApart : Apart s.latch.ptrOre (bpo * oct) s.latch.ptrOim (bpo * oct)
  realReal : Apart s.latch.ptrRe (2 ^ m) s.latch.ptrOre (bpo * oct)
  realImag : Apart s.latch.ptrRe (2 ^ m) s.latch.ptrOim (bpo * oct)
  imagReal : Apart s.latch.ptrIm (2 ^ m) s.latch.ptrOre (bpo * oct)
  imagImag : Apart s.latch.ptrIm (2 ^ m) s.latch.ptrOim (bpo * oct)

/-- `INIT_CQT` of length `2^m` with `bins = bpo · oct` passes every check (rule R195). -/
structure InitCqtReady (m bpo oct : Nat) (s : State) : Prop where
  length : s.latch.n.toInt = 2 ^ m
  bpoPos : 0 < bpo
  octPos : 0 < oct
  bpoArg : s.latch.bpo.toInt = bpo
  octArg : s.latch.oct.toInt = oct
  rate : posfin s.latch.sr = true
  freq : posfin s.latch.fmin = true
  noBank : s.cqtValid = false
  initialised : s.fftValid = true
  matching : s.fftLog2n.toNat = m
  fits : bpo * oct * 2 ^ m ≤ s.cfg.kbankCap.toNat

/-- The input words of a transform or correlation of length `2^m`: the latched real and imaginary
buffers (rules R165, R210). -/
def inputCpx (m : Nat) (s : State) : List Cpx :=
  (List.range (2 ^ m)).map (fun i =>
    ⟨Memory.readWord s.mem (elementAddress s.latch.ptrRe i),
      Memory.readWord s.mem (elementAddress s.latch.ptrIm i)⟩)

/-- The same with the imaginary parts negated (rule R170). -/
def inputConj (m : Nat) (s : State) : List Cpx :=
  (inputCpx m s).map (fun x => ⟨x.re, fneg x.im⟩)

/-- An input of the CSR port in front of others, `rst` released. -/
structure CsrNext (a : CsrAccess) (rest : List Input) (s : State) : Prop where
  input : s.inputs = .csr a :: rest
  running : s.rst = false

end Sys2Proof.Machine
end

