-- ==== Sys2Proof/Certificates/Slice0/Obligations.lean ====
section
/-! DEFINITION. The statements for the provers. -/

open Sys2Proof Sys2Proof.Machine

/-! ## Encoding -/

/-- Rules R92, R97 on the words of the opcode map and on the spec's illegal examples. -/
def Obligations.OpcodeMapWordsDecode : Prop :=
  decode 0x00000001#32 = .ok .initFft ∧ decode 0x00000002#32 = .ok .fft ∧
  decode 0x00000003#32 = .ok .ifft ∧ decode 0x00000004#32 = .ok .initCqt ∧
  decode 0x00000005#32 = .ok .cqt ∧ decode 0x00000006#32 = .ok .freeFft ∧
  decode 0x00000007#32 = .ok .freeCqt ∧ decode 0x00000000#32 = .error .illegalOpcode ∧
  decode 0x00000008#32 = .error .illegalOpcode ∧ decode 0x0000000F#32 = .error .illegalOpcode ∧
  decode 0x00000012#32 = .error .reservedBits ∧ decode 0x80000001#32 = .error .reservedBits

/-- Decode and encode agree: every command comes back from its bytes and its table word, a word
that decodes to a command is the word of that command, and exactly the words with `RSV = 0` and
`OPC` from 1 to 7 decode (rules R91, R92, R97). -/
def Obligations.DecodeAndEncodeAgree : Prop :=
  (∀ i : Instr, decodeBytes (bytesOfWord (encode i)) = .ok i ∧
    decodeTableWord 32 (encode i).toNat = some i) ∧
  (∀ (w : Word) (i : Instr), decode w = .ok i → w = encode i) ∧
  (∀ w : Word, (∃ i, decode w = .ok i) ↔ (rsv w = 0#28 ∧ 1 ≤ (opc w).toNat ∧ (opc w).toNat ≤ 7))

/-! ## The command lifecycle -/

/-- Accept (rule R31): a `CMD` write while idle latches the word and the nine operand registers
(rule R44), sets `BUSY`, clears `DONE`, `OK`, `ERR`, and changes nothing else. -/
def Obligations.AcceptLatchesWordAndOperands : Prop :=
  ∀ (s : State) (w : Word) (rest : List Input),
    CsrNext (.write 0x0C#8 0xF#4 w) rest s → s.phase = .idle →
    step s = .next { s with
      inputs := rest, reply := some ⟨0#32, false⟩
      latch := { w := w, ptrRe := s.ptrRe, ptrIm := s.ptrIm, ptrOre := s.ptrOre,
                 ptrOim := s.ptrOim, n := s.argN, bpo := s.argBpo, oct := s.argOct,
                 sr := s.argSr, fmin := s.argFmin }
      phase := .busy, done := false, ok := false, err := .noError }

/-- A `CMD` write while busy is dropped and sets `OVR_P`; nothing else of the machine changes
(rules R24, R31). -/
def Obligations.CmdWriteWhileBusyIsDropped : Prop :=
  ∀ (s : State) (w : Word) (rest : List Input),
    CsrNext (.write 0x0C#8 0xF#4 w) rest s → s.phase = .busy →
    step s = .next { s with inputs := rest, reply := some ⟨0#32, false⟩, ovrP := true }

/-- The completion actions (rule R245): whatever completes on the core's turn, command or illegal
word, success or failure, sets `OK`, `ERR`, `BUSY = 0`, `DONE = 1`, `DONE_P = 1` consistently and
leaves the host's registers alone; a failure other than `BUS_ERROR` changes neither memory nor
engine state. -/
def Obligations.CompletionActions : Prop :=
  ∀ s t : State, s.rst = false → s.phase = .busy → coreTurn s = .next t →
    CompletedWith t.err t ∧ SameOutside s t ∧
      (t.err ≠ .noError → t.err ≠ .busError → t.mem = s.mem ∧ SameEngine s t)

/-- An illegal word (rule R97) is accepted like any other command and completes with `ILLEGAL_CMD`
without touching memory or engine state. -/
def Obligations.IllegalWordCompletes : Prop :=
  ∀ (s : State) (w : Word), (rsv w ≠ 0#28 ∨ opc w = 0#4 ∨ 8 ≤ (opc w).toNat) →
    (s.phase = .idle → (accept w s).latch.w = w ∧ (accept w s).phase = .busy) ∧
    (s.rst = false → s.phase = .busy → s.latch.w = w →
      ∃ t, coreTurn s = .next t ∧ CompletedWith .illegalCmd t ∧ t.mem = s.mem ∧ SameEngine s t ∧
        SameOutside s t)

/-- A step runs the decoded command: when the core has its turn, because nothing else is to happen
or because the oldest input gives it, the step is the meaning of the latched word's command
(rules R31, R290). An idle core waits. -/
def Obligations.StepRunsTheLatchedCommand : Prop :=
  (∀ (s : State) (i : Instr), s.rst = false → s.phase = .busy → decode s.latch.w = .ok i →
    (s.inputs = [] → step s = exec i s) ∧
    (∀ rest, s.inputs = .core :: rest → step s = exec i { s with inputs := rest })) ∧
  (∀ s : State, s.inputs = [] → s.phase = .idle → step s = .next s) ∧
  (∀ (s : State) (i : Instr), step (s.withFetchWord 32 (encode i).toNat)
    = exec i (s.withFetchWord 32 (encode i).toNat))

/-! ## INIT_FFT and FREE_FFT -/

/-- `INIT_FFT` (rule R145), every case in check order: not a positive power of two, already
initialised, too long for the tables, and success, which builds `BITREV` and sets `FFT_LOG2N` and
`FFT_VALID` and nothing else. -/
def Obligations.InitFftMeaning : Prop :=
  ∀ s : State,
    ((¬ ∃ m : Nat, s.latch.n.toInt = 2 ^ m) → exec .initFft s = .next (fail .invalidLength s)) ∧
    (∀ m : Nat, s.latch.n.toInt = 2 ^ m →
      (s.fftValid = true → exec .initFft s = .next (fail .alreadyInit s)) ∧
      (s.fftValid = false → 2 ^ s.cfg.log2NMax.toNat < 2 ^ m →
        exec .initFft s = .next (fail .allocFail s)) ∧
      (s.fftValid = false → 2 ^ m ≤ 2 ^ s.cfg.log2NMax.toNat →
        exec .initFft s = .next (succeed { s with
          bitrev := bitrevGen (2 ^ m), fftLog2n := BitVec.ofNat 5 m, fftValid := true })))

/-- `FREE_FFT` (rule R180) always succeeds, clears the FFT context and leaves memory, the kernel
bank and the host's registers alone; freeing a free engine is no different. -/
def Obligations.FreeFftMeaning : Prop :=
  ∀ s : State, ∃ t, exec .freeFft s = .next t ∧ CompletedWith .noError t ∧
    t.fftValid = false ∧ t.fftLog2n = 0#5 ∧ SameBank s t ∧ t.scr = s.scr ∧ t.mem = s.mem ∧
    SameOutside s t

/-- After `FREE_FFT` an `FFT` or `IFFT` of a valid length on present buffers fails `UNINIT`
(rules R165, R170, R180). -/
def Obligations.TransformAfterFreeFails : Prop :=
  ∀ (s t : State) (m : Nat), exec .freeFft s = .next t →
    ∀ l : Latch, l.n.toInt = 2 ^ m → l.ptrRe ≠ 0#32 → l.ptrIm ≠ 0#32 →
      exec .fft { t with latch := l } = .next (fail .uninit { t with latch := l }) ∧
      exec .ifft { t with latch := l } = .next (fail .uninit { t with latch := l })

/-! ## The tables -/

/-- `bitrev_gen` is bit reversal (rule R155): `R[i] = rev_m(i)`, all entries below `n`. -/
def Obligations.BitrevTableIsBitReversal : Prop :=
  ∀ m i : Nat, i < 2 ^ m →
    (bitrevGen (2 ^ m)).length = 2 ^ m ∧ bitrevAt (bitrevGen (2 ^ m)) i = revBits m i ∧
      bitrevAt (bitrevGen (2 ^ m)) i < 2 ^ m

/-- The table applied twice returns to `i` (rule R159). -/
def Obligations.BitrevTableIsAnInvolution : Prop :=
  ∀ m i : Nat, i < 2 ^ m →
    bitrevAt (bitrevGen (2 ^ m)) (bitrevAt (bitrevGen (2 ^ m)) i) = i

/-- The permutation gathers (rule R158): `X'[i] = X[BITREV[i]]`. -/
def Obligations.PermuteGathersByTheTable : Prop :=
  ∀ (m : Nat) (x : List Cpx), x.length = 2 ^ m → ∀ i < 2 ^ m,
    cpxAt (permute (bitrevGen (2 ^ m)) (2 ^ m) x) i = cpxAt x (bitrevAt (bitrevGen (2 ^ m)) i)

/-- The twiddle view (rule R156): the same entries whatever the ROM's size, and the exact entries
at 0, a quarter, an eighth and three eighths of the length. -/
def Obligations.TwiddleViewEntries : Prop :=
  ∀ L m : Nat, m ≤ L →
    (∀ i, twView L m i = twView m m i) ∧
    (1 ≤ m → twView L m 0 = ⟨0x3F800000#32, 0x00000000#32⟩) ∧
    (2 ≤ m → twView L m (2 ^ m / 4) = ⟨0x00000000#32, 0xBF800000#32⟩) ∧
    (3 ≤ m → twView L m (2 ^ m / 8) = ⟨0x3F3504F3#32, 0xBF3504F3#32⟩ ∧
      twView L m (3 * 2 ^ m / 8) = ⟨0xBF3504F3#32, 0xBF3504F3#32⟩)

/-- The impulse law (rule R163), for every length and every ROM that holds it: an impulse becomes
`(1, +0)` in every element, exactly and with positive zeros. -/
def Obligations.ImpulseBecomesFlatSpectrum : Prop :=
  ∀ (L m : Nat) (d : Draw), m ≤ L →
    fftCore (twView L m) (bitrevGen (2 ^ m)) d m
        (⟨0x3F800000#32, 0x00000000#32⟩ :: List.replicate (2 ^ m - 1) Cpx.zero) =
      List.replicate (2 ^ m) ⟨0x3F800000#32, 0x00000000#32⟩

/-! ## FFT and IFFT -/

/-- `FFT` and `IFFT` fail in the check order of rules R165, R170 and R244, each failure with no
effect but the completion. -/
def Obligations.TransformChecksInOrder : Prop :=
  ∀ (i : Instr) (s : State), i = .fft ∨ i = .ifft →
    ((¬ ∃ m : Nat, s.latch.n.toInt = 2 ^ m) → exec i s = .next (fail .invalidLength s)) ∧
    (∀ m : Nat, s.latch.n.toInt = 2 ^ m →
      (s.latch.ptrRe = 0#32 ∨ s.latch.ptrIm = 0#32 → exec i s = .next (fail .nullBuffer s)) ∧
      (s.latch.ptrRe ≠ 0#32 → s.latch.ptrIm ≠ 0#32 →
        (s.fftValid = false → exec i s = .next (fail .uninit s)) ∧
        (s.fftValid = true → s.fftLog2n.toNat ≠ m → exec i s = .next (fail .lengthMismatch s)) ∧
        (s.fftValid = true → s.fftLog2n.toNat = m →
          ¬ (GoodBuffer s.latch.ptrRe (2 ^ m) ∧ GoodBuffer s.latch.ptrIm (2 ^ m)) →
            exec i s = .next (fail .badPointer s))))

/-- `FFT` completes with its own effect (rule R165): whenever the checks pass, the buffers are
apart and ordinary memory and the port serves them, it succeeds and writes the core's result. The
NaN draws' path `[s.draws]` is the model's choice (log entry 8). -/
def Obligations.FftCompletes : Prop :=
  ∀ (m : Nat) (s : State), TransformReady m s → Served .fft s →
    exec .fft s = .next (succeed { s with
      mem := writeCpx s.mem s.latch.ptrRe s.latch.ptrIm
        (fftCore (twView s.cfg.log2NMax.toNat m) s.bitrev [s.draws] m (inputCpx m s)) })

/-- What `FFT` leaves in memory (rules R61, R165): element `i` of each buffer holds the core's
result, every byte outside the two buffers is as before, and so are the engine and the host's
registers. -/
def Obligations.FftWritesItsBuffers : Prop :=
  ∀ (m : Nat) (s : State), TransformReady m s → Served .fft s → Memory.wf s.mem = true →
    ∃ t, exec .fft s = .next t ∧ CompletedWith .noError t ∧ SameEngine s t ∧ SameOutside s t ∧
      SameMemoryOutside [⟨s.latch.ptrRe, 2 ^ m⟩, ⟨s.latch.ptrIm, 2 ^ m⟩] s t ∧
      ∀ i < 2 ^ m,
        Memory.readWord t.mem (elementAddress s.latch.ptrRe i) =
          (cpxAt (fftCore (twView s.cfg.log2NMax.toNat m) s.bitrev [s.draws] m (inputCpx m s)) i).re ∧
        Memory.readWord t.mem (elementAddress s.latch.ptrIm i) =
          (cpxAt (fftCore (twView s.cfg.log2NMax.toNat m) s.bitrev [s.draws] m (inputCpx m s)) i).im

/-- What `IFFT` leaves in memory (rules R61, R170): the conjugated input through the forward core,
each element scaled by `2^-m` and its imaginary part negated; everything else as before. -/
def Obligations.IfftWritesItsBuffers : Prop :=
  ∀ (m : Nat) (s : State), TransformReady m s → Served .ifft s → Memory.wf s.mem = true →
    ∃ t, exec .ifft s = .next t ∧ CompletedWith .noError t ∧ SameEngine s t ∧ SameOutside s t ∧
      SameMemoryOutside [⟨s.latch.ptrRe, 2 ^ m⟩, ⟨s.latch.ptrIm, 2 ^ m⟩] s t ∧
      ∀ i < 2 ^ m, ∃ x, x = cpxAt (fftCore (twView s.cfg.log2NMax.toNat m) s.bitrev
          [0, s.draws] m (inputConj m s)) i ∧
        Memory.readWord t.mem (elementAddress s.latch.ptrRe i) =
          fmul [0, i, 1, s.draws] x.re (invPow2 m) ∧
        Memory.readWord t.mem (elementAddress s.latch.ptrIm i) =
          fneg (fmul [1, i, 1, s.draws] x.im (invPow2 m))

/-- A forward transform of length 1 leaves memory as it was, bit for bit (rules R161, R165). -/
def Obligations.FftOfLengthOneIsTheIdentity : Prop :=
  ∀ s : State, TransformReady 0 s → Served .fft s → Memory.wf s.mem = true →
    s.bitrev = bitrevGen 1 →
    ∃ t, exec .fft s = .next t ∧ CompletedWith .noError t ∧ t.mem = s.mem

/-! ## Host memory and the duties of the host -/

/-- A bus error (rule R72): a command whose checks pass and whose buffers keep the host duties, one
of whose accesses is answered with an error, fails `BUS_ERROR`; memory outside its written ranges
and all engine state are unchanged, and each word of the ranges is a free value of its own. That a
word at any value is `Config.freeWord` of its address and the draw counter is the model's choice
(log entry 9). -/
def Obligations.BusErrorFreesTheWrittenRanges : Prop :=
  ∀ (i : Instr) (s : State), i = .fft ∨ i = .ifft ∨ i = .cqt → commandError i s = none →
    buffersConflict (readOnlyBuffers i s.latch) (writtenBuffers i s.latch) = false →
    touches (commandBuffers i s.latch) s.plat.nonMemory = false →
    portAnswer s.plat (commandBuffers i s.latch) = .error → Memory.wf s.mem = true →
    ∃ t, exec i s = .next t ∧ CompletedWith .busError t ∧ SameEngine s t ∧ SameOutside s t ∧
      SameMemoryOutside (writtenBuffers i s.latch) s t ∧
      ∀ b ∈ writtenBuffers i s.latch, ∀ k < b.len,
        Memory.readWord t.mem (elementAddress b.ptr k) =
          Config.freeWord [elementAddress b.ptr k, 1, s.draws]

/-- Overlapping buffers are refused (rule R76): the two buffers of a transform, the two outputs of a
correlation, or an output and an input of it; the two inputs may overlap. -/
def Obligations.OverlappingBuffersAreRefused : Prop :=
  (∀ (i : Instr) (s : State) (a : Nat), i = .fft ∨ i = .ifft → transformError s = none →
    (Buffer.mk s.latch.ptrRe (nLen s.latch)).holds a = true →
    (Buffer.mk s.latch.ptrIm (nLen s.latch)).holds a = true → exec i s = .refused .overlap) ∧
  (∀ (s : State) (a : Nat), cqtError s = none →
    ((Buffer.mk s.latch.ptrOre (binsLen s.latch)).holds a = true ∧
        ((Buffer.mk s.latch.ptrOim (binsLen s.latch)).holds a = true ∨
          (Buffer.mk s.latch.ptrRe (nLen s.latch)).holds a = true ∨
          (Buffer.mk s.latch.ptrIm (nLen s.latch)).holds a = true)) ∨
      ((Buffer.mk s.latch.ptrOim (binsLen s.latch)).holds a = true ∧
        ((Buffer.mk s.latch.ptrRe (nLen s.latch)).holds a = true ∨
          (Buffer.mk s.latch.ptrIm (nLen s.latch)).holds a = true)) →
    exec .cqt s = .refused .overlap)

/-- Only FFT, IFFT and CQT access host memory (rule R61): the other commands leave it as it was, and
so does every CSR access. -/
def Obligations.OnlyTransfersChangeMemory : Prop :=
  (∀ (i : Instr) (s t : State), exec i s = .next t → t.mem ≠ s.mem →
    i = .fft ∨ i = .ifft ∨ i = .cqt) ∧
  (∀ (a : CsrAccess) (s : State), (csrAccess a s).mem = s.mem)

/-- The frame of the commands on host memory (rules R61, R67, R72): when FFT, IFFT or CQT gives a
next state, every byte outside the buffers the table of rule R61 marks written reads as before, and
engine state, enables and operand registers are unchanged. -/
def Obligations.TransferFrame : Prop :=
  ∀ (i : Instr) (s t : State), i = .fft ∨ i = .ifft ∨ i = .cqt → exec i s = .next t →
    SameMemoryOutside (writtenBuffers i s.latch) s t ∧ SameEngine s t ∧ SameOutside s t

/-- While a command runs (rules R75, R283 H1): a host store of a byte or a word is refused if some
byte of it lies in the command's ranges, a host load if some byte of it lies in its written ranges.
Every other load or store of ordinary memory goes on (rule R283 H10): among them loads of the inputs
of a running `CQT`. That byte accesses exist, that a word may lie at any address, and the reply are
the model's choice (log entry 18); that the ranges are the latched command's, checks failed or not,
is too (log entry 15). -/
def Obligations.RunningBuffersAreTheCores : Prop :=
  ∀ (s : State) (i : Instr) (a v : Word) (b : Byte), s.phase = .busy → decode s.latch.w = .ok i →
    a.toNat + 4 ≤ 2 ^ 32 →
    (Touching (commandBuffers i s.latch) a.toNat 1 →
      serve (.memWriteByte a b) s = .refused .runningBuffer) ∧
    (Touching (commandBuffers i s.latch) a.toNat 4 →
      serve (.memWrite a v) s = .refused .runningBuffer) ∧
    (Touching (writtenBuffers i s.latch) a.toNat 1 →
      serve (.memReadByte a) s = .refused .runningBuffer) ∧
    (Touching (writtenBuffers i s.latch) a.toNat 4 →
      serve (.memRead a) s = .refused .runningBuffer) ∧
    (s.plat.nonMemory = [] →
      (¬ Touching (commandBuffers i s.latch) a.toNat 1 → serve (.memWriteByte a b) s = .next { s with
        mem := Memory.writeByte s.mem a.toNat b, reply := some ⟨0#32, false⟩ }) ∧
      (¬ Touching (commandBuffers i s.latch) a.toNat 4 → serve (.memWrite a v) s = .next { s with
        mem := Memory.writeWord s.mem a.toNat v, reply := some ⟨0#32, false⟩ }) ∧
      (¬ Touching (writtenBuffers i s.latch) a.toNat 1 → serve (.memReadByte a) s = .next { s with
        reply := some ⟨(Memory.readByte s.mem a.toNat).setWidth 32, false⟩ }) ∧
      (¬ Touching (writtenBuffers i s.latch) a.toNat 4 → serve (.memRead a) s = .next { s with
        reply := some ⟨Memory.readWord s.mem a.toNat, false⟩ }))

/-- Host words are little-endian (rule R62): byte `k` of the word at `a` is the byte at `a + k`. -/
def Obligations.WordsAreLittleEndian : Prop :=
  ∀ (m : Memory) (a k : Nat), k < 4 →
    (Memory.readWord m a).extractLsb' (8 * k) 8 = Memory.readByte m (a + k)

/-- A host load after a host store of the same word returns it, whatever the machine is doing
elsewhere (rules R62, R69): two steps. -/
def Obligations.HostLoadAfterStore : Prop :=
  ∀ (s : State) (a v : Word) (rest : List Input),
    s.inputs = .memWrite a v :: .memRead a :: rest → s.phase = .idle → s.plat.nonMemory = [] →
    Memory.wf s.mem = true → a.toNat + 4 ≤ 2 ^ 32 →
    ∃ t u, step s = .next t ∧ step t = .next u ∧ u.reply = some ⟨v, false⟩ ∧ u.inputs = rest

/-! ## INIT_CQT, CQT and FREE_CQT -/

/-- `INIT_CQT` fails in the check order of rules R195 and R244, each failure with no effect but the
completion. -/
def Obligations.InitCqtChecksInOrder : Prop :=
  ∀ s : State,
    ((¬ ∃ m : Nat, s.latch.n.toInt = 2 ^ m) → exec .initCqt s = .next (fail .invalidLength s)) ∧
    (∀ m : Nat, s.latch.n.toInt = 2 ^ m →
      (s.latch.bpo.toInt ≤ 0 ∨ s.latch.oct.toInt ≤ 0 ∨ posfin s.latch.sr = false ∨
          posfin s.latch.fmin = false → exec .initCqt s = .next (fail .invalidParam s)) ∧
      (0 < s.latch.bpo.toInt → 0 < s.latch.oct.toInt → posfin s.latch.sr = true →
          posfin s.latch.fmin = true →
        (s.cqtValid = true → exec .initCqt s = .next (fail .alreadyInit s)) ∧
        (s.cqtValid = false → s.fftValid = false → exec .initCqt s = .next (fail .uninit s)) ∧
        (s.cqtValid = false → s.fftValid = true → s.fftLog2n.toNat ≠ m →
          exec .initCqt s = .next (fail .lengthMismatch s)) ∧
        (s.cqtValid = false → s.fftValid = true → s.fftLog2n.toNat = m →
          (s.cfg.kbankCap.toNat : Int) < s.latch.bpo.toInt * s.latch.oct.toInt * 2 ^ m →
          exec .initCqt s = .next (fail .allocFail s))))

/-- `INIT_CQT` completes with its own effect (rule R195): `bins` kernels of `n` entries, kernel `k`
as rules R197 to R205 build it with the core's `MATH`, the descriptor set, the FFT context, memory
and the host's registers unchanged. The NaN draws' paths `[k, 1, s.draws]` and `[0, s.draws]` (log
entry 8), `MATH` as a table of differences from the reference (log entry 25) and the evaluation of
the reference (log entry 11) are the model's choice. -/
def Obligations.InitCqtBuildsTheBank : Prop :=
  ∀ (m bpo oct : Nat) (s : State), InitCqtReady m bpo oct s →
    ∃ t, exec .initCqt s = .next t ∧ CompletedWith .noError t ∧ t.cqtValid = true ∧
      t.cqtBins.toNat = bpo * oct ∧ t.cqtLen.toNat = 2 ^ m ∧ t.kbank.length = bpo * oct ∧
      (∀ k < bpo * oct, t.kbank[k]? = some (kernel (coreMath s.cfg)
        (twView s.cfg.log2NMax.toNat m) s.bitrev [k, 1, s.draws] m k
        (bankConsts (coreMath s.cfg) [0, s.draws] bpo s.latch.sr) s.latch.sr s.latch.fmin)) ∧
      SameFftContext s t ∧ t.mem = s.mem ∧ SameOutside s t

/-- Bins at or above Nyquist, or of no positive frequency, have all-zero kernels, whatever `MATH` is
(rule R199). -/
def Obligations.BinsAtNyquistHaveZeroKernels : Prop :=
  ∀ (M : Config.Math) (tw : Nat → Cpx) (table : List Nat) (d : Draw) (m k : Nat) (c : BankConsts)
    (sr fmin : Word),
    (fgt (centreFreq M (0 :: d) k c.bpoF fmin) 0#32 = false ∨
      fge (centreFreq M (0 :: d) k c.bpoF fmin) c.nyq = true) →
    kernel M tw table d m k c sr fmin = List.replicate (2 ^ m) ⟨0#32, 0#32⟩

/-- The edges of the Hann window (rule R203): the first sample is `+0` for every filter length of at
least 2, and a NaN for length 1. -/
def Obligations.HannWindowEdges : Prop :=
  (∀ (d : Draw) (len : Nat), 2 ≤ len → len ≤ 2 ^ 24 → hann mathReference d 0 len = 0#32) ∧
  (∀ d : Draw, isNaN (hann mathReference d 0 1) = true)

/-- The filter length (rules R200, R201), clamped to `[1, n]` before any conversion: for a bin that
is not skipped it is `n` when `Lr f>= i2f(n)`, an infinite `Lr` among these, and else the integer
`Lr`, which is below `n`. -/
def Obligations.FilterLengthIsClamped : Prop :=
  ∀ (d : Draw) (x : Word) (m : Nat), m ≤ 24 → isNaN x = false →
    fge (fceil d x) oneF = true →
    1 ≤ clampLength (fceil d x) (2 ^ m) ∧ clampLength (fceil d x) (2 ^ m) ≤ 2 ^ m ∧
    (fge (fceil d x) (i2f (2 ^ m)) = true → clampLength (fceil d x) (2 ^ m) = 2 ^ m) ∧
    (fge (fceil d x) (i2f (2 ^ m)) = false → clampLength (fceil d x) (2 ^ m) < 2 ^ m ∧
      ((clampLength (fceil d x) (2 ^ m) * 2 ^ 149 : Nat) : Int) = signedQuanta (fceil d x)) ∧
    (isInf x = true → clampLength (fceil d x) (2 ^ m) = 2 ^ m)

/-- `CQT` fails in the check order of rules R210 and R244, each failure with no effect but the
completion. -/
def Obligations.CqtChecksInOrder : Prop :=
  ∀ s : State,
    (s.latch.ptrRe = 0#32 ∨ s.latch.ptrIm = 0#32 ∨ s.latch.ptrOre = 0#32 ∨ s.latch.ptrOim = 0#32 →
      exec .cqt s = .next (fail .nullBuffer s)) ∧
    (s.latch.ptrRe ≠ 0#32 → s.latch.ptrIm ≠ 0#32 → s.latch.ptrOre ≠ 0#32 →
        s.latch.ptrOim ≠ 0#32 →
      (s.latch.bpo.toInt ≤ 0 ∨ s.latch.oct.toInt ≤ 0 →
        exec .cqt s = .next (fail .invalidParam s)) ∧
      (∀ bpo oct : Nat, 0 < bpo → 0 < oct → s.latch.bpo.toInt = bpo → s.latch.oct.toInt = oct →
        (s.cqtValid = false → exec .cqt s = .next (fail .uninit s)) ∧
        (s.cqtValid = true → s.cqtBins.toNat < bpo * oct →
          exec .cqt s = .next (fail .bankTooSmall s)) ∧
        (s.cqtValid = true → bpo * oct ≤ s.cqtBins.toNat → s.latch.n.toInt ≠ s.cqtLen.toNat →
          exec .cqt s = .next (fail .lengthMismatch s)) ∧
        (∀ n : Nat, s.cqtValid = true → bpo * oct ≤ s.cqtBins.toNat → s.latch.n.toInt = n →
          n = s.cqtLen.toNat →
          ¬ (GoodBuffer s.latch.ptrRe n ∧ GoodBuffer s.latch.ptrIm n ∧
            GoodBuffer s.latch.ptrOre (bpo * oct) ∧ GoodBuffer s.latch.ptrOim (bpo * oct)) →
          1 ≤ n → exec .cqt s = .next (fail .badPointer s))))

/-- What `CQT` leaves in memory (rules R210, R212, R216): output element `k` is the correlation of
the input with kernel `k`, for `k` below `bins`; every byte outside those elements, the inputs among
them, and all engine state are as before. -/
def Obligations.CqtWritesItsCoefficients : Prop :=
  ∀ (m bpo oct : Nat) (s : State), CqtReady m bpo oct s → Served .cqt s →
    Memory.wf s.mem = true →
    ∃ t, exec .cqt s = .next t ∧ CompletedWith .noError t ∧ SameEngine s t ∧ SameOutside s t ∧
      SameMemoryOutside [⟨s.latch.ptrOre, bpo * oct⟩, ⟨s.latch.ptrOim, bpo * oct⟩] s t ∧
      ∀ k < bpo * oct,
        Memory.readWord t.mem (elementAddress s.latch.ptrOre k) =
          (correlate [k, s.draws] (inputCpx m s) (kernelAt s.kbank k) m).re ∧
        Memory.readWord t.mem (elementAddress s.latch.ptrOim k) =
          (correlate [k, s.draws] (inputCpx m s) (kernelAt s.kbank k) m).im

/-- An all-zero kernel gives `(+0, +0)` for every finite input (rule R213). -/
def Obligations.ZeroKernelGivesZero : Prop :=
  ∀ (d : Draw) (m : Nat) (x : List Cpx) (kern : Nat → Cpx),
    (∀ i < 2 ^ m, kern i = ⟨0#32, 0#32⟩) →
    (∀ i < 2 ^ m, isFinite (cpxAt x i).re = true ∧ isFinite (cpxAt x i).im = true) →
    correlate d x kern m = ⟨0#32, 0#32⟩

/-- `FREE_CQT` (rule R220) always succeeds, clears the descriptor and leaves the FFT context, memory
and the host's registers alone. -/
def Obligations.FreeCqtMeaning : Prop :=
  ∀ s : State, ∃ t, exec .freeCqt s = .next t ∧ CompletedWith .noError t ∧
    t.cqtValid = false ∧ t.cqtBins = 0#32 ∧ t.cqtLen = 0#32 ∧ SameFftContext s t ∧
    t.scr = s.scr ∧ t.mem = s.mem ∧ SameOutside s t

/-! ## Whole-machine rules -/

/-- The invariant holds after reset. -/
def Obligations.ResetMeetsTheInvariant : Prop := Inv State.reset

/-- Every step keeps the invariant, whatever happens in it: host accesses, commands, illegal words,
bus errors, resets. -/
def Obligations.StepKeepsTheInvariant : Prop :=
  ∀ s t : State, Inv s → step s = .next t → Inv t

/-- The FFT context is written only by `INIT_FFT`, `FREE_FFT` and reset (rules R34, R35): any other
step leaves it as it was. -/
def Obligations.FftContextHasThreeWriters : Prop :=
  ∀ s t : State, step s = .next t → ¬ SameFftContext s t →
    (s.rst = true ∧ ∃ rest, s.inputs = .rstRelease :: rest) ∨
      (s.rst = false ∧ s.phase = .busy ∧
        (decode s.latch.w = .ok .initFft ∨ decode s.latch.w = .ok .freeFft))

/-- The kernel bank and its descriptor are written only by `INIT_CQT`, `FREE_CQT` and reset
(rules R37, R39). -/
def Obligations.BankHasThreeWriters : Prop :=
  ∀ s t : State, step s = .next t → ¬ SameBank s t →
    (s.rst = true ∧ ∃ rest, s.inputs = .rstRelease :: rest) ∨
      (s.rst = false ∧ s.phase = .busy ∧
        (decode s.latch.w = .ok .initCqt ∨ decode s.latch.w = .ok .freeCqt))

/-- `ID` reads its constant, `CAP` the parameter `LOG2_NMAX` in [4:0] and 0 above, `KBCAP` the
parameter `KBANK_CAP`; writes of them are ignored, and no step changes what they read (rules R21,
R22, R23). -/
def Obligations.IdentificationIsConstant : Prop :=
  (∀ s : State, readReg .id s = 0x46465443#32 ∧
    (readReg .cap s).toNat = s.cfg.log2NMax.toNat ∧ readReg .kbcap s = s.cfg.kbankCap) ∧
  (∀ (v : Word) (s : State), writeReg .id v s = s ∧ writeReg .cap v s = s ∧
    writeReg .kbcap v s = s) ∧
  (∀ s t : State, step s = .next t →
    readReg .cap t = readReg .cap s ∧ readReg .kbcap t = readReg .kbcap s)

/-! ## The register block -/

/-- The fields of `STATUS` (rule R25), and the numeric error codes (rule R241). -/
def Obligations.StatusFields : Prop :=
  (∀ s : State,
    (statusWord s).getLsbD 0 = (s.phase == .busy) ∧ (statusWord s).getLsbD 1 = s.done ∧
    (statusWord s).getLsbD 2 = s.ok ∧ (statusWord s).getLsbD 3 = false ∧
    (statusWord s).extractLsb' 4 4 = errCodeBits s.err ∧
    (statusWord s).getLsbD 8 = s.fftValid ∧ (statusWord s).getLsbD 9 = s.cqtValid ∧
    (statusWord s).extractLsb' 10 6 = 0#6 ∧ (statusWord s).extractLsb' 16 5 = s.fftLog2n ∧
    (statusWord s).extractLsb' 21 11 = 0#11) ∧
  errCodeBits .noError = 0#4 ∧ errCodeBits .invalidLength = 1#4 ∧
  errCodeBits .invalidParam = 2#4 ∧ errCodeBits .nullBuffer = 3#4 ∧ errCodeBits .allocFail = 4#4 ∧
  errCodeBits .uninit = 5#4 ∧ errCodeBits .bankTooSmall = 6#4 ∧
  errCodeBits .lengthMismatch = 7#4 ∧ errCodeBits .alreadyInit = 8#4 ∧
  errCodeBits .badPointer = 9#4 ∧ errCodeBits .busError = 10#4 ∧ errCodeBits .illegalCmd = 11#4

/-- The nine operand registers read back as written, at any time, and a write of one changes no
other register's reading (rules R32, R33, R43). -/
def Obligations.OperandRegistersReadBack : Prop :=
  ∀ (r : Reg) (v : Word) (s : State),
    r ∈ [Reg.ptrRe, .ptrIm, .ptrOre, .ptrOim, .argN, .argBpo, .argOct, .argSr, .argFmin] →
    readReg r (writeReg r v s) = v ∧ ∀ r', r' ≠ r → readReg r' (writeReg r v s) = readReg r' s

/-- `CTRL` keeps its two enables and reads 0 above (rule R26); a write of `IRQ` clears each pending
bit where it has a 1 and leaves the others (rule R27). -/
def Obligations.CtrlAndIrqWrites : Prop :=
  ∀ (v : Word) (s : State),
    readReg .ctrl (writeReg .ctrl v s) = v &&& 0x3#32 ∧
    readReg .irq (writeReg .irq v s) = readReg .irq s &&& ~~~v ∧
    readReg .irq (writeReg .ctrl v s) = readReg .irq s ∧
    readReg .ctrl (writeReg .irq v s) = readReg .ctrl s

/-- The interrupt output (rule R243) as a function of the words `IRQ` and `CTRL` read. -/
def Obligations.InterruptOutputFollowsEnabledPending : Prop :=
  ∀ s : State, irqLine s = true ↔ readReg .irq s &&& readReg .ctrl s ≠ 0#32

/-- The CSR port (rules R41, R42): an access with a strobe missing or off a multiple of 4 is answered
with an error and changes nothing; a reserved offset reads 0 without an error and ignores writes;
a read of a register returns its value and changes nothing. `CMD` reads 0 (rule R24), `CQT_BINS` and
`CQT_LEN` read the bank descriptor, 0 while there is no bank (rules R28, R29), and writes of `ID`,
`CAP`, `KBCAP`, `STATUS`, `CQT_BINS` and `CQT_LEN` are ignored (rules R21 to R23, R25, R28, R29).
The field `reply` (log entry 18) and its data 0 for every write (log entry 27) are the model's
choice. -/
def Obligations.CsrPortAccessRules : Prop :=
  (∀ (off : BitVec 8) (strobes : BitVec 4) (v : Word) (s : State),
    ((strobes ≠ 0xF#4 ∨ off.toNat % 4 ≠ 0) →
      csrAccess (.read off strobes) s = { s with reply := some ⟨0#32, true⟩ } ∧
      csrAccess (.write off strobes v) s = { s with reply := some ⟨0#32, true⟩ }) ∧
    (strobes = 0xF#4 → off.toNat % 4 = 0 → 0x48 ≤ off.toNat →
      csrAccess (.read off strobes) s = { s with reply := some ⟨0#32, false⟩ } ∧
      csrAccess (.write off strobes v) s = { s with reply := some ⟨0#32, false⟩ })) ∧
  (∀ (r : Reg) (s : State), csrAccess (.read (regOffset r) 0xF#4) s =
    { s with reply := some ⟨readReg r s, false⟩ }) ∧
  (∀ s : State, readReg .cmd s = 0#32 ∧ readReg .cqtBins s = s.cqtBins ∧
    readReg .cqtLen s = s.cqtLen ∧
    (Inv s → s.cqtValid = false → readReg .cqtBins s = 0#32 ∧ readReg .cqtLen s = 0#32)) ∧
  (∀ r ∈ [Reg.id, .cap, .kbcap, .status, .cqtBins, .cqtLen], ∀ (v : Word) (s : State),
    csrAccess (.write (regOffset r) 0xF#4 v) s = { s with reply := some ⟨0#32, false⟩ })

/-- A CSR access never changes engine state, the parameters or the draw counter, and one made while
a command runs changes neither the latch nor the phase nor the result flags (rules R43, R44). -/
def Obligations.CsrAccessKeepsTheRunningCommand : Prop :=
  ∀ (a : CsrAccess) (s : State),
    SameEngine s (csrAccess a s) ∧ (csrAccess a s).cfg = s.cfg ∧ (csrAccess a s).draws = s.draws ∧
    (s.phase = .busy → (csrAccess a s).latch = s.latch ∧ (csrAccess a s).phase = .busy ∧
      (csrAccess a s).done = s.done ∧ (csrAccess a s).ok = s.ok ∧ (csrAccess a s).err = s.err)

/-- A completion and a CSR access in one cycle (rules R27, R246): a write that clears `DONE_P` leaves
it set, and a `CMD` write is accepted. -/
def Obligations.SameCycleSetWinsAndAccepts : Prop :=
  ∀ (s t : State) (v : Word), s.rst = false → s.phase = .busy → coreTurn s = .next t →
    (∃ u, serve (.coreWithCsr (.write 0x18#8 0xF#4 v)) s = .next u ∧ u.doneP = true ∧
      u.phase = .idle) ∧
    (∃ u, serve (.coreWithCsr (.write 0x0C#8 0xF#4 v)) s = .next u ∧ u.phase = .busy ∧
      u.latch.w = v ∧ u.doneP = true ∧ u.ovrP = s.ovrP)

/-! ## Reset -/

/-- The release of reset (rules R46, R270): every state element with a stated value has it; the
parameters are constants. While `rst` is asserted CSR accesses are refused and the core does
nothing. -/
def Obligations.ResetReleaseGivesTheResetValues : Prop :=
  ∀ s : State, s.rst = true →
    (∃ t, serve .rstRelease s = .next t ∧ t.rst = false ∧ t.phase = .idle ∧ t.done = false ∧
      t.ok = false ∧ t.err = .noError ∧ t.fftValid = false ∧ t.fftLog2n = 0#5 ∧
      t.cqtValid = false ∧ t.cqtBins = 0#32 ∧ t.cqtLen = 0#32 ∧ readReg .ctrl t = 0#32 ∧
      readReg .irq t = 0#32 ∧ irqLine t = false ∧ readReg .status t = 0#32 ∧
      (∀ r ∈ [Reg.ptrRe, .ptrIm, .ptrOre, .ptrOim, .argN, .argBpo, .argOct, .argSr, .argFmin],
        readReg r t = 0#32) ∧ t.cfg = s.cfg ∧ (s.phase = .idle → t.mem = s.mem)) ∧
    (∀ a, serve (.csr a) s = .refused .csrDuringReset) ∧ serve .core s = .next s

/-- Reset during a command (rule R271): no completion, `DONE_P` not set for it, and memory outside
the command's written ranges unchanged; all of memory if an illegal word was latched, which has no
ranges (rule R97). -/
def Obligations.ResetAbandonsTheCommand : Prop :=
  ∀ s : State, s.rst = true → s.phase = .busy →
    ∃ t, serve .rstRelease s = .next t ∧ t.phase = .idle ∧ t.done = false ∧ t.doneP = false ∧
      (∀ i, decode s.latch.w = .ok i → SameMemoryOutside (writtenBuffers i s.latch) s t) ∧
      (∀ e, decode s.latch.w = .error e → t.mem = s.mem)

/-! ## Numerics -/

/-- `fneg` inverts bit 31 and no other bit, of every pattern (rule R115). -/
def Obligations.FnegInvertsTheSignBit : Prop :=
  ∀ (a : Word) (i : Nat), (fneg a).getLsbD i = if i = 31 then !a.getLsbD 31 else a.getLsbD i

/-- NaN results (rule R114): every operation with a NaN operand, and every invalid case of rule R112
(`∞ - ∞`, `0 · ∞`, `0 / 0`, `∞ / ∞`) and of rule R121 (`COS` and `SIN` of an infinity), gives a NaN,
whatever `MATH` is; every NaN pattern is some index of the draw and every index is a NaN. The index
is the model's form of a draw (log entry 8). -/
def Obligations.NanResultsAreFree : Prop :=
  (∀ (d : Draw) (a b : Word), isNaN a = true ∨ isNaN b = true →
    isNaN (fadd d a b) = true ∧ isNaN (fsub d a b) = true ∧ isNaN (fmul d a b) = true ∧
    isNaN (fdiv d a b) = true) ∧
  (∀ (d : Draw) (a b : Word), isInf a = true → isInf b = true →
    (signBit a ≠ signBit b → isNaN (fadd d a b) = true) ∧
    (signBit a = signBit b → isNaN (fsub d a b) = true) ∧ isNaN (fdiv d a b) = true) ∧
  (∀ (d : Draw) (a b : Word), isZero a = true → isInf b = true →
    isNaN (fmul d a b) = true ∧ isNaN (fmul d b a) = true) ∧
  (∀ (d : Draw) (a b : Word), isZero a = true → isZero b = true → isNaN (fdiv d a b) = true) ∧
  (∀ (M : Config.Math) (d : Draw) (a : Word),
    (isNaN a = true → isNaN (fceil d a) = true ∧ isNaN (fexp2 M d a) = true) ∧
    (isNaN a = true ∨ isInf a = true →
      isNaN (fcos M d a) = true ∧ isNaN (fsin M d a) = true)) ∧
  (∀ i < 16777214, isNaN (nanPattern i) = true) ∧
  (∀ w : Word, isNaN w = true → ∃ i < 16777214, nanPattern i = w)

/-- Rounding is to nearest, ties to even (rule R111): the magnitude `num/den` quanta, when it does not
overflow, becomes a finite value no farther from it than any other finite value, and one with an
even last bit if another is as near. -/
def Obligations.RoundingIsToNearestEven : Prop :=
  ∀ num den : Nat, 0 < den → roundMag num den < infBits →
    ∀ w : Word, isFinite w = true →
      ((quanta (packMag false (roundMag num den)) * den : Nat) - (num : Int)).natAbs ≤
          ((quanta w * den : Nat) - (num : Int)).natAbs ∧
      (((quanta (packMag false (roundMag num den)) * den : Nat) - (num : Int)).natAbs =
          ((quanta w * den : Nat) - (num : Int)).natAbs →
        quanta w ≠ quanta (packMag false (roundMag num den)) → roundMag num den % 2 = 0)

/-- A value that is already binary32 rounds to itself (rule R111): packing, unpacking and rounding
agree on every finite word. -/
def Obligations.RoundingIsExactOnBinary32 : Prop :=
  ∀ (w : Word) (den : Nat), isFinite w = true → 0 < den →
    packMag (signBit w) (roundMag (quanta w * den) den) = w

/-- The edges of rule R112: overflow of a rounded magnitude, from the midpoint past the largest finite
value up; an exact zero sum is `+0` unless both terms are `-0`; `x - x` is `+0` and `-0 - (+0)` is
`-0`; an infinity absorbs a finite term; the sign of a product or quotient is the exclusive or of the
signs; a finite value over an infinity is a zero, and `x / 0` an infinity. -/
def Obligations.ZeroAndInfinityEdges : Prop :=
  (∀ num den : Nat, 0 < den →
    (roundMag num den = infBits ↔ (2 ^ 25 - 1) * 2 ^ 252 * den ≤ num)) ∧
  (∀ (d : Draw) (a b : Word), isFinite a = true → isFinite b = true →
    signedQuanta a + signedQuanta b = 0 →
    fadd d a b = if a = 0x80000000#32 ∧ b = 0x80000000#32 then 0x80000000#32 else 0x00000000#32) ∧
  (∀ (d : Draw) (x : Word), isFinite x = true → fsub d x x = 0#32) ∧
  (∀ d : Draw, fsub d 0x80000000#32 0x00000000#32 = 0x80000000#32) ∧
  (∀ (d : Draw) (x y : Word), isFinite x = true → isInf y = true →
    fadd d x y = y ∧ fadd d y x = y ∧ fdiv d x y = zeroOf (signBit x != signBit y) ∧
    fdiv d y x = infOf (signBit x != signBit y)) ∧
  (∀ (d : Draw) (x y : Word),
    (isNaN (fmul d x y) = false → signBit (fmul d x y) = (signBit x != signBit y)) ∧
    (isNaN (fdiv d x y) = false → signBit (fdiv d x y) = (signBit x != signBit y))) ∧
  (∀ (d : Draw) (x z : Word), isFinite x = true → isZero x = false → isZero z = true →
    fdiv d x z = infOf (signBit x != signBit z))

/-- Scaling by `1/n` has one meaning (rule R123): multiplying by `INV(m)` is dividing by `n = 2^m`,
for every operand that is not a NaN; zeros and infinities are kept. -/
def Obligations.ScalingIsDivision : Prop :=
  ∀ (d d' : Draw) (x : Word) (m : Nat), m ≤ 24 → isNaN x = false →
    fmul d x (invPow2 m) = fdiv d' x (i2f (2 ^ m)) ∧
    (isZero x = true ∨ isInf x = true → fmul d x (invPow2 m) = x)

/-- `fceil` (rule R117): for a finite operand the least integral value not less than it, exact, with
the operand's sign (so `-0` on `(-1, 0)`); zeros and infinities are returned unchanged. -/
def Obligations.CeilIsTheLeastIntegralAbove : Prop :=
  ∀ (d : Draw) (a : Word),
    (isFinite a = true →
      isFinite (fceil d a) = true ∧ signedQuanta (fceil d a) % 2 ^ 149 = 0 ∧
      signedQuanta a ≤ signedQuanta (fceil d a) ∧
      signedQuanta (fceil d a) < signedQuanta a + 2 ^ 149 ∧ signBit (fceil d a) = signBit a) ∧
    (isZero a = true ∨ isInf a = true → fceil d a = a)

/-- The comparisons compare values, `+0` and `-0` being equal and each infinity beyond every finite
value, and are false on a NaN (rule R116). -/
def Obligations.ComparisonsAreByValue : Prop :=
  (∀ a b : Word, isNaN a = false → isNaN b = false →
    (fgt a b = true ↔ extendedQuanta b < extendedQuanta a) ∧
    (fge a b = true ↔ extendedQuanta b ≤ extendedQuanta a) ∧
    (flt a b = true ↔ extendedQuanta a < extendedQuanta b)) ∧
  (∀ a b : Word, isNaN a = true ∨ isNaN b = true →
    fgt a b = false ∧ fge a b = false ∧ flt a b = false)

/-- The reference `MATH` (rule R121): `|COS(a)| ≤ 1` and `|SIN(a)| ≤ 1` for every finite operand,
`EXP2(i2f(e)) = 2^e` exactly for every integer `e` from -149 to 127, and the special operands
`SIN(±0) = ±0`, `COS(±0) = EXP2(±0) = 1`, `EXP2(+∞) = +∞`, `EXP2(-∞) = +0`. The evaluation of the
reference is the model's choice (log entry 11). -/
def Obligations.ReferenceMathBounds : Prop :=
  (∀ a : Word, isFinite a = true →
    (isFinite (cosRef a) = true ∧ quanta (cosRef a) ≤ 2 ^ 149) ∧
    (isFinite (sinRef a) = true ∧ quanta (sinRef a) ≤ 2 ^ 149)) ∧
  (∀ e : Int, -149 ≤ e → e ≤ 127 →
    signBit (exp2Ref (i2f e)) = false ∧ quanta (exp2Ref (i2f e)) = 2 ^ (e + 149).toNat) ∧
  (∀ (d : Draw) (z : Word), isZero z = true →
    fsin mathReference d z = z ∧ fcos mathReference d z = oneF ∧ fexp2 mathReference d z = oneF) ∧
  (∀ (M : Config.Math) (d : Draw), fexp2 M d 0x7F800000#32 = 0x7F800000#32 ∧
    fexp2 M d 0xFF800000#32 = 0x00000000#32)

/-! ## Host accesses at data addresses that are not ordinary memory -/

/-- The register block at `CSR_BASE` in the host's address map (rules R8, R41, R60): a host word load
or store inside it, outside a running command's ranges, is the CSR access at that offset, and a byte
load or store is one of another size, answered with an error and no effect. A host access inside a
device window goes on (rule R283 H10) and changes nothing of memory, of the engines or of what the
registers read. Host accesses by data address and what a device answers are the model's choice (log
entries 18 and 28). -/
def Obligations.HostReachesTheRegisterBlock : Prop :=
  (∀ (s : State) (base : Word) (off : BitVec 8) (a v : Word) (b : Byte),
    s.plat.csrBase = some base → a.toNat = base.toNat + off.toNat → s.rst = false →
    s.phase = .idle →
    (off.toNat + 4 ≤ 256 → a.toNat + 4 ≤ 2 ^ 32 →
      serve (.memRead a) s = .next (csrAccess (.read off 0xF#4) s) ∧
      serve (.memWrite a v) s = .next (csrAccess (.write off 0xF#4 v) s)) ∧
    serve (.memReadByte a) s = .next { s with reply := some ⟨0#32, true⟩ } ∧
    serve (.memWriteByte a b) s = .next { s with reply := some ⟨0#32, true⟩ }) ∧
  (∀ (s : State) (a v : Word), s.phase = .idle → s.plat.csrBase = none → a.toNat + 4 ≤ 2 ^ 32 →
    (∀ k < 4, s.plat.isDevice (a.toNat + k) = true) →
    ∃ t u, serve (.memWrite a v) s = .next t ∧ serve (.memRead a) s = .next u ∧
      ∀ w : State, w = t ∨ w = u → w.mem = s.mem ∧ SameEngine s w ∧ w.phase = s.phase ∧
        w.latch = s.latch ∧ irqLine w = irqLine s ∧ ∀ r : Reg, readReg r w = readReg r s)
end

