-- ==== Sys2Proof/Laws/Memory.lean ====
section
/-! SUPPORT. Host memory: every operation keeps the canonical form, and what a read gives after a write. -/

namespace Sys2Proof.Machine

theorem wfFrom_cons {lo a : Nat} {b : Byte} {t : Memory} :
    Memory.wfFrom lo ((a, b) :: t) = true ↔
      lo ≤ a ∧ a < addressSpace ∧ b ≠ unlistedByte ∧ Memory.wfFrom (a + 1) t = true := by
  simp [Memory.wfFrom, and_assoc]

theorem wfFrom_mono {lo lo' : Nat} {m : Memory} (h : lo' ≤ lo) (hm : Memory.wfFrom lo m = true) :
    Memory.wfFrom lo' m = true := by
  cases m with
  | nil => rfl
  | cons c t =>
    obtain ⟨a, b⟩ := c
    rw [wfFrom_cons] at hm ⊢
    exact ⟨by omega, hm.2⟩

theorem readByte_below {lo c : Nat} {m : Memory} (hm : Memory.wfFrom lo m = true) (h : c < lo) :
    Memory.readByte m c = unlistedByte := by
  induction m generalizing lo with
  | nil => rfl
  | cons x t ih =>
    obtain ⟨a, b⟩ := x
    rw [wfFrom_cons] at hm
    have hne : a ≠ c := by omega
    simpa [Memory.readByte, hne] using ih hm.2.2.2 (by omega)

theorem consByte_wfFrom {lo a : Nat} {b : Byte} {m : Memory} (hlo : lo ≤ a) (ha : a < addressSpace)
    (hm : Memory.wfFrom (a + 1) m = true) : Memory.wfFrom lo (Memory.consByte a b m) = true := by
  unfold Memory.consByte
  split
  · exact wfFrom_mono (by omega) hm
  · exact wfFrom_cons.2 ⟨hlo, ha, ‹_›, hm⟩

theorem writeByte_wfFrom {lo a : Nat} {b : Byte} {m : Memory} (hm : Memory.wfFrom lo m = true)
    (hlo : lo ≤ a) (ha : a < addressSpace) : Memory.wfFrom lo (Memory.writeByte m a b) = true := by
  induction m generalizing lo with
  | nil => exact consByte_wfFrom hlo ha rfl
  | cons x t ih =>
    obtain ⟨k, v⟩ := x
    have hk := wfFrom_cons.1 hm
    unfold Memory.writeByte
    split
    · exact consByte_wfFrom hlo ha (wfFrom_cons.2 ⟨by omega, hk.2⟩)
    · split
      · subst a
        exact consByte_wfFrom hlo ha hk.2.2.2
      · exact wfFrom_cons.2 ⟨hk.1, hk.2.1, hk.2.2.1, ih hk.2.2.2 (by omega)⟩

/-- Writing a byte of the address space keeps the canonical form. -/
theorem writeByte_wf {a : Nat} {b : Byte} {m : Memory} (hm : Memory.wf m = true)
    (ha : a < addressSpace) : Memory.wf (Memory.writeByte m a b) = true :=
  writeByte_wfFrom hm (Nat.zero_le a) ha

theorem readByte_consByte_same {a : Nat} {b : Byte} {m : Memory}
    (hm : Memory.wfFrom (a + 1) m = true) : Memory.readByte (Memory.consByte a b m) a = b := by
  unfold Memory.consByte
  split
  · rw [readByte_below hm (by omega)]
    exact Eq.symm ‹_›
  · simp [Memory.readByte]

/-- A byte reads back as written. -/
theorem readByte_writeByte_same {lo a : Nat} {b : Byte} {m : Memory}
    (hm : Memory.wfFrom lo m = true) : Memory.readByte (Memory.writeByte m a b) a = b := by
  induction m generalizing lo with
  | nil => exact readByte_consByte_same rfl
  | cons x t ih =>
    obtain ⟨k, v⟩ := x
    have hk := wfFrom_cons.1 hm
    unfold Memory.writeByte
    split
    · exact readByte_consByte_same (wfFrom_cons.2 ⟨by omega, hk.2⟩)
    · split
      · subst a
        exact readByte_consByte_same hk.2.2.2
      · have hne : ¬k = a := fun h => by omega
        simpa [Memory.readByte, hne] using ih hk.2.2.2

theorem readByte_consByte_other {a c : Nat} {b : Byte} {m : Memory} (h : c ≠ a) :
    Memory.readByte (Memory.consByte a b m) c = Memory.readByte m c := by
  unfold Memory.consByte
  split
  · rfl
  · simp [Memory.readByte, Ne.symm h]

/-- A byte write leaves every other byte alone. -/
theorem readByte_writeByte_other {a c : Nat} {b : Byte} {m : Memory} (h : c ≠ a) :
    Memory.readByte (Memory.writeByte m a b) c = Memory.readByte m c := by
  induction m with
  | nil => exact readByte_consByte_other h
  | cons x t ih =>
    obtain ⟨k, v⟩ := x
    unfold Memory.writeByte
    split
    · exact readByte_consByte_other h
    · split
      · subst a
        rw [readByte_consByte_other h]
        simp [Memory.readByte, Ne.symm h]
      · simp only [Memory.readByte, ih]

/-- Two canonical memories that read alike everywhere are equal data. -/
theorem memory_ext {lo : Nat} {m m' : Memory} (hm : Memory.wfFrom lo m = true)
    (hm' : Memory.wfFrom lo m' = true) (h : ∀ a, Memory.readByte m a = Memory.readByte m' a) :
    m = m' := by
  induction m generalizing lo m' with
  | nil =>
    cases m' with
    | nil => rfl
    | cons x t =>
      obtain ⟨k, v⟩ := x
      have hk := wfFrom_cons.1 hm'
      exact absurd (by simpa [Memory.readByte] using (h k).symm) hk.2.2.1
  | cons x t ih =>
    obtain ⟨k, v⟩ := x
    have hk := wfFrom_cons.1 hm
    cases m' with
    | nil => exact absurd (by simpa [Memory.readByte] using h k) hk.2.2.1
    | cons x' t' =>
      obtain ⟨k', v'⟩ := x'
      have hk' := wfFrom_cons.1 hm'
      have hkk : k = k' := by
        rcases Nat.lt_trichotomy k k' with hlt | heq | hgt
        · have h1 := h k
          rw [readByte_below (wfFrom_cons.2 ⟨Nat.le_refl k', hk'.2⟩) hlt] at h1
          exact absurd (by simpa [Memory.readByte] using h1) hk.2.2.1
        · exact heq
        · have h1 := h k'
          rw [readByte_below (wfFrom_cons.2 ⟨Nat.le_refl k, hk.2⟩) hgt] at h1
          exact absurd (by simpa [Memory.readByte] using h1.symm) hk'.2.2.1
      subst hkk
      have hv : v = v' := by simpa [Memory.readByte] using h k
      subst hv
      congr 1
      refine ih hk.2.2.2 hk'.2.2.2 (fun a => ?_)
      by_cases hak : k = a
      · subst hak
        rw [readByte_below hk.2.2.2 (by omega), readByte_below hk'.2.2.2 (by omega)]
      · simpa [Memory.readByte, hak] using h a

/-! ## Words -/

theorem writeWord_wf {a : Nat} {v : Word} {m : Memory} (hm : Memory.wf m = true)
    (ha : a + 4 ≤ addressSpace) : Memory.wf (Memory.writeWord m a v) = true := by
  unfold Memory.writeWord
  refine writeByte_wf (writeByte_wf (writeByte_wf (writeByte_wf hm ?_) ?_) ?_) ?_ <;> omega

/-- A word write leaves every byte outside its four alone. -/
theorem readByte_writeWord_other {a c : Nat} {v : Word} {m : Memory} (h : c < a ∨ a + 4 ≤ c) :
    Memory.readByte (Memory.writeWord m a v) c = Memory.readByte m c := by
  unfold Memory.writeWord
  rw [readByte_writeByte_other (by omega), readByte_writeByte_other (by omega),
    readByte_writeByte_other (by omega), readByte_writeByte_other (by omega)]

theorem readWord_writeWord_other {a c : Nat} {v : Word} {m : Memory}
    (h : c + 4 ≤ a ∨ a + 4 ≤ c) :
    Memory.readWord (Memory.writeWord m a v) c = Memory.readWord m c := by
  unfold Memory.readWord
  rw [readByte_writeWord_other (by omega), readByte_writeWord_other (by omega),
    readByte_writeWord_other (by omega), readByte_writeWord_other (by omega)]

theorem bytes_append (v : Word) :
    v.extractLsb' 24 8 ++ v.extractLsb' 16 8 ++ v.extractLsb' 8 8 ++ v.extractLsb' 0 8 = v := by
  ext i hi
  simp only [BitVec.getElem_append, BitVec.getElem_extractLsb']
  split
  · simp [BitVec.getLsbD_eq_getElem hi]
  · split
    · simp only [show 8 + (i - 8) = i by omega, BitVec.getLsbD_eq_getElem hi]
    · split
      · simp only [show 16 + (i - 8 - 8) = i by omega, BitVec.getLsbD_eq_getElem hi]
      · simp only [show 24 + (i - 8 - 8 - 8) = i by omega, BitVec.getLsbD_eq_getElem hi]

/-- A word reads back as written. -/
theorem readWord_writeWord_same {a : Nat} {v : Word} {m : Memory} (hm : Memory.wf m = true)
    (ha : a + 4 ≤ addressSpace) : Memory.readWord (Memory.writeWord m a v) a = v := by
  have h0 := writeByte_wf (b := v.extractLsb' 0 8) hm (a := a) (by omega)
  have h1 := writeByte_wf (b := v.extractLsb' 8 8) h0 (a := a + 1) (by omega)
  have h2 := writeByte_wf (b := v.extractLsb' 16 8) h1 (a := a + 2) (by omega)
  unfold Memory.readWord Memory.writeWord
  rw [readByte_writeByte_same h2,
    readByte_writeByte_other (a := a + 3) (by omega), readByte_writeByte_same h1,
    readByte_writeByte_other (a := a + 3) (by omega),
    readByte_writeByte_other (a := a + 2) (by omega), readByte_writeByte_same h0,
    readByte_writeByte_other (a := a + 3) (by omega),
    readByte_writeByte_other (a := a + 2) (by omega),
    readByte_writeByte_other (a := a + 1) (by omega), readByte_writeByte_same hm]
  exact bytes_append v

/-! ## Rows of words -/

theorem writeWords_wf {vs : List Word} {a : Nat} {m : Memory} (hm : Memory.wf m = true)
    (ha : a + 4 * vs.length ≤ addressSpace) : Memory.wf (Memory.writeWords m a vs) = true := by
  induction vs generalizing a m with
  | nil => exact hm
  | cons v vs ih =>
    simp only [List.length_cons] at ha
    exact ih (writeWord_wf hm (by omega)) (by omega)

/-- Writing a row of words leaves every byte outside it alone. -/
theorem readByte_writeWords_other {vs : List Word} {a c : Nat} {m : Memory}
    (h : c < a ∨ a + 4 * vs.length ≤ c) :
    Memory.readByte (Memory.writeWords m a vs) c = Memory.readByte m c := by
  induction vs generalizing a m with
  | nil => rfl
  | cons v vs ih =>
    simp only [List.length_cons] at h
    rw [Memory.writeWords, ih (by omega), readByte_writeWord_other (by omega)]

theorem readWord_writeWords_other {vs : List Word} {a c : Nat} {m : Memory}
    (h : c + 4 ≤ a ∨ a + 4 * vs.length ≤ c) :
    Memory.readWord (Memory.writeWords m a vs) c = Memory.readWord m c := by
  unfold Memory.readWord
  rw [readByte_writeWords_other (by omega), readByte_writeWords_other (by omega),
    readByte_writeWords_other (by omega), readByte_writeWords_other (by omega)]

/-- Word `i` of a row reads back as written. -/
theorem readWord_writeWords_same {vs : List Word} {a i : Nat} {m : Memory}
    (hm : Memory.wf m = true) (ha : a + 4 * vs.length ≤ addressSpace) (hi : i < vs.length) :
    Memory.readWord (Memory.writeWords m a vs) (a + 4 * i) = vs[i] := by
  induction vs generalizing a i m with
  | nil => exact absurd hi (Nat.not_lt_zero i)
  | cons v vs ih =>
    simp only [List.length_cons] at ha hi
    cases i with
    | zero =>
      have h0 : Memory.readWord (Memory.writeWord m a v) a = v :=
        readWord_writeWord_same hm (by omega)
      simpa [Memory.writeWords, readWord_writeWords_other] using h0
    | succ i =>
      have h := ih (m := Memory.writeWord m a v) (a := a + 4) (i := i)
        (writeWord_wf hm (by omega)) (by omega) (by omega)
      simpa [Memory.writeWords, show a + 4 * (i + 1) = a + 4 + 4 * i by omega] using h

theorem readBuffer_length (m : Memory) (p : Word) (n : Nat) :
    (Memory.readBuffer m p n).length = n := by
  simp [Memory.readBuffer]

theorem readBuffer_getElem (m : Memory) (p : Word) (n i : Nat)
    (h : i < (Memory.readBuffer m p n).length) :
    (Memory.readBuffer m p n)[i] = Memory.readWord m (elementAddress p i) := by
  simp [Memory.readBuffer]

end Sys2Proof.Machine
end

