-- ==== Sys2Proof/Laws/State.lean ====
section
/-! SUPPORT. One lemma per field of the state and update of it. -/

namespace Sys2Proof.Machine

@[simp] theorem succeed_eq (s : State) : succeed s = complete .noError s := rfl

@[simp] theorem fail_eq (e : ErrCode) (s : State) : fail e s = complete e s := rfl

@[simp] theorem illegalCommand_eq (s : State) : illegalCommand s = complete .illegalCmd s := rfl

@[simp] theorem drawRoot_eq (s : State) : drawRoot s = [s.draws] := rfl

/-! The completion actions, field by field (rule R245). -/

@[simp] theorem complete_cfg (e : ErrCode) (s : State) : (complete e s).cfg = s.cfg := rfl
@[simp] theorem complete_plat (e : ErrCode) (s : State) : (complete e s).plat = s.plat := rfl
@[simp] theorem complete_rst (e : ErrCode) (s : State) : (complete e s).rst = s.rst := rfl
@[simp] theorem complete_phase (e : ErrCode) (s : State) : (complete e s).phase = .idle := rfl
@[simp] theorem complete_done (e : ErrCode) (s : State) : (complete e s).done = true := rfl
@[simp] theorem complete_ok (e : ErrCode) (s : State) : (complete e s).ok = (e == .noError) := rfl
@[simp] theorem complete_err (e : ErrCode) (s : State) : (complete e s).err = e := rfl
@[simp] theorem complete_ieDone (e : ErrCode) (s : State) : (complete e s).ieDone = s.ieDone := rfl
@[simp] theorem complete_ieOvr (e : ErrCode) (s : State) : (complete e s).ieOvr = s.ieOvr := rfl
@[simp] theorem complete_doneP (e : ErrCode) (s : State) : (complete e s).doneP = true := rfl
@[simp] theorem complete_ovrP (e : ErrCode) (s : State) : (complete e s).ovrP = s.ovrP := rfl
@[simp] theorem complete_ptrRe (e : ErrCode) (s : State) : (complete e s).ptrRe = s.ptrRe := rfl
@[simp] theorem complete_ptrIm (e : ErrCode) (s : State) : (complete e s).ptrIm = s.ptrIm := rfl
@[simp] theorem complete_ptrOre (e : ErrCode) (s : State) : (complete e s).ptrOre = s.ptrOre := rfl
@[simp] theorem complete_ptrOim (e : ErrCode) (s : State) : (complete e s).ptrOim = s.ptrOim := rfl
@[simp] theorem complete_argN (e : ErrCode) (s : State) : (complete e s).argN = s.argN := rfl
@[simp] theorem complete_argBpo (e : ErrCode) (s : State) : (complete e s).argBpo = s.argBpo := rfl
@[simp] theorem complete_argOct (e : ErrCode) (s : State) : (complete e s).argOct = s.argOct := rfl
@[simp] theorem complete_argSr (e : ErrCode) (s : State) : (complete e s).argSr = s.argSr := rfl
@[simp] theorem complete_argFmin (e : ErrCode) (s : State) : (complete e s).argFmin = s.argFmin := rfl
@[simp] theorem complete_latch (e : ErrCode) (s : State) : (complete e s).latch = latchUnspecified (0 :: drawRoot s) := rfl
@[simp] theorem complete_fftValid (e : ErrCode) (s : State) : (complete e s).fftValid = s.fftValid := rfl
@[simp] theorem complete_fftLog2n (e : ErrCode) (s : State) : (complete e s).fftLog2n = s.fftLog2n := rfl
@[simp] theorem complete_bitrev (e : ErrCode) (s : State) : (complete e s).bitrev = s.bitrev := rfl
@[simp] theorem complete_cqtValid (e : ErrCode) (s : State) : (complete e s).cqtValid = s.cqtValid := rfl
@[simp] theorem complete_cqtBins (e : ErrCode) (s : State) : (complete e s).cqtBins = s.cqtBins := rfl
@[simp] theorem complete_cqtLen (e : ErrCode) (s : State) : (complete e s).cqtLen = s.cqtLen := rfl
@[simp] theorem complete_kbank (e : ErrCode) (s : State) : (complete e s).kbank = s.kbank := rfl
@[simp] theorem complete_scr (e : ErrCode) (s : State) : (complete e s).scr = s.scr := rfl
@[simp] theorem complete_mem (e : ErrCode) (s : State) : (complete e s).mem = s.mem := rfl
@[simp] theorem complete_inputs (e : ErrCode) (s : State) : (complete e s).inputs = s.inputs := rfl
@[simp] theorem complete_reply (e : ErrCode) (s : State) : (complete e s).reply = s.reply := rfl
@[simp] theorem complete_draws (e : ErrCode) (s : State) : (complete e s).draws = s.draws + 1 := rfl

/-! Building the FFT context, field by field (rule R145). -/

@[simp] theorem buildFft_cfg (n : Nat) (s : State) : (buildFft n s).cfg = s.cfg := rfl
@[simp] theorem buildFft_plat (n : Nat) (s : State) : (buildFft n s).plat = s.plat := rfl
@[simp] theorem buildFft_rst (n : Nat) (s : State) : (buildFft n s).rst = s.rst := rfl
@[simp] theorem buildFft_phase (n : Nat) (s : State) : (buildFft n s).phase = s.phase := rfl
@[simp] theorem buildFft_done (n : Nat) (s : State) : (buildFft n s).done = s.done := rfl
@[simp] theorem buildFft_ok (n : Nat) (s : State) : (buildFft n s).ok = s.ok := rfl
@[simp] theorem buildFft_err (n : Nat) (s : State) : (buildFft n s).err = s.err := rfl
@[simp] theorem buildFft_ieDone (n : Nat) (s : State) : (buildFft n s).ieDone = s.ieDone := rfl
@[simp] theorem buildFft_ieOvr (n : Nat) (s : State) : (buildFft n s).ieOvr = s.ieOvr := rfl
@[simp] theorem buildFft_doneP (n : Nat) (s : State) : (buildFft n s).doneP = s.doneP := rfl
@[simp] theorem buildFft_ovrP (n : Nat) (s : State) : (buildFft n s).ovrP = s.ovrP := rfl
@[simp] theorem buildFft_ptrRe (n : Nat) (s : State) : (buildFft n s).ptrRe = s.ptrRe := rfl
@[simp] theorem buildFft_ptrIm (n : Nat) (s : State) : (buildFft n s).ptrIm = s.ptrIm := rfl
@[simp] theorem buildFft_ptrOre (n : Nat) (s : State) : (buildFft n s).ptrOre = s.ptrOre := rfl
@[simp] theorem buildFft_ptrOim (n : Nat) (s : State) : (buildFft n s).ptrOim = s.ptrOim := rfl
@[simp] theorem buildFft_argN (n : Nat) (s : State) : (buildFft n s).argN = s.argN := rfl
@[simp] theorem buildFft_argBpo (n : Nat) (s : State) : (buildFft n s).argBpo = s.argBpo := rfl
@[simp] theorem buildFft_argOct (n : Nat) (s : State) : (buildFft n s).argOct = s.argOct := rfl
@[simp] theorem buildFft_argSr (n : Nat) (s : State) : (buildFft n s).argSr = s.argSr := rfl
@[simp] theorem buildFft_argFmin (n : Nat) (s : State) : (buildFft n s).argFmin = s.argFmin := rfl
@[simp] theorem buildFft_latch (n : Nat) (s : State) : (buildFft n s).latch = s.latch := rfl
@[simp] theorem buildFft_fftValid (n : Nat) (s : State) : (buildFft n s).fftValid = true := rfl
@[simp] theorem buildFft_fftLog2n (n : Nat) (s : State) : (buildFft n s).fftLog2n = BitVec.ofNat 5 (Nat.log2 n) := rfl
@[simp] theorem buildFft_bitrev (n : Nat) (s : State) : (buildFft n s).bitrev = bitrevGen n := rfl
@[simp] theorem buildFft_cqtValid (n : Nat) (s : State) : (buildFft n s).cqtValid = s.cqtValid := rfl
@[simp] theorem buildFft_cqtBins (n : Nat) (s : State) : (buildFft n s).cqtBins = s.cqtBins := rfl
@[simp] theorem buildFft_cqtLen (n : Nat) (s : State) : (buildFft n s).cqtLen = s.cqtLen := rfl
@[simp] theorem buildFft_kbank (n : Nat) (s : State) : (buildFft n s).kbank = s.kbank := rfl
@[simp] theorem buildFft_scr (n : Nat) (s : State) : (buildFft n s).scr = s.scr := rfl
@[simp] theorem buildFft_mem (n : Nat) (s : State) : (buildFft n s).mem = s.mem := rfl
@[simp] theorem buildFft_inputs (n : Nat) (s : State) : (buildFft n s).inputs = s.inputs := rfl
@[simp] theorem buildFft_reply (n : Nat) (s : State) : (buildFft n s).reply = s.reply := rfl
@[simp] theorem buildFft_draws (n : Nat) (s : State) : (buildFft n s).draws = s.draws := rfl

/-! Freeing the FFT context, field by field (rule R180). -/

@[simp] theorem freeFft_cfg (s : State) : (freeFft s).cfg = s.cfg := rfl
@[simp] theorem freeFft_plat (s : State) : (freeFft s).plat = s.plat := rfl
@[simp] theorem freeFft_rst (s : State) : (freeFft s).rst = s.rst := rfl
@[simp] theorem freeFft_phase (s : State) : (freeFft s).phase = s.phase := rfl
@[simp] theorem freeFft_done (s : State) : (freeFft s).done = s.done := rfl
@[simp] theorem freeFft_ok (s : State) : (freeFft s).ok = s.ok := rfl
@[simp] theorem freeFft_err (s : State) : (freeFft s).err = s.err := rfl
@[simp] theorem freeFft_ieDone (s : State) : (freeFft s).ieDone = s.ieDone := rfl
@[simp] theorem freeFft_ieOvr (s : State) : (freeFft s).ieOvr = s.ieOvr := rfl
@[simp] theorem freeFft_doneP (s : State) : (freeFft s).doneP = s.doneP := rfl
@[simp] theorem freeFft_ovrP (s : State) : (freeFft s).ovrP = s.ovrP := rfl
@[simp] theorem freeFft_ptrRe (s : State) : (freeFft s).ptrRe = s.ptrRe := rfl
@[simp] theorem freeFft_ptrIm (s : State) : (freeFft s).ptrIm = s.ptrIm := rfl
@[simp] theorem freeFft_ptrOre (s : State) : (freeFft s).ptrOre = s.ptrOre := rfl
@[simp] theorem freeFft_ptrOim (s : State) : (freeFft s).ptrOim = s.ptrOim := rfl
@[simp] theorem freeFft_argN (s : State) : (freeFft s).argN = s.argN := rfl
@[simp] theorem freeFft_argBpo (s : State) : (freeFft s).argBpo = s.argBpo := rfl
@[simp] theorem freeFft_argOct (s : State) : (freeFft s).argOct = s.argOct := rfl
@[simp] theorem freeFft_argSr (s : State) : (freeFft s).argSr = s.argSr := rfl
@[simp] theorem freeFft_argFmin (s : State) : (freeFft s).argFmin = s.argFmin := rfl
@[simp] theorem freeFft_latch (s : State) : (freeFft s).latch = s.latch := rfl
@[simp] theorem freeFft_fftValid (s : State) : (freeFft s).fftValid = false := rfl
@[simp] theorem freeFft_fftLog2n (s : State) : (freeFft s).fftLog2n = 0#5 := rfl
@[simp] theorem freeFft_bitrev (s : State) : (freeFft s).bitrev = [] := rfl
@[simp] theorem freeFft_cqtValid (s : State) : (freeFft s).cqtValid = s.cqtValid := rfl
@[simp] theorem freeFft_cqtBins (s : State) : (freeFft s).cqtBins = s.cqtBins := rfl
@[simp] theorem freeFft_cqtLen (s : State) : (freeFft s).cqtLen = s.cqtLen := rfl
@[simp] theorem freeFft_kbank (s : State) : (freeFft s).kbank = s.kbank := rfl
@[simp] theorem freeFft_scr (s : State) : (freeFft s).scr = s.scr := rfl
@[simp] theorem freeFft_mem (s : State) : (freeFft s).mem = s.mem := rfl
@[simp] theorem freeFft_inputs (s : State) : (freeFft s).inputs = s.inputs := rfl
@[simp] theorem freeFft_reply (s : State) : (freeFft s).reply = s.reply := rfl
@[simp] theorem freeFft_draws (s : State) : (freeFft s).draws = s.draws := rfl

/-! Building the kernel bank, field by field (rule R195). -/

@[simp] theorem buildCqt_cfg (s : State) : (buildCqt s).cfg = s.cfg := rfl
@[simp] theorem buildCqt_plat (s : State) : (buildCqt s).plat = s.plat := rfl
@[simp] theorem buildCqt_rst (s : State) : (buildCqt s).rst = s.rst := rfl
@[simp] theorem buildCqt_phase (s : State) : (buildCqt s).phase = s.phase := rfl
@[simp] theorem buildCqt_done (s : State) : (buildCqt s).done = s.done := rfl
@[simp] theorem buildCqt_ok (s : State) : (buildCqt s).ok = s.ok := rfl
@[simp] theorem buildCqt_err (s : State) : (buildCqt s).err = s.err := rfl
@[simp] theorem buildCqt_ieDone (s : State) : (buildCqt s).ieDone = s.ieDone := rfl
@[simp] theorem buildCqt_ieOvr (s : State) : (buildCqt s).ieOvr = s.ieOvr := rfl
@[simp] theorem buildCqt_doneP (s : State) : (buildCqt s).doneP = s.doneP := rfl
@[simp] theorem buildCqt_ovrP (s : State) : (buildCqt s).ovrP = s.ovrP := rfl
@[simp] theorem buildCqt_ptrRe (s : State) : (buildCqt s).ptrRe = s.ptrRe := rfl
@[simp] theorem buildCqt_ptrIm (s : State) : (buildCqt s).ptrIm = s.ptrIm := rfl
@[simp] theorem buildCqt_ptrOre (s : State) : (buildCqt s).ptrOre = s.ptrOre := rfl
@[simp] theorem buildCqt_ptrOim (s : State) : (buildCqt s).ptrOim = s.ptrOim := rfl
@[simp] theorem buildCqt_argN (s : State) : (buildCqt s).argN = s.argN := rfl
@[simp] theorem buildCqt_argBpo (s : State) : (buildCqt s).argBpo = s.argBpo := rfl
@[simp] theorem buildCqt_argOct (s : State) : (buildCqt s).argOct = s.argOct := rfl
@[simp] theorem buildCqt_argSr (s : State) : (buildCqt s).argSr = s.argSr := rfl
@[simp] theorem buildCqt_argFmin (s : State) : (buildCqt s).argFmin = s.argFmin := rfl
@[simp] theorem buildCqt_latch (s : State) : (buildCqt s).latch = s.latch := rfl
@[simp] theorem buildCqt_fftValid (s : State) : (buildCqt s).fftValid = s.fftValid := rfl
@[simp] theorem buildCqt_fftLog2n (s : State) : (buildCqt s).fftLog2n = s.fftLog2n := rfl
@[simp] theorem buildCqt_bitrev (s : State) : (buildCqt s).bitrev = s.bitrev := rfl
@[simp] theorem buildCqt_cqtValid (s : State) : (buildCqt s).cqtValid = true := rfl
@[simp] theorem buildCqt_cqtBins (s : State) : (buildCqt s).cqtBins = BitVec.ofNat 32 (binsLen s.latch) := rfl
@[simp] theorem buildCqt_cqtLen (s : State) : (buildCqt s).cqtLen = BitVec.ofNat 32 (nLen s.latch) := rfl
@[simp] theorem buildCqt_kbank (s : State) : (buildCqt s).kbank = builtBank s := rfl
@[simp] theorem buildCqt_scr (s : State) : (buildCqt s).scr = scratchUnspecified (2 :: drawRoot s) (nLen s.latch) := rfl
@[simp] theorem buildCqt_mem (s : State) : (buildCqt s).mem = s.mem := rfl
@[simp] theorem buildCqt_inputs (s : State) : (buildCqt s).inputs = s.inputs := rfl
@[simp] theorem buildCqt_reply (s : State) : (buildCqt s).reply = s.reply := rfl
@[simp] theorem buildCqt_draws (s : State) : (buildCqt s).draws = s.draws := rfl

/-! Freeing the kernel bank, field by field (rule R220). -/

@[simp] theorem freeCqt_cfg (s : State) : (freeCqt s).cfg = s.cfg := rfl
@[simp] theorem freeCqt_plat (s : State) : (freeCqt s).plat = s.plat := rfl
@[simp] theorem freeCqt_rst (s : State) : (freeCqt s).rst = s.rst := rfl
@[simp] theorem freeCqt_phase (s : State) : (freeCqt s).phase = s.phase := rfl
@[simp] theorem freeCqt_done (s : State) : (freeCqt s).done = s.done := rfl
@[simp] theorem freeCqt_ok (s : State) : (freeCqt s).ok = s.ok := rfl
@[simp] theorem freeCqt_err (s : State) : (freeCqt s).err = s.err := rfl
@[simp] theorem freeCqt_ieDone (s : State) : (freeCqt s).ieDone = s.ieDone := rfl
@[simp] theorem freeCqt_ieOvr (s : State) : (freeCqt s).ieOvr = s.ieOvr := rfl
@[simp] theorem freeCqt_doneP (s : State) : (freeCqt s).doneP = s.doneP := rfl
@[simp] theorem freeCqt_ovrP (s : State) : (freeCqt s).ovrP = s.ovrP := rfl
@[simp] theorem freeCqt_ptrRe (s : State) : (freeCqt s).ptrRe = s.ptrRe := rfl
@[simp] theorem freeCqt_ptrIm (s : State) : (freeCqt s).ptrIm = s.ptrIm := rfl
@[simp] theorem freeCqt_ptrOre (s : State) : (freeCqt s).ptrOre = s.ptrOre := rfl
@[simp] theorem freeCqt_ptrOim (s : State) : (freeCqt s).ptrOim = s.ptrOim := rfl
@[simp] theorem freeCqt_argN (s : State) : (freeCqt s).argN = s.argN := rfl
@[simp] theorem freeCqt_argBpo (s : State) : (freeCqt s).argBpo = s.argBpo := rfl
@[simp] theorem freeCqt_argOct (s : State) : (freeCqt s).argOct = s.argOct := rfl
@[simp] theorem freeCqt_argSr (s : State) : (freeCqt s).argSr = s.argSr := rfl
@[simp] theorem freeCqt_argFmin (s : State) : (freeCqt s).argFmin = s.argFmin := rfl
@[simp] theorem freeCqt_latch (s : State) : (freeCqt s).latch = s.latch := rfl
@[simp] theorem freeCqt_fftValid (s : State) : (freeCqt s).fftValid = s.fftValid := rfl
@[simp] theorem freeCqt_fftLog2n (s : State) : (freeCqt s).fftLog2n = s.fftLog2n := rfl
@[simp] theorem freeCqt_bitrev (s : State) : (freeCqt s).bitrev = s.bitrev := rfl
@[simp] theorem freeCqt_cqtValid (s : State) : (freeCqt s).cqtValid = false := rfl
@[simp] theorem freeCqt_cqtBins (s : State) : (freeCqt s).cqtBins = 0#32 := rfl
@[simp] theorem freeCqt_cqtLen (s : State) : (freeCqt s).cqtLen = 0#32 := rfl
@[simp] theorem freeCqt_kbank (s : State) : (freeCqt s).kbank = [] := rfl
@[simp] theorem freeCqt_scr (s : State) : (freeCqt s).scr = s.scr := rfl
@[simp] theorem freeCqt_mem (s : State) : (freeCqt s).mem = s.mem := rfl
@[simp] theorem freeCqt_inputs (s : State) : (freeCqt s).inputs = s.inputs := rfl
@[simp] theorem freeCqt_reply (s : State) : (freeCqt s).reply = s.reply := rfl
@[simp] theorem freeCqt_draws (s : State) : (freeCqt s).draws = s.draws := rfl

/-! A set that wins over a clear, field by field (rule R27). -/

@[simp] theorem setWins_cfg (c : Bool) (s : State) : (setWins c s).cfg = s.cfg := rfl
@[simp] theorem setWins_plat (c : Bool) (s : State) : (setWins c s).plat = s.plat := rfl
@[simp] theorem setWins_rst (c : Bool) (s : State) : (setWins c s).rst = s.rst := rfl
@[simp] theorem setWins_phase (c : Bool) (s : State) : (setWins c s).phase = s.phase := rfl
@[simp] theorem setWins_done (c : Bool) (s : State) : (setWins c s).done = s.done := rfl
@[simp] theorem setWins_ok (c : Bool) (s : State) : (setWins c s).ok = s.ok := rfl
@[simp] theorem setWins_err (c : Bool) (s : State) : (setWins c s).err = s.err := rfl
@[simp] theorem setWins_ieDone (c : Bool) (s : State) : (setWins c s).ieDone = s.ieDone := rfl
@[simp] theorem setWins_ieOvr (c : Bool) (s : State) : (setWins c s).ieOvr = s.ieOvr := rfl
@[simp] theorem setWins_doneP (c : Bool) (s : State) : (setWins c s).doneP = (s.doneP || c) := rfl
@[simp] theorem setWins_ovrP (c : Bool) (s : State) : (setWins c s).ovrP = s.ovrP := rfl
@[simp] theorem setWins_ptrRe (c : Bool) (s : State) : (setWins c s).ptrRe = s.ptrRe := rfl
@[simp] theorem setWins_ptrIm (c : Bool) (s : State) : (setWins c s).ptrIm = s.ptrIm := rfl
@[simp] theorem setWins_ptrOre (c : Bool) (s : State) : (setWins c s).ptrOre = s.ptrOre := rfl
@[simp] theorem setWins_ptrOim (c : Bool) (s : State) : (setWins c s).ptrOim = s.ptrOim := rfl
@[simp] theorem setWins_argN (c : Bool) (s : State) : (setWins c s).argN = s.argN := rfl
@[simp] theorem setWins_argBpo (c : Bool) (s : State) : (setWins c s).argBpo = s.argBpo := rfl
@[simp] theorem setWins_argOct (c : Bool) (s : State) : (setWins c s).argOct = s.argOct := rfl
@[simp] theorem setWins_argSr (c : Bool) (s : State) : (setWins c s).argSr = s.argSr := rfl
@[simp] theorem setWins_argFmin (c : Bool) (s : State) : (setWins c s).argFmin = s.argFmin := rfl
@[simp] theorem setWins_latch (c : Bool) (s : State) : (setWins c s).latch = s.latch := rfl
@[simp] theorem setWins_fftValid (c : Bool) (s : State) : (setWins c s).fftValid = s.fftValid := rfl
@[simp] theorem setWins_fftLog2n (c : Bool) (s : State) : (setWins c s).fftLog2n = s.fftLog2n := rfl
@[simp] theorem setWins_bitrev (c : Bool) (s : State) : (setWins c s).bitrev = s.bitrev := rfl
@[simp] theorem setWins_cqtValid (c : Bool) (s : State) : (setWins c s).cqtValid = s.cqtValid := rfl
@[simp] theorem setWins_cqtBins (c : Bool) (s : State) : (setWins c s).cqtBins = s.cqtBins := rfl
@[simp] theorem setWins_cqtLen (c : Bool) (s : State) : (setWins c s).cqtLen = s.cqtLen := rfl
@[simp] theorem setWins_kbank (c : Bool) (s : State) : (setWins c s).kbank = s.kbank := rfl
@[simp] theorem setWins_scr (c : Bool) (s : State) : (setWins c s).scr = s.scr := rfl
@[simp] theorem setWins_mem (c : Bool) (s : State) : (setWins c s).mem = s.mem := rfl
@[simp] theorem setWins_inputs (c : Bool) (s : State) : (setWins c s).inputs = s.inputs := rfl
@[simp] theorem setWins_reply (c : Bool) (s : State) : (setWins c s).reply = s.reply := rfl
@[simp] theorem setWins_draws (c : Bool) (s : State) : (setWins c s).draws = s.draws := rfl

/-! Accept (rule R31): what a `CMD` write does in each phase. -/

theorem accept_busy {s : State} (w : Word) (h : s.phase = .busy) :
    accept w s = { s with ovrP := true } := by
  simp only [accept, h]

theorem accept_idle {s : State} (w : Word) (h : s.phase = .idle) :
    accept w s =
      { s with latch := latchOf w s, phase := .busy, done := false, ok := false, err := .noError } := by
  simp only [accept, h]

end Sys2Proof.Machine
end

