-- ==== Sys2Proof/Laws/Commands.lean ====
section
/-! SUPPORT. Everything a command can answer, said once per shared operation, and the inversion of a step. -/

namespace Sys2Proof.Machine

/-- Everything `INIT_FFT` can answer: a failed completion, or the context built and a successful one. -/
theorem execInitFft_cases (s : State) :
    (∃ e, initFftError s = some e ∧ execInitFft s = .next (complete e s)) ∨
      (initFftError s = none ∧
        execInitFft s = .next (complete .noError (buildFft (nLen s.latch) s))) := by
  unfold execInitFft
  cases h : initFftError s with
  | none => exact .inr ⟨rfl, rfl⟩
  | some e => exact .inl ⟨e, rfl, rfl⟩

/-- Everything `INIT_CQT` can answer. -/
theorem execInitCqt_cases (s : State) :
    (∃ e, initCqtError s = some e ∧ execInitCqt s = .next (complete e s)) ∨
      (initCqtError s = none ∧ execInitCqt s = .next (complete .noError (buildCqt s))) := by
  unfold execInitCqt
  cases h : initCqtError s with
  | none => exact .inr ⟨rfl, rfl⟩
  | some e => exact .inl ⟨e, rfl, rfl⟩

/-- The checks of a memory command passed and no host duty is broken. -/
def memoryCommandRuns (i : Instr) (err : Option ErrCode) (s : State) : Prop :=
  err = none ∧
    buffersConflict (readOnlyBuffers i s.latch) (writtenBuffers i s.latch) = false ∧
      touches (commandBuffers i s.latch) s.plat.nonMemory = false

/-- Everything a memory command can answer with a next state: a failed check, a bus error, or its
result. -/
theorem memoryCommand_next {i : Instr} {err : Option ErrCode} {result : State → Memory}
    {s t : State} (h : memoryCommand i err result s = .next t) :
    (∃ e, err = some e ∧ t = complete e s) ∨
      (memoryCommandRuns i err s ∧ portAnswer s.plat (commandBuffers i s.latch) = .error ∧
        t = complete .busError { s with mem := busErrorMemory i s }) ∨
      (memoryCommandRuns i err s ∧ portAnswer s.plat (commandBuffers i s.latch) = .served ∧
        t = complete .noError { s with mem := result s }) := by
  unfold memoryCommand at h
  cases err with
  | some e =>
    simp only [Host.Outcome.next.injEq] at h
    exact .inl ⟨e, rfl, h.symm⟩
  | none =>
    dsimp only at h
    split at h
    · cases h
    · split at h
      · cases h
      · rename_i hc ht
        have hr : memoryCommandRuns i none s := ⟨rfl, by simpa using hc, by simpa using ht⟩
        split at h
        · cases h
        · rename_i hp
          simp only [Host.Outcome.next.injEq] at h
          exact .inr (.inl ⟨hr, hp, h.symm⟩)
        · rename_i hp
          simp only [Host.Outcome.next.injEq] at h
          exact .inr (.inr ⟨hr, hp, h.symm⟩)

/-- A memory command whose checks pass, whose buffers keep the host duties and whose accesses are
served completes with its result. -/
theorem memoryCommand_served {i : Instr} {err : Option ErrCode} (result : State → Memory)
    {s : State} (h : memoryCommandRuns i err s)
    (hp : portAnswer s.plat (commandBuffers i s.latch) = .served) :
    memoryCommand i err result s = .next (complete .noError { s with mem := result s }) := by
  obtain ⟨rfl, hc, ht⟩ := h
  simp [memoryCommand, hc, ht, hp]

/-- A failed check completes the command whatever the buffers and the platform. -/
theorem memoryCommand_failed {i : Instr} {e : ErrCode} (result : State → Memory) (s : State) :
    memoryCommand i (some e) result s = .next (complete e s) := rfl

/-- Everything the core's turn can be. -/
theorem coreTurn_cases (s : State) :
    (s.rst = true ∨ s.phase = .idle) ∧ coreTurn s = .next s ∨
      s.rst = false ∧ s.phase = .busy ∧
        ((∃ i, decode s.latch.w = .ok i ∧ coreTurn s = exec i s) ∨
          (∃ e, decode s.latch.w = .error e ∧ coreTurn s = .next (complete .illegalCmd s))) := by
  unfold coreTurn
  cases hr : s.rst with
  | true => exact .inl ⟨.inl rfl, rfl⟩
  | false =>
    cases hp : s.phase with
    | idle => exact .inl ⟨.inr rfl, rfl⟩
    | busy =>
      refine .inr ⟨rfl, rfl, ?_⟩
      cases hd : decode s.latch.w with
      | ok i => exact .inl ⟨i, rfl, rfl⟩
      | error e => exact .inr ⟨e, rfl, rfl⟩

/-- Everything a host access of memory can answer with a next state. -/
theorem hostAccess_next {a n : Nat} {bs : List Buffer} {csr : BitVec 8 → BitVec 4 → CsrAccess}
    {s t u : State} (h : hostAccess a n bs csr s t = .next u) :
    a + n ≤ addressSpace ∧ anyHeld bs a n = false ∧
      (u = t ∨ s.rst = false ∧ ∃ off strobes, u = csrAccess (csr off strobes) s) := by
  unfold hostAccess at h
  split at h
  · cases h
  · split at h
    · cases h
    · rename_i h1 h2
      refine ⟨by omega, by simpa using h2, ?_⟩
      split at h
      · simp only [Host.Outcome.next.injEq] at h
        exact .inl h.symm
      · split at h
        · unfold csrTurn at h
          split at h
          · cases h
          · rename_i hr
            simp only [Host.Outcome.next.injEq] at h
            exact .inr ⟨by simpa using hr, _, _, h.symm⟩
        · simp only [Host.Outcome.next.injEq] at h
          exact .inl h.symm

/-! Where the platform has nothing but ordinary memory, host loads and stores are memory's own. -/

theorem nonMemory_eq_nil {p : Platform} (h : p.nonMemory = []) : p.csrBase = none ∧ p.devices = [] := by
  unfold Platform.nonMemory at h
  split at h
  · exact ⟨‹_›, h⟩
  · cases h

theorem isDevice_ordinary {p : Platform} (h : p.devices = []) (a : Nat) : p.isDevice a = false := by
  simp [Platform.isDevice, h]

theorem meetsDevice_ordinary {p : Platform} (h : p.devices = []) (a n : Nat) :
    p.meetsDevice a n = false := by
  simp [Platform.meetsDevice, isDevice_ordinary h]

theorem loadByte_ordinary {s : State} (h : s.plat.devices = []) (a : Nat) :
    loadByte s a = Memory.readByte s.mem a := by
  simp [loadByte, isDevice_ordinary h]

theorem loadWord_ordinary {s : State} (h : s.plat.devices = []) (a : Nat) :
    loadWord s a = Memory.readWord s.mem a := by
  simp [loadWord, Memory.readWord, loadByte_ordinary h]

theorem storeByte_ordinary {p : Platform} (h : p.devices = []) (m : Memory) (a : Nat) (b : Byte) :
    storeByte p m a b = Memory.writeByte m a b := by
  simp [storeByte, isDevice_ordinary h]

theorem storeWord_ordinary {p : Platform} (h : p.devices = []) (m : Memory) (a : Nat) (v : Word) :
    storeWord p m a v = Memory.writeWord m a v := by
  simp [storeWord, Memory.writeWord, storeByte_ordinary h]

theorem hostReply_ordinary {s : State} (h : s.plat.devices = []) (a n : Nat) (data : Word) :
    hostReply a n data s = { s with reply := some ⟨data, false⟩ } := by
  simp [hostReply, meetsDevice_ordinary h]

/-- A host access of ordinary memory outside the forbidden ranges goes on. -/
theorem hostAccess_ordinary {a n : Nat} {bs : List Buffer} {csr : BitVec 8 → BitVec 4 → CsrAccess}
    {s t : State} (hp : s.plat.csrBase = none) (ha : a + n ≤ addressSpace)
    (hh : anyHeld bs a n = false) : hostAccess a n bs csr s t = .next t := by
  simp [hostAccess, hp, hh, Nat.not_lt.2 ha]

/-! A host store keeps the canonical form, device windows or not. -/

theorem storeByte_wf {p : Platform} {m : Memory} {a : Nat} {b : Byte} (hm : Memory.wf m = true)
    (ha : a < addressSpace) : Memory.wf (storeByte p m a b) = true := by
  unfold storeByte
  split
  · exact hm
  · exact writeByte_wf hm ha

theorem storeWord_wf {p : Platform} {m : Memory} {a : Nat} {v : Word} (hm : Memory.wf m = true)
    (ha : a + 4 ≤ addressSpace) : Memory.wf (storeWord p m a v) = true := by
  unfold storeWord
  refine storeByte_wf (storeByte_wf (storeByte_wf (storeByte_wf hm ?_) ?_) ?_) ?_ <;> omega

/-- With nothing else to happen a step is the core's turn. -/
theorem step_core {s : State} (h : s.inputs = []) : step s = coreTurn s := by
  unfold step
  rw [h]

/-- With inputs a step serves the oldest. -/
theorem step_input {s : State} {e : Input} {rest : List Input} (h : s.inputs = e :: rest) :
    step s = serve e { s with inputs := rest } := by
  unfold step
  rw [h]

end Sys2Proof.Machine
end

