-- ==== Sys2Proof/Laws/Fft.lean ====
section
/-! SUPPORT. The datapath's small lemmas: lengths, the table, one butterfly, one pass of a loop. -/

namespace Sys2Proof.Machine

/-- A loop body that keeps a length keeps it over a whole loop. -/
theorem foldl_length {β : Type} (f : List Cpx → β → List Cpx)
    (hf : ∀ x b, (f x b).length = x.length) (bs : List β) (x : List Cpx) :
    (bs.foldl f x).length = x.length := by
  induction bs generalizing x with
  | nil => rfl
  | cons b bs ih => rw [List.foldl_cons, ih, hf]

/-- One more pass of a counted loop. -/
theorem foldl_range_succ {α : Type} (f : α → Nat → α) (n : Nat) (x : α) :
    (List.range (n + 1)).foldl f x = f ((List.range n).foldl f x) n := by
  rw [List.range_succ, List.foldl_append]
  rfl

@[simp] theorem swapAt_length (x : List Cpx) (i r : Nat) : (swapAt x i r).length = x.length := by
  simp [swapAt]

@[simp] theorem permute_length (table : List Nat) (n : Nat) (x : List Cpx) :
    (permute table n x).length = x.length :=
  foldl_length _ (fun y i => by split <;> simp) _ _

@[simp] theorem butterfly_length (d : Draw) (x : List Cpx) (p q : Nat) (w : Cpx) :
    (butterfly d x p q w).length = x.length := by
  simp [butterfly]

@[simp] theorem fftBlock_length (tw : Nat → Cpx) (d : Draw) (base half step : Nat) (x : List Cpx) :
    (fftBlock tw d base half step x).length = x.length :=
  foldl_length _ (fun y j => by simp) _ _

@[simp] theorem fftStage_length (tw : Nat → Cpx) (d : Draw) (n len : Nat) (x : List Cpx) :
    (fftStage tw d n len x).length = x.length :=
  foldl_length _ (fun y b => by simp) _ _

@[simp] theorem fftCore_length (tw : Nat → Cpx) (table : List Nat) (d : Draw) (m : Nat)
    (x : List Cpx) : (fftCore tw table d m x).length = x.length := by
  unfold fftCore
  rw [foldl_length _ (fun y k => by simp) _ _, permute_length]

/-- A transform of length 1 is the identity, bit for bit (rule R161), whatever the table. -/
theorem fftCore_one (tw : Nat → Cpx) (d : Draw) (x : List Cpx) :
    fftCore tw [0] d 0 x = x := by
  simp [fftCore, permute, bitrevAt]

@[simp] theorem zipCpx_length (re im : List Word) :
    (zipCpx re im).length = min re.length im.length := by
  simp [zipCpx]

@[simp] theorem bitrevFrom_length (n count j : Nat) : (bitrevFrom n count j).length = count := by
  induction count generalizing j with
  | zero => rfl
  | succ c ih => simp [bitrevFrom, ih]

@[simp] theorem bitrevGen_length (n : Nat) : (bitrevGen n).length = n := by
  simp [bitrevGen]

@[simp] theorem timeBuffer_length (M : Config.Math) (d : Draw) (n len : Nat) (freq sr : Word) :
    (timeBuffer M d n len freq sr).length = n := by
  simp [timeBuffer]

/-- Every stored kernel has `n` entries (rule R195). -/
@[simp] theorem kernel_length (M : Config.Math) (tw : Nat → Cpx) (table : List Nat) (d : Draw)
    (m k : Nat) (c : BankConsts) (sr fmin : Word) :
    (kernel M tw table d m k c sr fmin).length = 2 ^ m := by
  simp only [kernel]
  split <;> simp

@[simp] theorem kernelBank_length (M : Config.Math) (tw : Nat → Cpx) (table : List Nat) (d : Draw)
    (m bins : Nat) (bpo : Int) (sr fmin : Word) :
    (kernelBank M tw table d m bins bpo sr fmin).length = bins := by
  simp [kernelBank]

@[simp] theorem cqtResult_length (bank : List (List Cpx)) (d : Draw) (m bins : Nat)
    (re im : List Word) : (cqtResult bank d m bins re im).length = bins := by
  simp [cqtResult]

@[simp] theorem forwardResult_length (tw : Nat → Cpx) (table : List Nat) (d : Draw) (m : Nat)
    (re im : List Word) :
    (forwardResult tw table d m re im).length = min re.length im.length := by
  simp [forwardResult]

@[simp] theorem inverseResult_length (tw : Nat → Cpx) (table : List Nat) (d : Draw) (m : Nat)
    (re im : List Word) :
    (inverseResult tw table d m re im).length = min re.length im.length := by
  simp [inverseResult]

/-! ## Elements -/

@[simp] theorem cpxAt_set_same (x : List Cpx) (i : Nat) (v : Cpx) (h : i < x.length) :
    cpxAt (x.set i v) i = v := by
  simp [cpxAt, h]

theorem cpxAt_set_other (x : List Cpx) (i j : Nat) (v : Cpx) (h : i ≠ j) :
    cpxAt (x.set i v) j = cpxAt x j := by
  simp [cpxAt, List.getD, h]

/-- A butterfly leaves every element but its two alone (rule R160). -/
theorem cpxAt_butterfly_other (d : Draw) (x : List Cpx) (p q i : Nat) (w : Cpx) (hp : p ≠ i)
    (hq : q ≠ i) : cpxAt (butterfly d x p q w) i = cpxAt x i := by
  simp only [butterfly]
  rw [cpxAt_set_other _ _ _ _ hp, cpxAt_set_other _ _ _ _ hq]

/-- What a butterfly leaves in its even element (rule R160). -/
theorem cpxAt_butterfly_even (d : Draw) (x : List Cpx) (p q : Nat) (w : Cpx) (hp : p < x.length) :
    cpxAt (butterfly d x p q w) p =
      ⟨fadd (3 :: d) (cpxAt x p).re (cmul (0 :: d) w (cpxAt x q)).re,
        fadd (4 :: d) (cpxAt x p).im (cmul (0 :: d) w (cpxAt x q)).im⟩ := by
  simp only [butterfly]
  rw [cpxAt_set_same _ _ _ (by simpa using hp)]

/-- What a butterfly leaves in its odd element (rule R160). -/
theorem cpxAt_butterfly_odd (d : Draw) (x : List Cpx) (p q : Nat) (w : Cpx) (hq : q < x.length)
    (h : p ≠ q) :
    cpxAt (butterfly d x p q w) q =
      ⟨fsub (1 :: d) (cpxAt x p).re (cmul (0 :: d) w (cpxAt x q)).re,
        fsub (2 :: d) (cpxAt x p).im (cmul (0 :: d) w (cpxAt x q)).im⟩ := by
  simp only [butterfly]
  rw [cpxAt_set_other _ _ _ _ h, cpxAt_set_same _ _ _ hq]

end Sys2Proof.Machine
end

