-- ==== Sys2Proof/Laws/Numerics.lean ====
section
/-! SUPPORT. Binary32: packing and unpacking, bounds of rounding, the NaN draw. -/

namespace Sys2Proof.Machine

theorem packMag_toNat (neg : Bool) (bits : Nat) (h : bits < 2 ^ 31) :
    (packMag neg bits).toNat = bits + if neg then 2 ^ 31 else 0 := by
  simp only [packMag, BitVec.toNat_ofNat]
  split <;> omega

theorem expField_eq (a : Word) : expField a = a.toNat / 2 ^ 23 % 2 ^ 8 := by
  simp [expField, BitVec.extractLsb'_toNat, Nat.shiftRight_eq_div_pow]

theorem fracField_eq (a : Word) : fracField a = a.toNat % 2 ^ 23 := by
  simp [fracField, BitVec.extractLsb'_toNat]

theorem signBit_eq (a : Word) : signBit a = decide (2 ^ 31 ≤ a.toNat) := by
  have h := a.isLt
  have hb : signBit a = a.msb := by simp [signBit, BitVec.msb_eq_getLsbD_last]
  rw [hb, BitVec.msb_eq_decide]

theorem expField_packMag (neg : Bool) (bits : Nat) (h : bits < 2 ^ 31) :
    expField (packMag neg bits) = bits / 2 ^ 23 := by
  rw [expField_eq, packMag_toNat neg bits h]
  split <;> omega

theorem fracField_packMag (neg : Bool) (bits : Nat) (h : bits < 2 ^ 31) :
    fracField (packMag neg bits) = bits % 2 ^ 23 := by
  rw [fracField_eq, packMag_toNat neg bits h]
  split <;> omega

theorem signBit_packMag (neg : Bool) (bits : Nat) (h : bits < 2 ^ 31) :
    signBit (packMag neg bits) = neg := by
  rw [signBit_eq, packMag_toNat neg bits h]
  cases neg with
  | false =>
    simp only [Bool.false_eq_true, if_false, decide_eq_false_iff_not]
    omega
  | true => simp

theorem roundMag_le (num den : Nat) : roundMag num den ≤ infBits := Nat.min_le_right _ _

theorem roundMag_lt (num den : Nat) : roundMag num den < 2 ^ 31 :=
  Nat.lt_of_le_of_lt (roundMag_le num den) (by decide)

/-- An operation that rounds a magnitude never gives a NaN. -/
theorem isNaN_pack_roundMag (neg : Bool) (num den : Nat) :
    isNaN (packMag neg (roundMag num den)) = false := by
  have h := roundMag_le num den
  have hlt := roundMag_lt num den
  simp only [isNaN, expField_packMag _ _ hlt, fracField_packMag _ _ hlt, Bool.and_eq_false_imp,
    beq_iff_eq, bne_eq_false_iff_eq]
  intro he
  simp only [infBits] at h
  omega

theorem roundHalfEven_exact (k den : Nat) (h : 0 < den) : roundHalfEven (k * den) den = k := by
  simp [roundHalfEven, Nat.mul_div_cancel _ h, h]

/-- Rounding to an integer moves a quotient up by at most one. -/
theorem roundHalfEven_le (num den : Nat) : roundHalfEven num den ≤ num / den + 1 := by
  simp only [roundHalfEven]
  have h2 : num / den % 2 < 2 := Nat.mod_lt _ (by decide)
  split
  · omega
  · split <;> omega

theorem roundMag_zero (den : Nat) : roundMag 0 den = 0 := by
  simp [roundMag, roundHalfEven]

/-- With the reference parameter the core's `MATH` is the reference value. -/
theorem coreMath_reference {p : Config.Params} (h : p.math = Config.MathTable.reference) :
    coreMath p = mathReference := by
  simp [coreMath, mathReference, h, Config.MathTable.reference]

end Sys2Proof.Machine
end

