-- ==== Sys2Proof/Laws/PerInstr.lean ====
section
/-! SUPPORT. Facts about each command as syntax, one lemma per constructor. -/

/-- The reserved field of every command word is 0 and the word is well formed (rules R91, R92). -/
def Sys2Proof.Laws.ReservedZero.Statement (i : Sys2Proof.Instr) : Prop :=
  i.wellFormed = true ∧ Sys2Proof.rsv (Sys2Proof.encode i) = 0#28 ∧
    Sys2Proof.commandWordWellFormed (Sys2Proof.encode i) = true

namespace Sys2Proof.Laws.ReservedZero

theorem initFft : Statement .initFft := ⟨rfl, by decide, by decide⟩

theorem fft : Statement .fft := ⟨rfl, by decide, by decide⟩

theorem ifft : Statement .ifft := ⟨rfl, by decide, by decide⟩

theorem initCqt : Statement .initCqt := ⟨rfl, by decide, by decide⟩

theorem cqt : Statement .cqt := ⟨rfl, by decide, by decide⟩

theorem freeFft : Statement .freeFft := ⟨rfl, by decide, by decide⟩

theorem freeCqt : Statement .freeCqt := ⟨rfl, by decide, by decide⟩

end Sys2Proof.Laws.ReservedZero
end

