-- ==== Sys2Proof/Tests/Slice0.lean ====
section
/-! SUPPORT. Tests of the model against the spec's vectors (95_test_vectors.md), and witnesses of the statements' hypotheses. -/

-- Each kernel evaluation would otherwise wait in a thread of its own.
set_option Elab.async false

namespace Sys2Proof.Tests

open Sys2Proof.Machine

/-! ## Well-formedness: each check refuses an ill-formed term -/

theorem test_wellFormed_reservedBits : commandWordWellFormed 0x00000012#32 = false := by decide

theorem test_wellFormed_opcodeZero : commandWordWellFormed 0x00000000#32 = false := by decide

theorem test_wellFormed_opcodeEight : commandWordWellFormed 0x00000008#32 = false := by decide

theorem test_wellFormed_command : commandWordWellFormed 0x00000007#32 = true := by decide

theorem test_params_log2NMaxTooBig :
    (Config.Params.mk 25#5 1#32 .reference).wellFormed = false := by decide

theorem test_params_noCapacity : (Config.Params.mk 16#5 0#32 .reference).wellFormed = false := by decide

theorem test_params_default : Config.Params.default.wellFormed = true := by decide

/-! ## Decoding: the words of rule R92, bit by bit (V-DEC-1 to V-DEC-8) -/

theorem test_decode_initFft :
    decode 0b00000000000000000000000000000001#32 = .ok .initFft := by rfl

theorem test_decode_fft : decode 0b00000000000000000000000000000010#32 = .ok .fft := by rfl

theorem test_decode_ifft : decode 0b00000000000000000000000000000011#32 = .ok .ifft := by rfl

theorem test_decode_initCqt :
    decode 0b00000000000000000000000000000100#32 = .ok .initCqt := by rfl

theorem test_decode_cqt : decode 0b00000000000000000000000000000101#32 = .ok .cqt := by rfl

theorem test_decode_freeFft :
    decode 0b00000000000000000000000000000110#32 = .ok .freeFft := by rfl

theorem test_decode_freeCqt :
    decode 0b00000000000000000000000000000111#32 = .ok .freeCqt := by rfl

theorem test_decode_illegal :
    decode 0x00000000#32 = .error .illegalOpcode ∧ decode 0x0000000F#32 = .error .illegalOpcode ∧
      decode 0x00000012#32 = .error .reservedBits ∧ decode 0x80000001#32 = .error .reservedBits :=
  ⟨rfl, rfl, rfl, rfl⟩

theorem test_decodeTableWord : decodeTableWord 32 5 = some .cqt ∧ decodeTableWord 32 8 = none := by
  decide

/-! ## Numerics (section 2.3) -/

/-- V-NUM-1, V-NUM-2, V-NUM-4, V-NUM-5, V-NUM-6. -/
theorem test_num_edges :
    fadd [] 0x80000000#32 0x80000000#32 = 0x80000000#32 ∧
    fadd [] 0x3F800000#32 0xBF800000#32 = 0x00000000#32 ∧
    fmul [] 0x80000000#32 0x40A00000#32 = 0x80000000#32 ∧
    fdiv [] 0xBF800000#32 0x00000000#32 = 0xFF800000#32 ∧
    fadd [] 0x7F7FFFFF#32 0x7F7FFFFF#32 = 0x7F800000#32 := by decide +kernel

/-- V-NUM-7, V-NUM-8. -/
theorem test_num_ceil :
    fceil [] 0xBF000000#32 = 0x80000000#32 ∧ fceil [] 0x3F800001#32 = 0x40000000#32 ∧
    fceil [] 0x4B000001#32 = 0x4B000001#32 ∧ fceil [] 0x3E800000#32 = 0x3F800000#32 := by
  decide +kernel

/-- V-NUM-9, V-NUM-10: gradual underflow, ties to even. -/
theorem test_num_underflow :
    fmul [] 0x00000003#32 (invPow2 1) = 0x00000002#32 ∧
    fmul [] 0x00000001#32 (invPow2 1) = 0x00000000#32 ∧
    fmul [] 0x00000005#32 (invPow2 2) = 0x00000001#32 := by decide +kernel

/-- V-NUM-11, V-NUM-12. -/
theorem test_num_convert :
    i2f 16777217 = 0x4B800000#32 ∧ i2f 16777219 = 0x4B800002#32 ∧ i2f 12 = 0x41400000#32 ∧
    fneg 0x7FC00001#32 = 0xFFC00001#32 := by decide +kernel

/-- V-NUM-14. -/
theorem test_num_math :
    cosRef 0x40490FDB#32 = 0xBF800000#32 ∧ exp2Ref 0x33800000#32 = 0x3F800000#32 := by
  decide +kernel

/-- V-NUM-15, V-NUM-16, V-NUM-18. -/
theorem test_num_products :
    cmul [] ⟨0x3F800000#32, 0x00000000#32⟩ ⟨0x80000000#32, 0xBF800000#32⟩ =
      ⟨0x00000000#32, 0xBF800000#32⟩ ∧
    cmul [] ⟨0x3F800000#32, 0x00000000#32⟩ ⟨0x40000000#32, 0x80000000#32⟩ =
      ⟨0x40000000#32, 0x00000000#32⟩ ∧
    cmulconj [] ⟨0x3F800000#32, 0x40000000#32⟩ ⟨0x40400000#32, 0x40800000#32⟩ =
      ⟨0x41300000#32, 0x40000000#32⟩ := by decide +kernel

/-- V-NUM-19. -/
theorem test_num_isPow2 :
    isPow2 1 = true ∧ isPow2 4096 = true ∧ isPow2 0 = false ∧ isPow2 6 = false ∧
      isPow2 (-8) = false ∧ isPow2 (-2147483648) = false := by decide

/-! ## Tables and datapath (sections 2.4, 2.5, 2.10) -/

/-- V-BR-8. -/
theorem test_bitrev_8 : bitrevGen 8 = [0, 4, 2, 6, 1, 5, 3, 7] := by decide

/-- V-TW-8. -/
theorem test_twiddle_8 :
    (List.range 4).map (twView 16 3) =
      [⟨0x3F800000#32, 0x00000000#32⟩, ⟨0x3F3504F3#32, 0xBF3504F3#32⟩,
        ⟨0x00000000#32, 0xBF800000#32⟩, ⟨0xBF3504F3#32, 0xBF3504F3#32⟩] := by decide +kernel

/-- V-PERM-4. -/
theorem test_permute_4 (a b c d : Cpx) : permute (bitrevGen 4) 4 [a, b, c, d] = [a, c, b, d] := rfl

/-- V-BF-1. -/
theorem test_butterfly :
    butterfly [] [⟨0x3F800000#32, 0x40000000#32⟩, ⟨0x40400000#32, 0x40800000#32⟩] 0 1
        ⟨0x00000000#32, 0xBF800000#32⟩ =
      [⟨0x40A00000#32, 0xBF800000#32⟩, ⟨0xC0400000#32, 0x40A00000#32⟩] := by decide +kernel

/-- V-FFT-4. -/
theorem test_fftCore_4 :
    fftCore (twView 16 2) (bitrevGen 4) [] 2
        [⟨0x3F800000#32, 0#32⟩, ⟨0x40000000#32, 0#32⟩, ⟨0x40400000#32, 0#32⟩,
          ⟨0x40800000#32, 0#32⟩] =
      [⟨0x41200000#32, 0x00000000#32⟩, ⟨0xC0000000#32, 0x40000000#32⟩,
        ⟨0xC0000000#32, 0x00000000#32⟩, ⟨0xC0000000#32, 0xC0000000#32⟩] := by decide +kernel

/-- V-CQT-K: `SCR[0]` and `SCR[1]`. -/
theorem test_sample_cqtK :
    sample mathReference [] 0 4 0x3F800000#32 0x41000000#32 = ⟨0x00000000#32, 0x80000000#32⟩ ∧
    sample mathReference [] 1 4 0x3F800000#32 0x41000000#32 = ⟨0x3F316286#32, 0xBE92F350#32⟩ := by
  decide +kernel

/-- V-CQT-K: the stored kernel. -/
theorem test_kernel_cqtK :
    kernel mathReference (twView 16 2) (bitrevGen 4) [] 2 0
        (bankConsts mathReference [] 1 0x41000000#32) 0x41000000#32 0x3F800000#32 =
      [⟨0x3FB16286#32, 0x00000000#32⟩, ⟨0xBF7ADC2E#32, 0xBF7ADC2E#32⟩,
        ⟨0x00000000#32, 0x3F12F350#32⟩, ⟨0xBECFD1BC#32, 0x3ECFD1BC#32⟩] := by decide +kernel

/-- V-CORR-1. -/
theorem test_correlate :
    correlate [] [⟨0x3F800000#32, 0x40000000#32⟩]
        (kernelAt [[⟨0x40400000#32, 0x40800000#32⟩]] 0) 0 =
      ⟨0x41300000#32, 0x40000000#32⟩ := by decide +kernel

/-! ## Small states -/

/-- A busy machine with the command word `w` latched on operands `l`. -/
def busyWith (w : Word) (l : Latch) (s : State) : State :=
  { s with phase := .busy, latch := { l with w := w } }

/-- The FFT engine initialised for length 4. -/
def fft4 : State :=
  { State.reset with fftValid := true, fftLog2n := 2#5, bitrev := bitrevGen 4 }

/-- Operands of a transform of length 4 at 0x1000 and 0x2000. -/
def latch4 : Latch :=
  { Latch.zero with ptrRe := 0x1000#32, ptrIm := 0x2000#32, n := 4#32 }

/-- Operands of `INIT_CQT` in V-CQT-1 (`fmin` 4.0): two bins at or above Nyquist. -/
def latchInitCqt : Latch :=
  { Latch.zero with n := 4#32, bpo := 1#32, oct := 2#32, sr := 0x41000000#32,
                    fmin := 0x40800000#32 }

/-- Operands of `CQT` on one bin of length 1. -/
def latchCqt : Latch :=
  { latch4 with n := 1#32, bpo := 1#32, oct := 1#32, ptrOre := 0x3000#32, ptrOim := 0x3100#32 }

/-- A bank of one kernel of length 1, `(3, 4)`, and the input `(1, 2)` in memory (V-CORR-1). -/
def bank1 : State :=
  { State.reset with
    cqtValid := true, cqtBins := 1#32, cqtLen := 1#32
    kbank := [[⟨0x40400000#32, 0x40800000#32⟩]]
    mem := Memory.writeWord (Memory.writeWord [] 0x1000 0x3F800000#32) 0x2000 0x40000000#32 }

/-- The word `STATUS` reads after a step, if it gives a next state. -/
def statusAfter (s : State) : Option Word :=
  match step s with
  | .next t => some (readReg .status t)
  | .fault _ => none
  | .refused _ => none

/-- The word at an address after a step. -/
def wordAfter (s : State) (a : Nat) : Option Word :=
  match step s with
  | .next t => some (Memory.readWord t.mem a)
  | .fault _ => none
  | .refused _ => none

/-! ## Commands (sections 2.6 to 2.12) -/

/-- V-IF-1. -/
theorem test_initFft :
    statusAfter (busyWith 1#32 { Latch.zero with n := 8#32 } State.reset) = some 0x00030106#32 := by
  decide +kernel

/-- V-IF-6, third case: the length check comes first. -/
theorem test_initFft_order :
    statusAfter (busyWith 1#32 { Latch.zero with n := 6#32 } fft4) = some 0x00020112#32 := by
  decide +kernel

/-- V-FFT-D, element 1 of the real buffer of an impulse delayed by one. -/
theorem test_fft :
    wordAfter (busyWith 2#32 latch4
      { fft4 with mem := Memory.writeWord [] 0x1004 0x3F800000#32 }) 0x2004 = some 0xBF800000#32 := by
  decide +kernel

/-- V-FFT-E2: the null check comes before the engine check. -/
theorem test_fft_order :
    statusAfter (busyWith 2#32 { latch4 with n := 8#32, ptrRe := 0#32 } State.reset) =
      some 0x00000032#32 := by
  decide +kernel

/-- V-IFFT-2: real [3, -1] gives real [1, 2] (element 1), imaginary element 1 is -0. -/
theorem test_ifft :
    wordAfter (busyWith 3#32 { latch4 with n := 2#32 }
      { fft4 with
        fftLog2n := 1#5, bitrev := bitrevGen 2
        mem := Memory.writeWord (Memory.writeWord [] 0x1000 0x40400000#32) 0x1004 0xBF800000#32 })
      0x2004 = some 0x80000000#32 := by
  decide +kernel

/-- V-IFFT-E1: a failing inverse transform does not negate the imaginary buffer. -/
theorem test_ifft_fails :
    wordAfter (busyWith 3#32 latch4
      { State.reset with mem := Memory.writeWord [] 0x2000 0x3F800000#32 }) 0x2000 =
      some 0x3F800000#32 := by
  decide +kernel

/-- V-CQT-1. -/
theorem test_initCqt : statusAfter (busyWith 4#32 latchInitCqt fft4) = some 0x00020306#32 := by
  decide +kernel

/-- V-CQT-E8: the exact product never wraps. -/
theorem test_initCqt_noWrap :
    statusAfter (busyWith 4#32
      { latchInitCqt with bpo := 0x7FFFFFFF#32, oct := 0x7FFFFFFF#32 } fft4) =
      some 0x00020142#32 := by
  decide +kernel

/-- V-CORR-1 through the command. -/
theorem test_cqt : wordAfter (busyWith 5#32 latchCqt bank1) 0x3100 = some 0x40000000#32 := by
  decide +kernel

/-- V-CQT-3's check: more bins than the bank holds. -/
theorem test_cqt_bankTooSmall :
    statusAfter (busyWith 5#32 { latchCqt with oct := 3#32 } bank1) = some 0x00000262#32 := by
  decide +kernel

/-- V-FF-1 with length 4. -/
theorem test_freeFft : statusAfter (busyWith 6#32 Latch.zero fft4) = some 0x00000006#32 := by
  decide +kernel

/-- V-FC-2. -/
theorem test_freeCqt : statusAfter (busyWith 7#32 Latch.zero State.reset) = some 0x00000006#32 := by
  decide +kernel

/-- An illegal word from reset (section 2.1). -/
theorem test_illegalWord : statusAfter (busyWith 9#32 Latch.zero State.reset) = some 0x000000B2#32 := by
  decide +kernel

/-! ## Registers (section 2.2) -/

/-- V-CSR-1. -/
theorem test_csr_constants :
    readOffset 0x00#8 State.reset = 0x46465443#32 ∧ readOffset 0x04#8 State.reset = 0x00000010#32 ∧
      readOffset 0x08#8 State.reset = 0x00040000#32 := by decide

/-- V-CSR-4, V-CSR-6. -/
theorem test_csr_ctrl_irq :
    readReg .ctrl (writeReg .ctrl 0xFFFFFFFF#32 State.reset) = 0x00000003#32 ∧
      readReg .irq (writeReg .irq 0x1#32 { State.reset with doneP := true, ovrP := true }) =
        0x00000002#32 := by decide

/-- V-CSR-9, V-CSR-10. -/
theorem test_csr_interrupt :
    irqLine { State.reset with doneP := true, ieDone := true } = true ∧
      irqLine { State.reset with doneP := true, ieOvr := true } = false := by decide

/-- V-CSR-11. -/
theorem test_csr_illegalAccess :
    csrAccess (.write 0x14#8 0x1#4 0x3#32) State.reset =
      { State.reset with reply := some ⟨0#32, true⟩ } := by rfl

/-- V-CSR-12. -/
theorem test_csr_statusWhileBusy :
    statusWord (accept 2#32 { fft4 with fftLog2n := 3#5, done := true, ok := true }) =
      0x00030101#32 := by decide

/-- V-CSR-13. -/
theorem test_csr_dropped :
    (accept 6#32 (busyWith 2#32 latch4 fft4)).ovrP = true ∧
      (accept 6#32 (busyWith 2#32 latch4 fft4)).latch.w = 2#32 := by decide

/-- The reply of a host access on a platform with the register block at 0x8000. -/
def replyAtBlock (e : Input) : Option Reply :=
  match serve e { State.reset with plat := { Platform.allMemory with csrBase := some 0x8000#32 } } with
  | .next t => t.reply
  | .fault _ => none
  | .refused _ => none

/-- A host word load at `CSR_BASE` reads `ID` (rules R8, R21), and a byte load there is answered with
an error (rule R41). -/
theorem test_hostReadsTheBlock :
    replyAtBlock (.memRead 0x8000#32) = some ⟨0x46465443#32, false⟩ ∧
    replyAtBlock (.memReadByte 0x8000#32) = some ⟨0#32, true⟩ := by decide +kernel

/-- A core whose `COS` is not the reference value at 0 (rule R8): half there, the reference at pi. -/
theorem test_coreMath :
    (coreMath { Config.Params.default with
      math := { Config.MathTable.reference with cos := [(0x00000000#32, 0x3F000000#32)] } }).cos
        0x00000000#32 = 0x3F000000#32 ∧
    (coreMath { Config.Params.default with
      math := { Config.MathTable.reference with cos := [(0x00000000#32, 0x3F000000#32)] } }).cos
        0x40490FDB#32 = 0xBF800000#32 := by decide +kernel

/-! ## Witnesses: for each statement with hypotheses, a state and operands that meet them

Each theorem is named after its statement. -/

/-- `FFT` of length 4, latched and running. -/
def runFft : State := busyWith 2#32 latch4 fft4

/-- `IFFT` of length 4, latched and running. -/
def runIfft : State := busyWith 3#32 latch4 fft4

/-- `CQT` on the bank of one kernel, latched and running. -/
def runCqt : State := busyWith 5#32 latchCqt bank1

/-- `INIT_CQT` of two bins, latched and running. -/
def runInitCqt : State := busyWith 4#32 latchInitCqt fft4

/-- `FREE_FFT`, latched and running. -/
def runFreeFft : State := busyWith 6#32 Latch.zero fft4

/-- `FREE_CQT`, latched and running. -/
def runFreeCqt : State := busyWith 7#32 Latch.zero bank1

theorem witness_DecodeAndEncodeAgree : decode 0x7#32 = .ok .freeCqt := rfl

theorem witness_AcceptLatchesWordAndOperands :
    CsrNext (.write 0x0C#8 0xF#4 0x1#32) []
      { State.reset with inputs := [.csr (.write 0x0C#8 0xF#4 0x1#32)] } ∧
    State.reset.phase = .idle := ⟨⟨rfl, rfl⟩, rfl⟩

theorem witness_CmdWriteWhileBusyIsDropped :
    CsrNext (.write 0x0C#8 0xF#4 0x6#32) []
      { runFft with inputs := [.csr (.write 0x0C#8 0xF#4 0x6#32)] } ∧ runFft.phase = .busy :=
  ⟨⟨rfl, rfl⟩, rfl⟩

theorem witness_CompletionActions :
    (runFreeFft.rst = false ∧ runFreeFft.phase = .busy ∧
      coreTurn runFreeFft = .next (succeed (freeFft runFreeFft))) ∧
    (coreTurn (busyWith 8#32 Latch.zero fft4) =
        .next (fail .illegalCmd (busyWith 8#32 Latch.zero fft4)) ∧
      (fail .illegalCmd (busyWith 8#32 Latch.zero fft4)).err = .illegalCmd) :=
  ⟨⟨rfl, rfl, rfl⟩, rfl, rfl⟩

theorem witness_IllegalWordCompletes :
    rsv 0x12#32 ≠ 0#28 ∧ opc 0x0#32 = 0#4 ∧ 8 ≤ (opc 0x8#32).toNat ∧ State.reset.phase = .idle ∧
    (busyWith 0x12#32 Latch.zero fft4).rst = false ∧
    (busyWith 0x12#32 Latch.zero fft4).phase = .busy ∧
    (busyWith 0x12#32 Latch.zero fft4).latch.w = 0x12#32 := by decide

theorem witness_StepRunsTheLatchedCommand :
    runFft.rst = false ∧ runFft.phase = .busy ∧ decode runFft.latch.w = .ok .fft ∧
    runFft.inputs = [] ∧ ({ runFft with inputs := [.core] } : State).inputs = .core :: [] ∧
    State.reset.inputs = [] ∧ State.reset.phase = .idle := ⟨rfl, rfl, rfl, rfl, rfl, rfl, rfl⟩

/-- No power of two is 0. -/
theorem zero_not_pow2 : ¬ ∃ m : Nat, (0 : Int) = 2 ^ m := by
  rintro ⟨m, h⟩
  have : (0 : Int) < 2 ^ m := by positivity
  omega

theorem witness_InitFftMeaning :
    (¬ ∃ m : Nat, (Latch.zero.n.toInt : Int) = 2 ^ m) ∧
    (({ Latch.zero with n := 4#32 } : Latch).n.toInt = 2 ^ 2 ∧ fft4.fftValid = true) ∧
    (({ Latch.zero with n := 0x20000#32 } : Latch).n.toInt = 2 ^ 17 ∧
      State.reset.fftValid = false ∧ 2 ^ State.reset.cfg.log2NMax.toNat < 2 ^ 17) ∧
    (({ Latch.zero with n := 0x10000#32 } : Latch).n.toInt = 2 ^ 16 ∧
      2 ^ 16 ≤ 2 ^ State.reset.cfg.log2NMax.toNat) :=
  ⟨zero_not_pow2, by decide, by decide, by decide⟩

theorem witness_TransformAfterFreeFails :
    exec .freeFft runFreeFft = .next (succeed (freeFft runFreeFft)) ∧ latch4.n.toInt = 2 ^ 2 ∧
    latch4.ptrRe ≠ 0#32 ∧ latch4.ptrIm ≠ 0#32 := ⟨rfl, by decide, by decide, by decide⟩

theorem witness_BitrevTableIsBitReversal : 7 < 2 ^ 3 ∧ 0 < 2 ^ 0 := by decide

theorem witness_BitrevTableIsAnInvolution : 7 < 2 ^ 3 ∧ 0 < 2 ^ 0 := by decide

theorem witness_PermuteGathersByTheTable :
    (List.replicate 8 Cpx.zero).length = 2 ^ 3 ∧ 7 < 2 ^ 3 := by decide

theorem witness_TwiddleViewEntries : 3 ≤ 16 ∧ 0 ≤ 0 ∧ 1 ≤ 3 ∧ 2 ≤ 3 ∧ 3 ≤ 3 := by decide

theorem witness_ImpulseBecomesFlatSpectrum : 4 ≤ 16 ∧ 0 ≤ 0 := by decide

theorem witness_TransformChecksInOrder :
    (¬ ∃ m : Nat, (Latch.zero.n.toInt : Int) = 2 ^ m) ∧
    (latch4.n.toInt = 2 ^ 2 ∧ ({ latch4 with ptrRe := 0#32 } : Latch).ptrRe = 0#32 ∧
      latch4.ptrRe ≠ 0#32 ∧ latch4.ptrIm ≠ 0#32 ∧ State.reset.fftValid = false ∧
      fft4.fftValid = true ∧ fft4.fftLog2n.toNat ≠ 3 ∧ fft4.fftLog2n.toNat = 2) ∧
    ¬ (GoodBuffer 0x1002#32 (2 ^ 2) ∧ GoodBuffer 0x2000#32 (2 ^ 2)) ∧
    ¬ (GoodBuffer 0x1000#32 (2 ^ 2) ∧ GoodBuffer 0xFFFFFFF4#32 (2 ^ 2)) :=
  ⟨zero_not_pow2, by decide, fun h => absurd h.1.aligned (by decide),
    fun h => absurd h.2.inSpace (by decide)⟩

/-- The transform of length 4 is ready, with the imaginary buffer in place or at the top of memory. -/
theorem transformReady_4 (w : Word) (h : w = 0x2000#32 ∨ w = 0xFFFFFFF0#32) :
    TransformReady 2 (busyWith 2#32 { latch4 with ptrIm := w } fft4) := by
  rcases h with rfl | rfl <;>
    exact ⟨by decide, rfl, by decide, ⟨by decide, by decide, by decide⟩,
      ⟨by decide, by decide, by decide⟩, .inl (by decide)⟩

theorem witness_FftCompletes :
    TransformReady 2 runFft ∧ Served .fft runFft ∧
    TransformReady 2 (busyWith 2#32 { latch4 with ptrIm := 0xFFFFFFF0#32 } fft4) ∧
    Served .fft (busyWith 2#32 { latch4 with ptrIm := 0xFFFFFFF0#32 } fft4) :=
  ⟨transformReady_4 _ (.inl rfl), ⟨by decide, by decide⟩, transformReady_4 _ (.inr rfl),
    ⟨by decide, by decide⟩⟩

theorem witness_FftWritesItsBuffers :
    TransformReady 2 runFft ∧ Served .fft runFft ∧ Memory.wf runFft.mem = true ∧ 3 < 2 ^ 2 :=
  ⟨transformReady_4 _ (.inl rfl), ⟨by decide, by decide⟩, by decide, by decide⟩

theorem witness_IfftWritesItsBuffers :
    TransformReady 2 runIfft ∧ Served .ifft runIfft ∧ Memory.wf runIfft.mem = true ∧ 3 < 2 ^ 2 :=
  ⟨⟨by decide, rfl, by decide, ⟨by decide, by decide, by decide⟩,
      ⟨by decide, by decide, by decide⟩, .inl (by decide)⟩, ⟨by decide, by decide⟩, by decide,
    by decide⟩

/-- The FFT engine initialised for length 1, and a transform of that length running on a NaN. -/
def runFft1 : State :=
  busyWith 2#32 { latch4 with n := 1#32 }
    { fft4 with fftLog2n := 0#5, bitrev := bitrevGen 1, mem := Memory.writeWord [] 0x2000 0x7FC00001#32 }

theorem witness_FftOfLengthOneIsTheIdentity :
    TransformReady 0 runFft1 ∧ Served .fft runFft1 ∧ Memory.wf runFft1.mem = true ∧
    runFft1.bitrev = bitrevGen 1 :=
  ⟨⟨by decide, rfl, by decide, ⟨by decide, by decide, by decide⟩,
      ⟨by decide, by decide, by decide⟩, .inl (by decide)⟩, ⟨by decide, by decide⟩, by decide, rfl⟩

/-- A platform whose memory port answers with an error in one word of the imaginary buffer. -/
def errorAt200C : Platform := { Platform.allMemory with errors := [⟨0x200C, 4⟩] }

/-- A platform whose memory port answers with an error in the imaginary output of `CQT`. -/
def errorAt3100 : Platform := { Platform.allMemory with errors := [⟨0x3100, 4⟩] }

theorem witness_BusErrorFreesTheWrittenRanges :
    (commandError .fft { runFft with plat := errorAt200C } = none ∧
      buffersConflict (readOnlyBuffers .fft runFft.latch) (writtenBuffers .fft runFft.latch) = false ∧
      touches (commandBuffers .fft runFft.latch) errorAt200C.nonMemory = false ∧
      portAnswer errorAt200C (commandBuffers .fft runFft.latch) = .error ∧
      Memory.wf runFft.mem = true ∧
      ⟨0x2000#32, 4⟩ ∈ writtenBuffers .fft runFft.latch ∧ 3 < 4) ∧
    (commandError .ifft { runIfft with plat := errorAt200C } = none ∧
      portAnswer errorAt200C (commandBuffers .ifft runIfft.latch) = .error) ∧
    (commandError .cqt { runCqt with plat := errorAt3100 } = none ∧
      buffersConflict (readOnlyBuffers .cqt runCqt.latch) (writtenBuffers .cqt runCqt.latch) = false ∧
      touches (commandBuffers .cqt runCqt.latch) errorAt3100.nonMemory = false ∧
      portAnswer errorAt3100 (commandBuffers .cqt runCqt.latch) = .error ∧
      Memory.wf runCqt.mem = true ∧
      ⟨0x3100#32, 1⟩ ∈ writtenBuffers .cqt runCqt.latch ∧ 0 < 1) := by decide

theorem witness_OverlappingBuffersAreRefused :
    (transformError (busyWith 2#32 { latch4 with ptrIm := 0x100C#32 } fft4) = none ∧
      (Buffer.mk 0x1000#32 4).holds 0x100F = true ∧ (Buffer.mk 0x100C#32 4).holds 0x100F = true) ∧
    (cqtError (busyWith 5#32 { latchCqt with ptrOre := 0x3100#32 } bank1) = none ∧
      (Buffer.mk 0x3100#32 1).holds 0x3100 = true) ∧
    (cqtError (busyWith 5#32 { latchCqt with ptrOre := 0x1000#32 } bank1) = none ∧
      (Buffer.mk 0x1000#32 1).holds 0x1003 = true) ∧
    (cqtError (busyWith 5#32 { latchCqt with ptrOim := 0x2000#32 } bank1) = none ∧
      (Buffer.mk 0x2000#32 1).holds 0x2000 = true) := by decide

/-- `CQT` on the bank of one kernel has a next state, with other memory than before. -/
theorem runCqt_next :
    exec .cqt runCqt = .next (succeed { runCqt with mem := cqtMemory runCqt }) :=
  memoryCommand_served (i := .cqt) (err := cqtError runCqt) (s := runCqt) cqtMemory
    ⟨by decide, by decide, by decide⟩ (by decide)

theorem witness_OnlyTransfersChangeMemory :
    exec .cqt runCqt = .next (succeed { runCqt with mem := cqtMemory runCqt }) ∧
    (succeed { runCqt with mem := cqtMemory runCqt }).mem ≠ runCqt.mem :=
  ⟨runCqt_next, by decide +kernel⟩

theorem witness_TransferFrame :
    exec .cqt runCqt = .next (succeed { runCqt with mem := cqtMemory runCqt }) := runCqt_next

/-- The last byte of an input, the first byte of an output, a word that shares only its last byte with
an output, the places just outside, and the loads of an input. -/
theorem witness_RunningBuffersAreTheCores :
    runCqt.phase = .busy ∧ decode runCqt.latch.w = .ok .cqt ∧ runCqt.plat.nonMemory = [] ∧
    Touching (commandBuffers .cqt runCqt.latch) 0x1003 1 ∧
    Touching (commandBuffers .cqt runCqt.latch) 0x1003 4 ∧
    Touching (writtenBuffers .cqt runCqt.latch) 0x3000 1 ∧
    Touching (writtenBuffers .cqt runCqt.latch) 0x2FFD 4 ∧
    ¬ Touching (commandBuffers .cqt runCqt.latch) 0x1004 1 ∧
    ¬ Touching (commandBuffers .cqt runCqt.latch) 0x2FFC 4 ∧
    ¬ Touching (writtenBuffers .cqt runCqt.latch) 0x1003 1 ∧
    ¬ Touching (writtenBuffers .cqt runCqt.latch) 0x1000 4 ∧ 0x3000 + 4 ≤ 2 ^ 32 := by
  unfold Touching
  decide

theorem witness_WordsAreLittleEndian : 0 < 4 ∧ 3 < 4 := by decide

theorem witness_HostLoadAfterStore :
    ({ State.reset with inputs := [.memWrite 0xFFFFFFFC#32 1#32, .memRead 0xFFFFFFFC#32] } :
      State).inputs = .memWrite 0xFFFFFFFC#32 1#32 :: .memRead 0xFFFFFFFC#32 :: [] ∧
    State.reset.phase = .idle ∧ State.reset.plat.nonMemory = [] ∧
    Memory.wf State.reset.mem = true ∧ (0xFFFFFFFC#32).toNat + 4 ≤ 2 ^ 32 :=
  ⟨rfl, rfl, by decide, by decide, by decide⟩

theorem witness_InitCqtChecksInOrder :
    (¬ ∃ m : Nat, (Latch.zero.n.toInt : Int) = 2 ^ m) ∧
    (latch4.n.toInt = 2 ^ 2 ∧ latch4.bpo.toInt ≤ 0 ∧
      ({ latchInitCqt with oct := 0xFFFFFFFF#32 } : Latch).oct.toInt ≤ 0 ∧
      posfin 0x80000000#32 = false ∧ posfin 0x7F800000#32 = false ∧ posfin 0x7FC00000#32 = false) ∧
    (latchInitCqt.n.toInt = 2 ^ 2 ∧ 0 < latchInitCqt.bpo.toInt ∧ 0 < latchInitCqt.oct.toInt ∧
      posfin latchInitCqt.sr = true ∧ posfin latchInitCqt.fmin = true ∧ posfin 0x00000001#32 = true) ∧
    (bank1.cqtValid = true ∧ State.reset.cqtValid = false ∧ State.reset.fftValid = false ∧
      fft4.cqtValid = false ∧ fft4.fftValid = true ∧ fft4.fftLog2n.toNat ≠ 3 ∧
      fft4.fftLog2n.toNat = 2) ∧
    (fft4.cfg.kbankCap.toNat : Int) <
      ({ latchInitCqt with bpo := 0x7FFFFFFF#32 } : Latch).bpo.toInt *
        ({ latchInitCqt with oct := 0x7FFFFFFF#32 } : Latch).oct.toInt * 2 ^ 2 :=
  ⟨zero_not_pow2, by decide, by decide, by decide, by decide⟩

/-- The same on a core whose `MATH` is not the reference value. -/
def runInitCqtOther : State :=
  { runInitCqt with cfg := { Config.Params.default with
      math := { Config.MathTable.reference with cos := [(0x00000000#32, 0x3F000000#32)] } } }

theorem witness_InitCqtBuildsTheBank :
    InitCqtReady 2 1 2 runInitCqt ∧ InitCqtReady 2 1 2 runInitCqtOther ∧ 1 < 1 * 2 :=
  ⟨⟨by decide, by decide, by decide, by decide, by decide, by decide, by decide, rfl, rfl,
    by decide, by decide⟩, ⟨by decide, by decide, by decide, by decide, by decide, by decide,
    by decide, rfl, rfl, by decide, by decide⟩, by decide⟩

theorem witness_BinsAtNyquistHaveZeroKernels :
    fgt (centreFreq mathReference [] 0 0x3F800000#32 0x00000000#32) 0#32 = false ∧
    fge (centreFreq mathReference [] 0 0x3F800000#32 0x40800000#32) 0x40800000#32 = true := by
  decide +kernel

theorem witness_HannWindowEdges : 2 ≤ 2 ∧ 2 ≤ 2 ^ 24 ∧ 2 ^ 24 ≤ 2 ^ 24 := by decide

theorem witness_FilterLengthIsClamped :
    0 ≤ 24 ∧ 24 ≤ 24 ∧
    (isNaN 0x3F000000#32 = false ∧ fge (fceil [] 0x3F000000#32) oneF = true ∧
      fge (fceil [] 0x3F000000#32) (i2f (2 ^ 1)) = false) ∧
    (isNaN 0x40000000#32 = false ∧ fge (fceil [] 0x40000000#32) oneF = true ∧
      fge (fceil [] 0x40000000#32) (i2f (2 ^ 1)) = true) ∧
    (isNaN 0x7F800000#32 = false ∧ fge (fceil [] 0x7F800000#32) oneF = true ∧
      isInf 0x7F800000#32 = true) := by decide +kernel

theorem witness_CqtChecksInOrder :
    (Latch.zero.ptrRe = 0#32 ∧ latchCqt.ptrRe ≠ 0#32 ∧ latchCqt.ptrIm ≠ 0#32 ∧
      latchCqt.ptrOre ≠ 0#32 ∧ latchCqt.ptrOim ≠ 0#32) ∧
    (({ latchCqt with oct := 0#32 } : Latch).oct.toInt ≤ 0 ∧ latchCqt.bpo.toInt = (1 : Nat) ∧
      latchCqt.oct.toInt = (1 : Nat) ∧ State.reset.cqtValid = false ∧ bank1.cqtValid = true ∧
      bank1.cqtBins.toNat < 1 * 2 ∧ 1 * 1 ≤ bank1.cqtBins.toNat ∧
      latch4.n.toInt ≠ bank1.cqtLen.toNat ∧ latchCqt.n.toInt = (1 : Nat) ∧
      1 = bank1.cqtLen.toNat) ∧
    ¬ (GoodBuffer 0x1000#32 1 ∧ GoodBuffer 0x2000#32 1 ∧ GoodBuffer 0x3001#32 (1 * 1) ∧
      GoodBuffer 0x3100#32 (1 * 1)) :=
  ⟨by decide, by decide, fun h => absurd h.2.2.1.aligned (by decide)⟩

theorem witness_CqtWritesItsCoefficients :
    CqtReady 0 1 1 runCqt ∧ Served .cqt runCqt ∧ Memory.wf runCqt.mem = true ∧ 0 < 1 * 1 :=
  ⟨{ bpoPos := by decide, octPos := by decide, bpoArg := by decide, octArg := by decide
     initialised := rfl, fits := by decide, length := by decide, matching := by decide
     inReal := ⟨by decide, by decide, by decide⟩, inImag := ⟨by decide, by decide, by decide⟩
     outReal := ⟨by decide, by decide, by decide⟩, outImag := ⟨by decide, by decide, by decide⟩
     outsApart := .inl (by decide), realReal := .inl (by decide), realImag := .inl (by decide)
     imagReal := .inl (by decide), imagImag := .inl (by decide) },
    ⟨by decide, by decide⟩, by decide, by decide⟩

theorem witness_ZeroKernelGivesZero :
    (∀ i < 2 ^ 1, kernelAt [[Cpx.zero, Cpx.zero]] 0 i = ⟨0#32, 0#32⟩) ∧
    ∀ i < 2 ^ 1, isFinite (cpxAt [⟨0x80000000#32, 0x7F7FFFFF#32⟩, ⟨0xFF7FFFFF#32, 1#32⟩] i).re = true ∧
      isFinite (cpxAt [⟨0x80000000#32, 0x7F7FFFFF#32⟩, ⟨0xFF7FFFFF#32, 1#32⟩] i).im = true := by
  refine ⟨fun i hi => ?_, by decide⟩
  have : i = 0 ∨ i = 1 := by omega
  rcases this with rfl | rfl <;> rfl

/-- The invariant of an initialised, busy machine. -/
theorem inv_runFreeFft : Inv runFreeFft where
  params := by decide
  memory := by decide
  fftCleared := fun h => absurd h (by decide)
  fftBound := by decide
  bitrevBuilt := fun _ => by decide
  bankCleared := fun _ => ⟨rfl, rfl⟩
  bankShape := fun h => absurd h (by decide)
  bankStored := fun h => absurd h (by decide)
  resultCleared := fun _ => ⟨rfl, rfl⟩
  busyNotDone := fun _ => rfl
  okIsNoError := fun h => absurd h (by decide)

theorem witness_StepKeepsTheInvariant :
    Inv runFreeFft ∧ step runFreeFft = .next (succeed (freeFft runFreeFft)) :=
  ⟨inv_runFreeFft, rfl⟩

theorem witness_FftContextHasThreeWriters :
    (step runFreeFft = .next (succeed (freeFft runFreeFft)) ∧
      ¬ SameFftContext runFreeFft (succeed (freeFft runFreeFft))) ∧
    (step { fft4 with rst := true, inputs := [.rstRelease] } =
        .next (afterReset { fft4 with rst := true, inputs := [] }) ∧
      ¬ SameFftContext { fft4 with rst := true, inputs := [.rstRelease] }
        (afterReset { fft4 with rst := true, inputs := [] })) :=
  ⟨⟨rfl, fun h => absurd h.valid (by decide)⟩, rfl, fun h => absurd h.valid (by decide)⟩

theorem witness_BankHasThreeWriters :
    step runFreeCqt = .next (succeed (freeCqt runFreeCqt)) ∧
      ¬ SameBank runFreeCqt (succeed (freeCqt runFreeCqt)) :=
  ⟨rfl, fun h => absurd h.valid (by decide)⟩

theorem witness_IdentificationIsConstant :
    step runFreeFft = .next (succeed (freeFft runFreeFft)) := rfl

theorem witness_OperandRegistersReadBack :
    Reg.argFmin ∈ [Reg.ptrRe, .ptrIm, .ptrOre, .ptrOim, .argN, .argBpo, .argOct, .argSr, .argFmin] ∧
    Reg.status ≠ Reg.argFmin := by decide

theorem witness_CsrPortAccessRules :
    (0x7#4 ≠ 0xF#4 ∧ (0x02#8).toNat % 4 ≠ 0) ∧
    ((0x48#8).toNat % 4 = 0 ∧ 0x48 ≤ (0x48#8).toNat) ∧
    ((0xFC#8).toNat % 4 = 0 ∧ 0x48 ≤ (0xFC#8).toNat) ∧
    (Inv runFreeFft ∧ runFreeFft.cqtValid = false) ∧
    Reg.cqtLen ∈ [Reg.id, .cap, .kbcap, .status, .cqtBins, .cqtLen] :=
  ⟨by decide, by decide, by decide, ⟨inv_runFreeFft, rfl⟩, by decide⟩

theorem witness_CsrAccessKeepsTheRunningCommand : runFft.phase = .busy := rfl

theorem witness_SameCycleSetWinsAndAccepts :
    runFreeFft.rst = false ∧ runFreeFft.phase = .busy ∧
    coreTurn runFreeFft = .next (succeed (freeFft runFreeFft)) := ⟨rfl, rfl, rfl⟩

theorem witness_ResetReleaseGivesTheResetValues :
    ({ fft4 with rst := true } : State).rst = true ∧ fft4.phase = .idle := ⟨rfl, rfl⟩

theorem witness_ResetAbandonsTheCommand :
    (({ runFft with rst := true } : State).rst = true ∧ runFft.phase = .busy ∧
      decode runFft.latch.w = .ok .fft) ∧
    (({ busyWith 8#32 latch4 fft4 with rst := true } : State).rst = true ∧
      (busyWith 8#32 latch4 fft4).phase = .busy ∧
      decode (busyWith 8#32 latch4 fft4).latch.w = .error .illegalOpcode) :=
  ⟨⟨rfl, rfl, rfl⟩, rfl, rfl, rfl⟩

theorem witness_NanResultsAreFree :
    isNaN 0x7FC00000#32 = true ∧ isNaN 0xFFFFFFFF#32 = true ∧ 0 < 16777214 ∧
    isInf 0x7F800000#32 = true ∧ isInf 0xFF800000#32 = true ∧
    signBit 0x7F800000#32 ≠ signBit 0xFF800000#32 ∧
    isZero 0x80000000#32 = true ∧ isZero 0x00000000#32 = true := by decide

theorem witness_RoundingIsToNearestEven :
    0 < 2 ∧ roundMag 3 2 < infBits ∧ isFinite 0x00000001#32 = true ∧
    ((quanta (packMag false (roundMag 3 2)) * 2 : Nat) - (3 : Int)).natAbs =
      ((quanta 0x00000001#32 * 2 : Nat) - (3 : Int)).natAbs ∧
    quanta 0x00000001#32 ≠ quanta (packMag false (roundMag 3 2)) := by decide +kernel

theorem witness_RoundingIsExactOnBinary32 : isFinite 0x7F7FFFFF#32 = true ∧ 0 < 1 := by decide

theorem witness_ZeroAndInfinityEdges :
    0 < 1 ∧ (2 ^ 25 - 1) * 2 ^ 252 * 1 ≤ (2 ^ 25 - 1) * 2 ^ 252 ∧
    signedQuanta 0x80000000#32 + signedQuanta 0x00000000#32 = 0 ∧
    isFinite 0x80000000#32 = true ∧ isFinite 0x00000000#32 = true ∧
    isFinite 0x3F800000#32 = true ∧ isZero 0x3F800000#32 = false ∧ isZero 0x80000000#32 = true ∧
    isInf 0xFF800000#32 = true ∧ isNaN (fmul [] 0x80000000#32 0x3F800000#32) = false ∧
    isNaN (fdiv [] 0x80000000#32 0x3F800000#32) = false := by
  decide +kernel

theorem witness_ScalingIsDivision :
    24 ≤ 24 ∧ isNaN 0x00000001#32 = false ∧ isZero 0x80000000#32 = true ∧ isInf 0xFF800000#32 = true := by
  decide

theorem witness_CeilIsTheLeastIntegralAbove :
    isFinite 0xBF000000#32 = true ∧ isFinite 0x7F7FFFFF#32 = true ∧ isZero 0x80000000#32 = true ∧
    isInf 0xFF800000#32 = true := by decide

theorem witness_ComparisonsAreByValue :
    isNaN 0x80000000#32 = false ∧ isNaN 0x7F800000#32 = false ∧ isNaN 0xFF800000#32 = false ∧
    isNaN 0x7FC00000#32 = true := by decide

theorem witness_ReferenceMathBounds :
    isFinite 0x7F7FFFFF#32 = true ∧ (-149 : Int) ≤ -149 ∧ (-149 : Int) ≤ 127 ∧ (127 : Int) ≤ 127 ∧
    isZero 0x80000000#32 = true := by
  decide

/-- A platform with the register block at the top of the address space and a device below it. -/
def blockAtTop : Platform :=
  { Platform.allMemory with csrBase := some 0xFFFFFF00#32, devices := [⟨0x4000, 4⟩] }

theorem witness_HostReachesTheRegisterBlock :
    (blockAtTop.csrBase = some 0xFFFFFF00#32 ∧
      (0xFFFFFF10#32).toNat = (0xFFFFFF00#32).toNat + (0x10#8).toNat ∧
      (0xFFFFFFFC#32).toNat = (0xFFFFFF00#32).toNat + (0xFC#8).toNat ∧
      (0xFC#8).toNat + 4 ≤ 256 ∧ (0xFFFFFFFC#32).toNat + 4 ≤ 2 ^ 32 ∧ State.reset.rst = false ∧
      State.reset.phase = .idle) ∧
    (({ blockAtTop with csrBase := none } : Platform).csrBase = none ∧
      ∀ k < 4, ({ blockAtTop with csrBase := none } : Platform).isDevice ((0x4000#32).toNat + k) = true) :=
  by decide

end Sys2Proof.Tests
end

section
/-! SUPPORT. Host accesses at data addresses: which ranges are forbidden, what reaches the register
block, and what a device window leaves alone. -/

namespace Sys2Proof.Machine

/-! ## Forbidden ranges (rule R75) -/

@[simp] theorem anyHeld_nil (a n : Nat) : anyHeld [] a n = false := by
  simp [anyHeld]

theorem runningBuffers_of_idle {s : State} (h : s.phase = .idle) : runningBuffers s = [] := by
  simp [runningBuffers, h]

theorem runningWritten_of_idle {s : State} (h : s.phase = .idle) : runningWritten s = [] := by
  simp [runningWritten, h]

/-! ## The register block at `CSR_BASE` (rules R8, R41, R60) -/

/-- A CSR access that is not a whole aligned word is an error with no effect (rule R41). -/
theorem csrAccess_read_illegal {off : BitVec 8} {strobes : BitVec 4}
    (h : csrLegal off strobes = false) (s : State) :
    csrAccess (.read off strobes) s = { s with reply := some ⟨0#32, true⟩ } := by
  simp [csrAccess, h]

theorem csrAccess_write_illegal {off : BitVec 8} {strobes : BitVec 4}
    (h : csrLegal off strobes = false) (v : Word) (s : State) :
    csrAccess (.write off strobes v) s = { s with reply := some ⟨0#32, true⟩ } := by
  simp [csrAccess, h]

theorem csrLegal_one_strobe (off : BitVec 8) : csrLegal off 0x1#4 = false := by
  simp [csrLegal]

theorem blockStrobes_word {base a : Nat} (hb : base ≤ a) (ha : a + 4 ≤ base + 256) :
    blockStrobes base a 4 = 0xF#4 := if_pos ⟨rfl, hb, ha⟩

theorem blockStrobes_byte (base a : Nat) : blockStrobes base a 1 = 0x1#4 :=
  if_neg fun h => absurd h.1 (by decide)

/-- An access whose first byte is at offset `off` of the register block, outside the forbidden
ranges, is a CSR access at that offset. -/
theorem hostAccess_block {s t : State} {base : Word} {off : BitVec 8} {a n : Nat}
    {bs : List Buffer} {csr : BitVec 8 → BitVec 4 → CsrAccess}
    (hbase : s.plat.csrBase = some base) (hoff : a = base.toNat + off.toNat)
    (hrst : s.rst = false) (hn : 0 < n) (htop : a + n ≤ addressSpace)
    (hheld : anyHeld bs a n = false) :
    hostAccess a n bs csr s t = .next (csrAccess (csr off (blockStrobes base.toNat a n)) s) := by
  have hmeet : meet a n base.toNat 256 = true := by
    have := off.isLt
    simp only [meet, Bool.and_eq_true, decide_eq_true_eq]
    omega
  have hofs : BitVec.ofNat 8 (a - base.toNat) = off := by simp [hoff]
  simp [hostAccess, Nat.not_lt.2 htop, hheld, hbase, hmeet, hofs, csrTurn, hrst]

/-! ## Device windows (rule R283 H10) -/

theorem storeByte_device {p : Platform} {a : Nat} (h : p.isDevice a = true) (m : Memory) (b : Byte) :
    storeByte p m a b = m := if_pos h

theorem storeWord_device {p : Platform} {a : Nat} (h : ∀ k < 4, p.isDevice (a + k) = true)
    (m : Memory) (v : Word) : storeWord p m a v = m := by
  have h0 : p.isDevice a = true := h 0 (by decide)
  simp [storeWord, storeByte_device, h0, h]

/-- The answer to a host access changes the reply and the draw counter only. -/
theorem hostReply_keeps (a n : Nat) (data : Word) (s : State) :
    (hostReply a n data s).mem = s.mem ∧ SameEngine s (hostReply a n data s) ∧
      (hostReply a n data s).phase = s.phase ∧ (hostReply a n data s).latch = s.latch ∧
      irqLine (hostReply a n data s) = irqLine s ∧
      ∀ r : Reg, readReg r (hostReply a n data s) = readReg r s :=
  ⟨rfl, ⟨⟨rfl, rfl, rfl⟩, ⟨rfl, rfl, rfl, rfl⟩, rfl⟩, rfl, rfl, rfl, fun r => by cases r <;> rfl⟩

/-! ## Host loads and stores of an idle machine -/

/-- Nothing is forbidden while no command runs, so each access of the block is the CSR access
`hostAccess_block` gives, with all strobes set for a word only. -/
theorem serve_block {s : State} {base : Word} {off : BitVec 8} {a : Word}
    (hbase : s.plat.csrBase = some base) (hoff : a.toNat = base.toNat + off.toNat)
    (hrst : s.rst = false) (hidle : s.phase = .idle) (v : Word) (b : Byte) :
    (off.toNat + 4 ≤ 256 → a.toNat + 4 ≤ 2 ^ 32 →
      serve (.memRead a) s = .next (csrAccess (.read off 0xF#4) s) ∧
      serve (.memWrite a v) s = .next (csrAccess (.write off 0xF#4 v) s)) ∧
    serve (.memReadByte a) s = .next { s with reply := some ⟨0#32, true⟩ } ∧
    serve (.memWriteByte a b) s = .next { s with reply := some ⟨0#32, true⟩ } := by
  simp only [serve, runningBuffers_of_idle hidle, runningWritten_of_idle hidle]
  refine ⟨fun hin htop => ?_, ?_⟩
  · have hs := blockStrobes_word (base := base.toNat) (a := a.toNat) (by omega) (by omega)
    constructor <;>
      rw [hostAccess_block hbase hoff hrst (by decide) htop (anyHeld_nil _ _), hs]
  · have htop : a.toNat + 1 ≤ addressSpace := a.isLt
    have hillegal := csrLegal_one_strobe off
    constructor <;>
      rw [hostAccess_block hbase hoff hrst (by decide) htop (anyHeld_nil _ _), blockStrobes_byte]
    · rw [csrAccess_read_illegal hillegal]
    · rw [csrAccess_write_illegal hillegal]

/-- With no block and no command running, a host load goes on to its answer. -/
theorem serve_memRead_idle {s : State} {a : Word} (hidle : s.phase = .idle)
    (hbase : s.plat.csrBase = none) (htop : a.toNat + 4 ≤ addressSpace) :
    serve (.memRead a) s = .next (hostReply a.toNat 4 (loadWord s a.toNat) s) := by
  simp only [serve, runningWritten_of_idle hidle]
  exact hostAccess_ordinary hbase htop (anyHeld_nil _ _)

/-- With no block and no command running, a host store goes on to its answer and its bytes. -/
theorem serve_memWrite_idle {s : State} {a : Word} (v : Word) (hidle : s.phase = .idle)
    (hbase : s.plat.csrBase = none) (htop : a.toNat + 4 ≤ addressSpace) :
    serve (.memWrite a v) s =
      .next { hostReply a.toNat 4 0#32 s with mem := storeWord s.plat s.mem a.toNat v } := by
  simp only [serve, runningBuffers_of_idle hidle]
  exact hostAccess_ordinary hbase htop (anyHeld_nil _ _)

/-- With no block and no command running, a host store inside a device window is its answer alone. -/
theorem serve_memWrite_device {s : State} {a : Word} (v : Word) (hidle : s.phase = .idle)
    (hbase : s.plat.csrBase = none) (htop : a.toNat + 4 ≤ addressSpace)
    (hdev : ∀ k < 4, s.plat.isDevice (a.toNat + k) = true) :
    serve (.memWrite a v) s = .next (hostReply a.toNat 4 0#32 s) := by
  rw [serve_memWrite_idle v hidle hbase htop, storeWord_device hdev]
  rfl

/-- Settles O60: in the block by `serve_block`; in a device window both accesses answer a
`hostReply`, which keeps everything the statement names. -/
theorem hostReachesTheRegisterBlock : Obligations.HostReachesTheRegisterBlock := by
  unfold Obligations.HostReachesTheRegisterBlock
  refine ⟨fun s base off a v b hbase hoff hrst hidle => serve_block hbase hoff hrst hidle v b,
    fun s a v hidle hbase htop hdev => ?_⟩
  refine ⟨_, _, serve_memWrite_device v hidle hbase htop hdev,
    serve_memRead_idle hidle hbase htop, ?_⟩
  rintro w (rfl | rfl) <;> exact hostReply_keeps _ _ _ s

end Sys2Proof.Machine
end

section
/-! SUPPORT. What a command, the core's turn, a CSR access and a step can do, each said once. -/

namespace Sys2Proof.Machine

/-! ## Frames -/

theorem SameFftContext.trans {s t u : State} (h : SameFftContext s t) (k : SameFftContext t u) :
    SameFftContext s u :=
  ⟨k.valid.trans h.valid, k.log2n.trans h.log2n, k.bitrev.trans h.bitrev⟩

theorem SameBank.trans {s t u : State} (h : SameBank s t) (k : SameBank t u) : SameBank s u :=
  ⟨k.valid.trans h.valid, k.bins.trans h.bins, k.len.trans h.len, k.kbank.trans h.kbank⟩

/-- All engine state as one value. -/
def engineOf (s : State) :
    Bool × BitVec 5 × List Nat × Bool × Word × Word × List (List Cpx) × List Cpx :=
  (s.fftValid, s.fftLog2n, s.bitrev, s.cqtValid, s.cqtBins, s.cqtLen, s.kbank, s.scr)

theorem sameEngine_iff {s t : State} : SameEngine s t ↔ engineOf t = engineOf s := by
  simp only [engineOf, Prod.mk.injEq]
  constructor
  · rintro ⟨⟨hv, hl, hb⟩, ⟨hcv, hcb, hcl, hck⟩, hscr⟩
    exact ⟨hv, hl, hb, hcv, hcb, hcl, hck, hscr⟩
  · rintro ⟨hv, hl, hb, hcv, hcb, hcl, hck, hscr⟩
    exact ⟨⟨hv, hl, hb⟩, ⟨hcv, hcb, hcl, hck⟩, hscr⟩

theorem SameEngine.congr_right {s t u : State} (h : SameEngine s t)
    (hu : engineOf u = engineOf t) : SameEngine s u :=
  sameEngine_iff.2 (hu.trans (sameEngine_iff.1 h))

/-! ## What passing the checks says (rule R244) -/

/-- `ISPOW2` holds of the positive powers of two only (rule R124). -/
theorem eq_two_pow_of_isPow2 {v : Int} (h : isPow2 v = true) : ∃ m : Nat, v = 2 ^ m := by
  simp only [isPow2, Bool.and_eq_true, decide_eq_true_eq, beq_iff_eq] at h
  obtain ⟨hpos, hbits⟩ := h
  obtain ⟨m, hm⟩ := Nat.ne_zero_and_sub_one_eq_zero_iff_isPowerOfTwo.1 ⟨by omega, hbits⟩
  exact ⟨m, by rw [← Int.toNat_of_nonneg hpos.le, hm]; norm_cast⟩

/-- A row of checks is passed when the first is and the rest are. -/
theorem check_eq_none {c : Prop} [Decidable c] {e : ErrCode} {rest : Option ErrCode} :
    (if c then some e else rest) = none ↔ ¬c ∧ rest = none := by
  split <;> simp [*]

theorem initFftError_eq_none {s : State} (h : initFftError s = none) :
    isPow2 (nInt s.latch) = true ∧ s.fftValid = false ∧ nInt s.latch ≤ s.cfg.nMax := by
  simp only [initFftError, check_eq_none] at h
  obtain ⟨hpow, hfree, hlen, -⟩ := h
  exact ⟨by simpa using hpow, by simpa using hfree, by omega⟩

theorem initCqtError_eq_none {s : State} (h : initCqtError s = none) :
    0 < bpoInt s.latch ∧ 0 < octInt s.latch ∧ nInt s.latch = fftN s ∧
      binsInt s.latch * nInt s.latch ≤ s.cfg.kbankCap.toNat := by
  simp only [initCqtError, check_eq_none] at h
  obtain ⟨-, hpos, -, -, -, hlen, hfits, -⟩ := h
  exact ⟨by omega, by omega, not_not.1 hlen, by omega⟩

theorem bufok_inSpace {p : Word} {len : Nat} (h : bufok p len = true) :
    p.toNat + 4 * len ≤ addressSpace := by
  simp only [bufok, Bool.and_eq_true, decide_eq_true_eq] at h
  unfold addressSpace
  omega

theorem transformError_eq_none {s : State} (h : transformError s = none) :
    bufok s.latch.ptrRe (nLen s.latch) = true ∧ bufok s.latch.ptrIm (nLen s.latch) = true := by
  simp only [transformError, check_eq_none] at h
  obtain ⟨-, -, -, -, hbufs, -⟩ := h
  simpa using hbufs

theorem cqtError_eq_none {s : State} (h : cqtError s = none) :
    bufok s.latch.ptrOre (binsLen s.latch) = true ∧
      bufok s.latch.ptrOim (binsLen s.latch) = true := by
  simp only [cqtError, check_eq_none] at h
  obtain ⟨-, -, -, -, -, hbufs, -⟩ := h
  simp only [Bool.or_eq_true, Bool.not_eq_true', not_or, Bool.not_eq_false] at hbufs
  obtain ⟨⟨-, hore⟩, hoim⟩ := hbufs
  exact ⟨hore, hoim⟩

/-! ## The memory a command leaves is canonical -/

theorem bufferAddresses_inSpace {b : Buffer} {a : Nat} (h : a ∈ bufferAddresses b) :
    a + 4 ≤ addressSpace := by
  unfold bufferAddresses at h
  split at h
  · cases h
  · simpa using (List.mem_filter.1 h).2

theorem scramble_wf {d : Draw} {bs : List Buffer} {m : Memory} (hm : Memory.wf m = true) :
    Memory.wf (scramble d bs m) = true := by
  refine List.foldlRecOn (motive := fun m => Memory.wf m = true) _ _ hm fun m hm a ha => ?_
  obtain ⟨b, -, hab⟩ := List.mem_flatMap.1 ha
  exact writeWord_wf hm (bufferAddresses_inSpace hab)

theorem writeCpx_wf {m : Memory} {p q : Word} {xs : List Cpx} (hm : Memory.wf m = true)
    (hp : bufok p xs.length = true) (hq : bufok q xs.length = true) :
    Memory.wf (writeCpx m p q xs) = true := by
  refine writeWords_wf (writeWords_wf hm ?_) ?_
  · simpa using bufok_inSpace hp
  · simpa using bufok_inSpace hq

theorem fftMemory_wf {s : State} (h : transformError s = none) (hm : Memory.wf s.mem = true) :
    Memory.wf (fftMemory s) = true := by
  obtain ⟨hre, him⟩ := transformError_eq_none h
  apply writeCpx_wf hm <;> simpa [readReal, readImag, readBuffer_length]

theorem ifftMemory_wf {s : State} (h : transformError s = none) (hm : Memory.wf s.mem = true) :
    Memory.wf (ifftMemory s) = true := by
  obtain ⟨hre, him⟩ := transformError_eq_none h
  apply writeCpx_wf hm <;> simpa [readReal, readImag, readBuffer_length]

theorem cqtMemory_wf {s : State} (h : cqtError s = none) (hm : Memory.wf s.mem = true) :
    Memory.wf (cqtMemory s) = true := by
  obtain ⟨hre, him⟩ := cqtError_eq_none h
  apply writeCpx_wf hm <;> simpa

theorem abandonedMemory_wf {s : State} (hm : Memory.wf s.mem = true) :
    Memory.wf (abandonedMemory s) = true := by
  unfold abandonedMemory
  split
  · exact scramble_wf hm
  · exact hm

theorem abandonedMemory_of_idle {s : State} (h : s.phase = .idle) : abandonedMemory s = s.mem := by
  simp [abandonedMemory, h]

/-! ## Commands -/

/-- Everything a command can leave: a completion of the state it found, of that state with other
canonical memory, or of that state with one engine context built or freed. -/
inductive ExecResult (s : State) : Instr → State → Prop
  | completed (i : Instr) (e : ErrCode) : ExecResult s i (complete e s)
  | transferred (i : Instr) (e : ErrCode) (m : Memory) (hi : i = .fft ∨ i = .ifft ∨ i = .cqt)
      (hm : Memory.wf s.mem = true → Memory.wf m = true) :
      ExecResult s i (complete e { s with mem := m })
  | fftBuilt (h : initFftError s = none) :
      ExecResult s .initFft (complete .noError (buildFft (nLen s.latch) s))
  | fftFreed : ExecResult s .freeFft (complete .noError (freeFft s))
  | bankBuilt (h : initCqtError s = none) :
      ExecResult s .initCqt (complete .noError (buildCqt s))
  | bankFreed : ExecResult s .freeCqt (complete .noError (freeCqt s))

/-- A memory command with a canonical result completes, with other memory if its checks passed. -/
theorem memoryCommand_result {i : Instr} {err : Option ErrCode} {result : State → Memory}
    {s t : State} (hi : i = .fft ∨ i = .ifft ∨ i = .cqt)
    (hm : err = none → Memory.wf s.mem = true → Memory.wf (result s) = true)
    (h : memoryCommand i err result s = .next t) : ExecResult s i t := by
  obtain ⟨e, -, rfl⟩ | ⟨-, -, rfl⟩ | ⟨hr, -, rfl⟩ := memoryCommand_next h
  · exact .completed ..
  · exact .transferred _ _ _ hi scramble_wf
  · exact .transferred _ _ _ hi (hm hr.1)

theorem exec_result {i : Instr} {s t : State} (h : exec i s = .next t) : ExecResult s i t := by
  cases i with
  | initFft =>
    obtain ⟨e, -, he⟩ | ⟨hn, he⟩ := execInitFft_cases s <;> cases he.symm.trans h
    · exact .completed ..
    · exact .fftBuilt hn
  | fft => exact memoryCommand_result (.inl rfl) fftMemory_wf h
  | ifft => exact memoryCommand_result (.inr (.inl rfl)) ifftMemory_wf h
  | initCqt =>
    obtain ⟨e, -, he⟩ | ⟨hn, he⟩ := execInitCqt_cases s <;> cases he.symm.trans h
    · exact .completed ..
    · exact .bankBuilt hn
  | cqt => exact memoryCommand_result (.inr (.inr rfl)) cqtMemory_wf h
  | freeFft =>
    cases h
    exact .fftFreed
  | freeCqt =>
    cases h
    exact .bankFreed

/-- A command completes, with some result, and leaves the host's registers and the outside alone. -/
theorem ExecResult.completes {i : Instr} {s t : State} (h : ExecResult s i t) :
    CompletedWith t.err t ∧ SameOutside s t := by
  cases h <;> exact ⟨⟨rfl, rfl, rfl, rfl, rfl⟩, by constructor <;> rfl⟩

/-- Only `INIT_FFT` and `FREE_FFT` write the FFT context (rules R34, R35). -/
theorem ExecResult.sameFftContext {i : Instr} {s t : State} (h : ExecResult s i t)
    (hi : ¬ (i = .initFft ∨ i = .freeFft)) : SameFftContext s t := by
  cases h with
  | fftBuilt => exact absurd (.inl rfl) hi
  | fftFreed => exact absurd (.inr rfl) hi
  | _ => exact ⟨rfl, rfl, rfl⟩

/-- Only `INIT_CQT` and `FREE_CQT` write the kernel bank (rules R37, R39). -/
theorem ExecResult.sameBank {i : Instr} {s t : State} (h : ExecResult s i t)
    (hi : ¬ (i = .initCqt ∨ i = .freeCqt)) : SameBank s t := by
  cases h with
  | bankBuilt => exact absurd (.inl rfl) hi
  | bankFreed => exact absurd (.inr rfl) hi
  | _ => exact ⟨rfl, rfl, rfl, rfl⟩

/-! ## The core's turn -/

/-- Everything the core's turn can leave. -/
inductive CoreResult (s : State) : State → Prop
  | waits : CoreResult s s
  | runs {t : State} (i : Instr) (hrst : s.rst = false) (hbusy : s.phase = .busy)
      (hd : decode s.latch.w = .ok i) (h : ExecResult s i t) : CoreResult s t
  | illegal (hrst : s.rst = false) (hbusy : s.phase = .busy) :
      CoreResult s (complete .illegalCmd s)

theorem coreTurn_result {s t : State} (h : coreTurn s = .next t) : CoreResult s t := by
  obtain ⟨-, he⟩ | ⟨hrst, hbusy, ⟨i, hd, he⟩ | ⟨-, -, he⟩⟩ := coreTurn_cases s
  · cases he.symm.trans h
    exact .waits
  · exact .runs i hrst hbusy hd (exec_result (he.symm.trans h))
  · cases he.symm.trans h
    exact .illegal hrst hbusy

/-- The turn of a busy core out of reset completes what is latched and leaves the host's registers
and the outside alone (rule R245). -/
theorem coreTurn_completes {s t : State} (hrst : s.rst = false) (hbusy : s.phase = .busy)
    (h : coreTurn s = .next t) : CompletedWith t.err t ∧ SameOutside s t := by
  obtain ⟨hwait, -⟩ | ⟨-, -, ⟨i, -, he⟩ | ⟨-, -, he⟩⟩ := coreTurn_cases s
  · simp [hrst, hbusy] at hwait
  · exact (exec_result (he.symm.trans h)).completes
  · cases he.symm.trans h
    exact ⟨⟨rfl, rfl, rfl, rfl, rfl⟩, by constructor <;> rfl⟩

/-! ## CSR accesses -/

/-- All but the host's registers, `OVR_P`, the pending bits, the reply and the outside: what an
access of another register than `CMD` leaves alone. -/
structure SameCore (s t : State) : Prop where
  cfg : t.cfg = s.cfg
  engine : SameEngine s t
  mem : t.mem = s.mem
  draws : t.draws = s.draws
  latch : t.latch = s.latch
  phase : t.phase = s.phase
  done : t.done = s.done
  ok : t.ok = s.ok
  err : t.err = s.err

theorem SameCore.withReply {s t : State} (h : SameCore s t) (reply : Option Reply) :
    SameCore s { t with reply := reply } :=
  { h with engine := h.engine.congr_right rfl }

/-- A host write leaves the core alone, unless it is a `CMD` write while idle. -/
theorem writeReg_sameCore {r : Reg} {s : State} (h : r = .cmd → s.phase = .busy) (v : Word) :
    SameCore s (writeReg r v s) := by
  cases r with
  | cmd =>
    rw [writeReg, accept_busy v (h rfl)]
    exact ⟨rfl, sameEngine_iff.2 rfl, rfl, rfl, rfl, rfl, rfl, rfl, rfl⟩
  | _ => exact ⟨rfl, sameEngine_iff.2 rfl, rfl, rfl, rfl, rfl, rfl, rfl, rfl⟩

/-- What a CSR access can leave: the core as it was, or, if none was running, a command accepted. -/
inductive CsrResult (s : State) : State → Prop
  | kept {t : State} (h : SameCore s t) : CsrResult s t
  | accepted (w : Word) (reply : Option Reply) (hidle : s.phase = .idle) :
      CsrResult s { accept w s with reply := reply }

theorem writeReg_result (r : Reg) (v : Word) (reply : Option Reply) (s : State) :
    CsrResult s { writeReg r v s with reply := reply } := by
  by_cases h : r = .cmd ∧ s.phase = .idle
  · obtain ⟨rfl, hidle⟩ := h
    exact .accepted v reply hidle
  · refine .kept ((writeReg_sameCore (fun hr => ?_) v).withReply reply)
    cases hp : s.phase with
    | idle => exact absurd ⟨hr, hp⟩ h
    | busy => rfl

theorem csrAccess_result (a : CsrAccess) (s : State) : CsrResult s (csrAccess a s) := by
  -- A write of `ID` is ignored, so it stands for every access with no effect but the reply.
  have hreply : ∀ reply, CsrResult s { s with reply := reply } := (writeReg_result .id 0#32 · s)
  cases a with
  | read off strobes =>
    simp only [csrAccess]
    split <;> exact hreply _
  | write off strobes v =>
    simp only [csrAccess, writeOffset]
    split
    · split
      · exact writeReg_result _ v _ s
      · exact hreply _
    · exact hreply _

/-! ## Steps -/

/-- The release of a reset takes effect in this state on this input (rule R270). -/
def Releases (s : State) (e : Input) : Prop := s.rst = true ∧ e = .rstRelease

/-- Everything serving an input can leave: a turn of the core, a CSR access, both in this order, a
reset released, or a change of nothing but the levels outside the core, memory by a host store, the
reply and the draw counter. -/
inductive ServeResult (e : Input) (s : State) : State → Prop
  | core {t : State} (h : CoreResult s t) : ServeResult e s t
  | csr {t : State} (h : CsrResult s t) : ServeResult e s t
  | coreWithCsr {t u : State} (completed : Bool) (h : CoreResult s t) (hu : CsrResult t u) :
      ServeResult e s (setWins completed u)
  | released (h : Releases s e) : ServeResult e s (afterReset s)
  | outside {plat : Platform} {rst : Bool} {mem : Memory} {reply : Option Reply} {draws : Nat}
      (hm : Memory.wf s.mem = true → Memory.wf mem = true) :
      ServeResult e s
        { s with plat := plat, rst := rst, mem := mem, reply := reply, draws := draws }

theorem csrTurn_result {e : Input} {a : CsrAccess} {s t : State} (h : csrTurn a s = .next t) :
    ServeResult e s t := by
  unfold csrTurn at h
  split at h <;> cases h
  exact .csr (csrAccess_result a s)

theorem sameCycle_result {e : Input} {a : CsrAccess} {s t : State} (h : sameCycle a s = .next t) :
    ServeResult e s t := by
  unfold sameCycle at h
  split at h
  · cases h
  · split at h <;> cases h
    rename_i u hu
    exact .coreWithCsr _ (coreTurn_result hu) (csrAccess_result a u)

/-- A host access at a data address is a CSR access, or goes on to the state it was given. -/
theorem hostAccess_result {e : Input} {a n : Nat} {bs : List Buffer}
    {csr : BitVec 8 → BitVec 4 → CsrAccess} {s t u : State}
    (ht : a + n ≤ addressSpace → ServeResult e s t) (h : hostAccess a n bs csr s t = .next u) :
    ServeResult e s u := by
  obtain ⟨htop, -, rfl | ⟨-, off, strobes, rfl⟩⟩ := hostAccess_next h
  · exact ht htop
  · exact .csr (csrAccess_result _ s)

theorem serve_result {e : Input} {s t : State} (h : serve e s = .next t) : ServeResult e s t := by
  cases e with
  | core => exact .core (coreTurn_result h)
  | csr a => exact csrTurn_result h
  | coreWithCsr a => exact sameCycle_result h
  | memRead a => exact hostAccess_result (fun _ => .outside id) h
  | memWrite a v =>
    simp only [serve] at h
    refine hostAccess_result (fun ha => ?_) h
    exact .outside (storeWord_wf · ha)
  | memReadByte a => exact hostAccess_result (fun _ => .outside id) h
  | memWriteByte a b =>
    simp only [serve] at h
    refine hostAccess_result (fun ha => ?_) h
    exact .outside (storeByte_wf · ha)
  | rstAssert =>
    cases h
    exact .outside id
  | rstRelease =>
    simp only [serve] at h
    split at h <;> cases h
    · exact .released ⟨‹_›, rfl⟩
    · exact .outside id
  | platform p =>
    cases h
    exact .outside id

/-- A step is a turn of the core when nothing else is to happen, else it serves the oldest input. -/
theorem step_result {s t : State} (h : step s = .next t) :
    CoreResult s t ∨
      ∃ e rest, s.inputs = e :: rest ∧ ServeResult e { s with inputs := rest } t := by
  cases hi : s.inputs with
  | nil => exact .inl (coreTurn_result ((step_core hi).symm.trans h))
  | cons e rest => exact .inr ⟨e, rest, rfl, serve_result ((step_input hi).symm.trans h)⟩

end Sys2Proof.Machine
end

section
/-! SUPPORT. The invariant: it holds after reset and every operation keeps it. -/

namespace Sys2Proof.Machine

/-- Settles O37: nothing is valid, done or busy, so most clauses say nothing. -/
theorem resetMeetsTheInvariant : Obligations.ResetMeetsTheInvariant where
  params := by decide
  memory := rfl
  fftCleared := fun _ => rfl
  fftBound := by decide
  bitrevBuilt := fun h => absurd h (by decide)
  bankCleared := fun _ => ⟨rfl, rfl⟩
  bankShape := fun h => absurd h (by decide)
  bankStored := fun h => absurd h (by decide)
  resultCleared := fun _ => ⟨rfl, rfl⟩
  busyNotDone := fun h => absurd h (by decide)
  okIsNoError := fun h => absurd h (by decide)

/-! ## The commands -/

theorem inv_complete {s : State} (h : Inv s) (e : ErrCode) : Inv (complete e s) :=
  { h with
    resultCleared := fun hd => absurd hd (by simp)
    busyNotDone := fun hp => absurd hp (by simp)
    okIsNoError := fun _ => rfl }

theorem inv_withMemory {s : State} (h : Inv s) {m : Memory}
    (hm : Memory.wf s.mem = true → Memory.wf m = true) : Inv { s with mem := m } :=
  { h with memory := hm h.memory }

/-- `LOG2_NMAX` is at most 24 (rule R8), so a length the tables allow has an exponent that fits the
five bits of `FFT_LOG2N`. -/
theorem Inv.log2NMax_le {s : State} (h : Inv s) : s.cfg.log2NMax.toNat ≤ 24 := by
  have := h.params
  simp only [Config.Params.wellFormed, Bool.and_eq_true, decide_eq_true_eq] at this
  exact this.1

/-- Passing the checks of `INIT_FFT` makes the latched length `2^m` with `m` at most `LOG2_NMAX`. -/
theorem nLen_of_initFftError {s : State} (h : initFftError s = none) :
    ∃ m ≤ s.cfg.log2NMax.toNat, nLen s.latch = 2 ^ m := by
  obtain ⟨hpow, -, hlen⟩ := initFftError_eq_none h
  obtain ⟨m, hm⟩ := eq_two_pow_of_isPow2 hpow
  have hle : 2 ^ m ≤ 2 ^ s.cfg.log2NMax.toNat := by
    unfold Config.Params.nMax at hlen
    exact_mod_cast hm ▸ hlen
  refine ⟨m, (Nat.pow_le_pow_iff_right (by decide)).1 hle, ?_⟩
  rw [nLen, hm]
  norm_cast

theorem inv_buildFft {s : State} (h : Inv s) (hc : initFftError s = none) :
    Inv (buildFft (nLen s.latch) s) := by
  obtain ⟨m, hle, hn⟩ := nLen_of_initFftError hc
  have hlog : (BitVec.ofNat 5 (Nat.log2 (nLen s.latch))).toNat = m := by
    have := h.log2NMax_le
    rw [hn, Nat.log2_two_pow, BitVec.toNat_ofNat, Nat.mod_eq_of_lt (by omega)]
  refine { h with fftCleared := fun hv => absurd hv (by simp), fftBound := ?_, bitrevBuilt := ?_ }
  · simpa only [buildFft_fftLog2n, buildFft_cfg, hlog]
  · intro _
    rw [fftN, buildFft_fftLog2n, buildFft_bitrev, hlog, hn]

theorem inv_freeFft {s : State} (h : Inv s) : Inv (freeFft s) :=
  { h with
    fftCleared := fun _ => rfl
    fftBound := Nat.zero_le _
    bitrevBuilt := fun hv => absurd hv (by simp) }

/-- Passing the checks of `INIT_CQT` makes the latched length the engine's, and the bank non-empty
and small enough for `KBANK`. -/
theorem lens_of_initCqtError {s : State} (h : initCqtError s = none) :
    nLen s.latch = fftN s ∧ 1 ≤ binsLen s.latch ∧
      binsLen s.latch * nLen s.latch ≤ s.cfg.kbankCap.toNat := by
  obtain ⟨hbpo, hoct, hlen, hfits⟩ := initCqtError_eq_none h
  have hn : nLen s.latch = fftN s := by simp [nLen, hlen]
  obtain ⟨b, hb⟩ := Int.eq_ofNat_of_zero_le hbpo.le
  obtain ⟨o, ho⟩ := Int.eq_ofNat_of_zero_le hoct.le
  rw [hb] at hbpo
  rw [ho] at hoct
  have hbins : binsLen s.latch = b * o := by simp [binsLen, hb, ho]
  refine ⟨hn, ?_, ?_⟩
  · rw [hbins]
    exact Nat.mul_pos (by omega) (by omega)
  · rw [hbins, hn]
    rw [binsInt, hb, ho, hlen] at hfits
    exact_mod_cast hfits

theorem inv_buildCqt {s : State} (h : Inv s) (hc : initCqtError s = none) : Inv (buildCqt s) := by
  obtain ⟨hn, hpos, hfits⟩ := lens_of_initCqtError hc
  have hnpos : 1 ≤ nLen s.latch := hn ▸ Nat.one_le_two_pow
  have hcap := s.cfg.kbankCap.isLt
  have hbins : (BitVec.ofNat 32 (binsLen s.latch)).toNat = binsLen s.latch :=
    Nat.mod_eq_of_lt (((Nat.le_mul_of_pos_right _ hnpos).trans hfits).trans_lt hcap)
  have hlen : (BitVec.ofNat 32 (nLen s.latch)).toNat = nLen s.latch :=
    Nat.mod_eq_of_lt (((Nat.le_mul_of_pos_left _ hpos).trans hfits).trans_lt hcap)
  refine { h with bankCleared := fun hv => absurd hv (by simp), bankShape := ?_, bankStored := ?_ }
  · intro _
    simp only [buildCqt_cqtLen, buildCqt_cqtBins, buildCqt_cfg, hbins, hlen]
    refine ⟨⟨_, hn⟩, ?_, hpos, hfits⟩
    rw [hn]
    exact Nat.pow_le_pow_right (by decide) h.fftBound
  · intro _
    simp only [buildCqt_cqtLen, buildCqt_cqtBins, buildCqt_kbank, hbins, hlen]
    refine ⟨by simp [builtBank], fun k hk => ?_⟩
    obtain ⟨i, -, rfl⟩ := List.mem_map.1 hk
    rw [kernel_length, hn, fftN]

theorem inv_freeCqt {s : State} (h : Inv s) : Inv (freeCqt s) :=
  { h with
    bankCleared := fun _ => ⟨rfl, rfl⟩
    bankShape := fun hv => absurd hv (by simp)
    bankStored := fun hv => absurd hv (by simp) }

theorem ExecResult.keeps_inv {i : Instr} {s t : State} (h : ExecResult s i t) (hs : Inv s) :
    Inv t := by
  cases h with
  | completed _ e => exact inv_complete hs e
  | transferred _ e _ _ hm => exact inv_complete (inv_withMemory hs hm) e
  | fftBuilt hc => exact inv_complete (inv_buildFft hs hc) _
  | fftFreed => exact inv_complete (inv_freeFft hs) _
  | bankBuilt hc => exact inv_complete (inv_buildCqt hs hc) _
  | bankFreed => exact inv_complete (inv_freeCqt hs) _

/-! ## The core's turn, CSR accesses, reset -/

theorem CoreResult.keeps_inv {s t : State} (h : CoreResult s t) (hs : Inv s) : Inv t := by
  cases h with
  | waits => exact hs
  | runs i _ _ _ h => exact h.keeps_inv hs
  | illegal => exact inv_complete hs _

/-- The invariant speaks of nothing but what an access of another register than `CMD` leaves. -/
theorem inv_of_sameCore {s t : State} (hs : Inv s) (h : SameCore s t) : Inv t := by
  obtain ⟨hcfg, ⟨⟨hfv, hfl, hfb⟩, ⟨hcv, hcb, hcl, hck⟩, -⟩, hmem, -, -, hphase, hdone, hok,
    herr⟩ := h
  constructor <;>
    simp only [fftN, hcfg, hfv, hfl, hfb, hcv, hcb, hcl, hck, hmem, hphase, hdone, hok, herr]
  · exact hs.params
  · exact hs.memory
  · exact hs.fftCleared
  · exact hs.fftBound
  · exact hs.bitrevBuilt
  · exact hs.bankCleared
  · exact hs.bankShape
  · exact hs.bankStored
  · exact hs.resultCleared
  · exact hs.busyNotDone
  · exact hs.okIsNoError

theorem inv_accept {s : State} (h : Inv s) (w : Word) (hidle : s.phase = .idle) :
    Inv (accept w s) := by
  rw [accept_idle w hidle]
  exact { h with
    resultCleared := fun _ => ⟨rfl, rfl⟩
    busyNotDone := fun _ => rfl
    okIsNoError := fun hd => absurd hd (by simp) }

theorem CsrResult.keeps_inv {s t : State} (h : CsrResult s t) (hs : Inv s) : Inv t := by
  cases h with
  | kept h => exact inv_of_sameCore hs h
  | accepted w reply hidle => exact { inv_accept hs w hidle with }

theorem inv_afterReset {s : State} (h : Inv s) : Inv (afterReset s) :=
  { resetMeetsTheInvariant with
    params := h.params
    memory := abandonedMemory_wf h.memory
    fftBound := Nat.zero_le _
    bankShape := fun hv => absurd hv Bool.false_ne_true }

theorem ServeResult.keeps_inv {e : Input} {s t : State} (h : ServeResult e s t) (hs : Inv s) :
    Inv t := by
  cases h with
  | core h => exact h.keeps_inv hs
  | csr h => exact h.keeps_inv hs
  | coreWithCsr _ h hu => exact { hu.keeps_inv (h.keeps_inv hs) with }
  | released => exact inv_afterReset hs
  | outside hm => exact { hs with memory := hm hs.memory }

/-- Settles O38: each thing a step can do keeps the invariant. -/
theorem stepKeepsTheInvariant : Obligations.StepKeepsTheInvariant := by
  unfold Obligations.StepKeepsTheInvariant
  intro s t hs h
  obtain h | ⟨e, rest, -, h⟩ := step_result h
  · exact h.keeps_inv hs
  · exact h.keeps_inv { hs with }

end Sys2Proof.Machine
end

section
/-! SUPPORT. Who writes the engine's state, and the parameters, which nothing writes. -/

namespace Sys2Proof.Machine

/-! ## The engine's writers -/

/-- A relation between states that speaks of engine state only, and the commands that may break
it. -/
structure EngineFrame (R : State → State → Prop) (writer : Instr → Prop) : Prop where
  ofEngine : ∀ {s t}, SameEngine s t → R s t
  trans : ∀ {s t u}, R s t → R t u → R s u
  ofExec : ∀ {s i t}, ExecResult s i t → ¬ writer i → R s t

/-- A command of these is latched and running, out of reset. -/
def Running (writer : Instr → Prop) (s : State) : Prop :=
  s.rst = false ∧ s.phase = .busy ∧ ∃ i, decode s.latch.w = .ok i ∧ writer i

theorem CsrResult.sameEngine {s t : State} (h : CsrResult s t) : SameEngine s t := by
  cases h with
  | kept h => exact h.engine
  | accepted w reply hidle =>
    simp only [accept_idle w hidle]
    exact sameEngine_iff.2 rfl

section
variable {R : State → State → Prop} {writer : Instr → Prop}

theorem EngineFrame.ofCoreTurn (F : EngineFrame R writer) {s t : State} (h : CoreResult s t)
    (hw : ¬ Running writer s) : R s t := by
  cases h with
  | waits => exact F.ofEngine (sameEngine_iff.2 rfl)
  | runs i hrst hbusy hd h => exact F.ofExec h fun hi => hw ⟨hrst, hbusy, i, hd, hi⟩
  | illegal => exact F.ofEngine (sameEngine_iff.2 rfl)

theorem EngineFrame.ofServe (F : EngineFrame R writer) {e : Input} {s t : State}
    (h : ServeResult e s t) (hr : ¬ Releases s e) (hw : ¬ Running writer s) : R s t := by
  cases h with
  | core h => exact F.ofCoreTurn h hw
  | csr h => exact F.ofEngine h.sameEngine
  | coreWithCsr _ h hu =>
    exact F.trans (F.ofCoreTurn h hw) (F.ofEngine (hu.sameEngine.congr_right rfl))
  | released h => exact absurd h hr
  | outside => exact F.ofEngine (sameEngine_iff.2 rfl)

/-- A step that breaks the frame releases a reset or runs one of the writers. -/
theorem EngineFrame.ofStep (F : EngineFrame R writer) {s t : State} (h : step s = .next t)
    (hn : ¬ R s t) :
    (s.rst = true ∧ ∃ rest, s.inputs = .rstRelease :: rest) ∨ Running writer s := by
  by_contra hno
  obtain ⟨hr, hw⟩ := not_or.1 hno
  obtain h | ⟨e, rest, hi, h⟩ := step_result h
  · exact hn (F.ofCoreTurn h hw)
  · have hserve : R { s with inputs := rest } t := by
      refine F.ofServe h (fun ⟨hrst, he⟩ => hr ⟨hrst, rest, ?_⟩) hw
      rw [hi, he]
    have hinputs : SameEngine s { s with inputs := rest } := sameEngine_iff.2 rfl
    exact hn (F.trans (F.ofEngine hinputs) hserve)

end

theorem fftContext_frame :
    EngineFrame SameFftContext (fun i => i = .initFft ∨ i = .freeFft) where
  ofEngine := SameEngine.fft
  trans := SameFftContext.trans
  ofExec := ExecResult.sameFftContext

theorem bank_frame : EngineFrame SameBank (fun i => i = .initCqt ∨ i = .freeCqt) where
  ofEngine := SameEngine.bank
  trans := SameBank.trans
  ofExec := ExecResult.sameBank

/-- One of two commands that is latched and running is the one or the other. -/
theorem Running.either {s : State} {i j : Instr} (h : Running (fun k => k = i ∨ k = j) s) :
    s.rst = false ∧ s.phase = .busy ∧ (decode s.latch.w = .ok i ∨ decode s.latch.w = .ok j) := by
  obtain ⟨hrst, hbusy, k, hd, rfl | rfl⟩ := h
  · exact ⟨hrst, hbusy, .inl hd⟩
  · exact ⟨hrst, hbusy, .inr hd⟩

/-- Settles O39: the frame of the FFT context, for its two writers. -/
theorem fftContextHasThreeWriters : Obligations.FftContextHasThreeWriters := by
  unfold Obligations.FftContextHasThreeWriters
  exact fun s t h hn => (fftContext_frame.ofStep h hn).imp_right Running.either

/-- Settles O40: the frame of the kernel bank, for its two writers. -/
theorem bankHasThreeWriters : Obligations.BankHasThreeWriters := by
  unfold Obligations.BankHasThreeWriters
  exact fun s t h hn => (bank_frame.ofStep h hn).imp_right Running.either

/-! ## The parameters (rule R8) -/

theorem CoreResult.cfg {s t : State} (h : CoreResult s t) : t.cfg = s.cfg := by
  cases h with
  | runs i _ _ _ h => exact h.completes.2.cfg
  | _ => rfl

theorem CsrResult.cfg {s t : State} (h : CsrResult s t) : t.cfg = s.cfg := by
  cases h with
  | kept h => exact h.cfg
  | accepted w reply hidle => simp only [accept_idle w hidle]

theorem ServeResult.cfg {e : Input} {s t : State} (h : ServeResult e s t) : t.cfg = s.cfg := by
  cases h with
  | core h => exact h.cfg
  | csr h => exact h.cfg
  | coreWithCsr _ h hu => exact hu.cfg.trans h.cfg
  | _ => rfl

theorem step_cfg {s t : State} (h : step s = .next t) : t.cfg = s.cfg := by
  obtain h | ⟨e, rest, -, h⟩ := step_result h
  · exact h.cfg
  · exact h.cfg

/-- Settles O41: what `CAP` and `KBCAP` read is a parameter, and no step changes the parameters. -/
theorem identificationIsConstant : Obligations.IdentificationIsConstant := by
  unfold Obligations.IdentificationIsConstant
  refine ⟨fun s => ⟨rfl, ?_, rfl⟩, fun v s => ⟨rfl, rfl, rfl⟩, fun s t h => ?_⟩
  · exact (BitVec.toNat_append 0#27 s.cfg.log2NMax).trans (by simp)
  · simp only [readReg, step_cfg h, and_self]

end Sys2Proof.Machine
end

section
/-! SUPPORT. The register block: where each register lies, what an access of it does, its fields. -/

namespace Sys2Proof.Machine

/-! ## Offsets (rules R41, R42) -/

@[simp] theorem regAt_regOffset (r : Reg) : regAt (regOffset r) = some r := by
  cases r <;> rfl

@[simp] theorem csrLegal_regOffset (r : Reg) : csrLegal (regOffset r) 0xF#4 = true := by
  cases r <;> rfl

theorem regAt_reserved {off : BitVec 8} (h : 0x48 ≤ off.toNat) : regAt off = none := by
  refine List.find?_eq_none.2 fun r _ => ?_
  have hr : (regOffset r).toNat < 0x48 := by cases r <;> decide
  simp only [beq_iff_eq]
  rintro rfl
  omega

theorem csrLegal_iff {off : BitVec 8} {strobes : BitVec 4} :
    csrLegal off strobes = true ↔ strobes = 0xF#4 ∧ off.toNat % 4 = 0 := by
  simp [csrLegal, BitVec.toNat_eq, BitVec.extractLsb'_toNat]

/-! ## Accesses -/

theorem csrAccess_read_reg (r : Reg) (s : State) :
    csrAccess (.read (regOffset r) 0xF#4) s = { s with reply := some ⟨readReg r s, false⟩ } := by
  simp [csrAccess, readOffset]

theorem csrAccess_write_reg (r : Reg) (v : Word) (s : State) :
    csrAccess (.write (regOffset r) 0xF#4 v) s =
      { writeReg r v s with reply := some ⟨0#32, false⟩ } := by
  simp [csrAccess, writeOffset]

theorem csrAccess_read_reserved {off : BitVec 8} (h4 : off.toNat % 4 = 0) (h : 0x48 ≤ off.toNat)
    (s : State) : csrAccess (.read off 0xF#4) s = { s with reply := some ⟨0#32, false⟩ } := by
  simp [csrAccess, readOffset, csrLegal_iff.2 ⟨rfl, h4⟩, regAt_reserved h]

theorem csrAccess_write_reserved {off : BitVec 8} (h4 : off.toNat % 4 = 0) (h : 0x48 ≤ off.toNat)
    (v : Word) (s : State) :
    csrAccess (.write off 0xF#4 v) s = { s with reply := some ⟨0#32, false⟩ } := by
  simp [csrAccess, writeOffset, csrLegal_iff.2 ⟨rfl, h4⟩, regAt_reserved h]

/-- Settles O46: illegal accesses, reserved offsets, reads of registers, the registers of the
descriptor, ignored writes. -/
theorem csrPortAccessRules : Obligations.CsrPortAccessRules := by
  unfold Obligations.CsrPortAccessRules
  refine ⟨fun off strobes v s => ⟨fun h => ?_, ?_⟩, csrAccess_read_reg,
    fun s => ⟨rfl, rfl, rfl, fun hs hv => hs.bankCleared hv⟩, fun r hr v s => ?_⟩
  · have hillegal : csrLegal off strobes = false := by
      rw [Bool.eq_false_iff, Ne, csrLegal_iff]
      tauto
    exact ⟨csrAccess_read_illegal hillegal s, csrAccess_write_illegal hillegal v s⟩
  · rintro rfl h4 h48
    exact ⟨csrAccess_read_reserved h4 h48 s, csrAccess_write_reserved h4 h48 v s⟩
  · have hignored : writeReg r v s = s := by
      fin_cases hr <;> rfl
    rw [csrAccess_write_reg, hignored]

/-- Settles O47: an access leaves the core as it was, unless it is a `CMD` write while idle. -/
theorem csrAccessKeepsTheRunningCommand : Obligations.CsrAccessKeepsTheRunningCommand := by
  unfold Obligations.CsrAccessKeepsTheRunningCommand
  intro a s
  have h := csrAccess_result a s
  refine ⟨h.sameEngine, h.cfg, ?_⟩
  generalize csrAccess a s = t at h
  cases h with
  | kept h =>
    exact ⟨h.draws, fun hbusy => ⟨h.latch, h.phase.trans hbusy, h.done, h.ok, h.err⟩⟩
  | accepted w reply hidle =>
    refine ⟨by simp only [accept_idle w hidle], fun hbusy => ?_⟩
    exact absurd (hidle.symm.trans hbusy) (by decide)

/-! ## Fields -/

/-- Settles O42: each field by its place in the concatenation. -/
theorem statusFields : Obligations.StatusFields := by
  unfold Obligations.StatusFields
  refine ⟨fun s => ?_, rfl, rfl, rfl, rfl, rfl, rfl, rfl, rfl, rfl, rfl, rfl, rfl⟩
  simp only [statusWord, BitVec.getLsbD_append]
  refine ⟨by simp [busyBit], by simp, by simp, by simp, ?_, by simp, by simp, ?_, ?_, ?_⟩
  all_goals
    simp (disch := omega) only [BitVec.extractLsb'_append_eq_of_le,
      BitVec.extractLsb'_append_eq_of_add_le]
    simp

@[simp] theorem getLsbD_ctrlWord (s : State) (i : Nat) :
    (ctrlWord s).getLsbD i = ((i = 0 && s.ieDone) || (i = 1 && s.ieOvr)) := by
  simp only [ctrlWord, BitVec.getLsbD_append]
  rcases i with _ | _ | i <;> simp

@[simp] theorem getLsbD_irqWord (s : State) (i : Nat) :
    (irqWord s).getLsbD i = ((i = 0 && s.doneP) || (i = 1 && s.ovrP)) := by
  simp only [irqWord, BitVec.getLsbD_append]
  rcases i with _ | _ | i <;> simp

/-- Settles O44, bit by bit. -/
theorem ctrlAndIrqWrites : Obligations.CtrlAndIrqWrites := by
  unfold Obligations.CtrlAndIrqWrites
  intro v s
  refine ⟨?_, ?_, rfl, rfl⟩
  · refine BitVec.eq_of_getLsbD_eq fun i hi => ?_
    have hmask : ∀ i < 32, (0x3#32).getLsbD i = (i = 0 || i = 1) := by decide
    simp only [readReg, writeReg, writeCtrl, getLsbD_ctrlWord, BitVec.getLsbD_and, hmask i hi]
    rcases i with _ | _ | i <;> simp
  · refine BitVec.eq_of_getLsbD_eq fun i hi => ?_
    simp only [readReg, writeReg, writeIrq, getLsbD_irqWord, BitVec.getLsbD_and, BitVec.getLsbD_not]
    rcases i with _ | _ | i <;> simp

/-- Settles O43: each of the nine writes sets one field, which its own register reads alone. -/
theorem operandRegistersReadBack : Obligations.OperandRegistersReadBack := by
  unfold Obligations.OperandRegistersReadBack
  intro r v s hr
  have hsame : readReg r (writeReg r v s) = v := by fin_cases hr <;> rfl
  have hother : ∀ r', r' ≠ r → readReg r' (writeReg r v s) = readReg r' s := by
    fin_cases hr <;> intro r' h <;> cases r' <;> trivial
  exact ⟨hsame, hother⟩

end Sys2Proof.Machine
end

section
/-! SUPPORT. The command lifecycle at the port: accept, the core's turn, both at once, reset. -/

namespace Sys2Proof.Machine

/-! ## `CMD` writes (rules R24, R31) -/

/-- A step on a CSR access out of reset makes the access. -/
theorem step_csr {a : CsrAccess} {rest : List Input} {s : State} (h : CsrNext a rest s) :
    step s = .next (csrAccess a { s with inputs := rest }) := by
  rw [step_input h.input]
  simp only [serve, csrTurn, h.running, Bool.false_eq_true, if_false]

/-- A step on a `CMD` write out of reset is the accept of its word. -/
theorem step_cmdWrite {w : Word} {rest : List Input} {s : State}
    (h : CsrNext (.write 0x0C#8 0xF#4 w) rest s) :
    step s = .next { accept w { s with inputs := rest } with reply := some ⟨0#32, false⟩ } :=
  (step_csr h).trans (congrArg _ (csrAccess_write_reg .cmd w _))

/-- Settles O3: the access is the accept of an idle machine. -/
theorem acceptLatchesWordAndOperands : Obligations.AcceptLatchesWordAndOperands := by
  unfold Obligations.AcceptLatchesWordAndOperands
  intro s w rest h hidle
  have haccept := accept_idle (s := { s with inputs := rest }) w hidle
  rw [step_cmdWrite h, haccept]
  rfl

/-- Settles O4: the access is the accept of a busy machine. -/
theorem cmdWriteWhileBusyIsDropped : Obligations.CmdWriteWhileBusyIsDropped := by
  unfold Obligations.CmdWriteWhileBusyIsDropped
  intro s w rest h hbusy
  have haccept := accept_busy (s := { s with inputs := rest }) w hbusy
  rw [step_cmdWrite h, haccept]

/-! ## The core's turn (rules R31, R290) -/

theorem coreTurn_busy {s : State} {i : Instr} (hrst : s.rst = false) (hbusy : s.phase = .busy)
    (hd : decode s.latch.w = .ok i) : coreTurn s = exec i s := by
  simp [coreTurn, hrst, hbusy, hd]

theorem coreTurn_idle {s : State} (hidle : s.phase = .idle) : coreTurn s = .next s := by
  simp [coreTurn, hidle]

theorem decode_encode (i : Instr) : decode (encode i) = .ok i := by
  cases i <;> rfl

/-- Settles O7: with no input and with the core's turn as the oldest input a step is `coreTurn`. -/
theorem stepRunsTheLatchedCommand : Obligations.StepRunsTheLatchedCommand := by
  unfold Obligations.StepRunsTheLatchedCommand
  refine ⟨fun s i hrst hbusy hd => ⟨fun hin => ?_, fun rest hin => ?_⟩, fun s hin hidle => ?_,
    fun s i => ?_⟩
  · rw [step_core hin, coreTurn_busy hrst hbusy hd]
  · rw [step_input hin]
    exact coreTurn_busy hrst hbusy hd
  · rw [step_core hin, coreTurn_idle hidle]
  · have hword : BitVec.ofNat 32 ((encode i).toNat % 2 ^ 32) = encode i := by
      rw [Nat.mod_eq_of_lt (encode i).isLt, BitVec.ofNat_toNat, BitVec.setWidth_eq]
    rw [State.withFetchWord, hword, accept_idle _ rfl, step_core rfl]
    exact coreTurn_busy rfl rfl (decode_encode i)

/-! ## A completion and a CSR access in one cycle (rule R246) -/

theorem serve_coreWithCsr {s t : State} (a : CsrAccess) (hrst : s.rst = false)
    (h : coreTurn s = .next t) :
    serve (.coreWithCsr a) s = .next (setWins (busyBit s) (csrAccess a t)) := by
  simp [serve, sameCycle, hrst, h]

/-- Settles O48: the completion leaves the phase idle and `OVR_P` as it was, so the `IRQ` write
cannot win and the `CMD` write is accepted. -/
theorem sameCycleSetWinsAndAccepts : Obligations.SameCycleSetWinsAndAccepts := by
  unfold Obligations.SameCycleSetWinsAndAccepts
  intro s t v hrst hbusy h
  obtain ⟨hdone, hsame⟩ := coreTurn_completes hrst hbusy h
  have hset : busyBit s = true := by simp [busyBit, hbusy]
  refine ⟨⟨_, serve_coreWithCsr _ hrst h, ?_⟩, ⟨_, serve_coreWithCsr _ hrst h, ?_⟩⟩
  · rw [show (0x18#8) = regOffset .irq from rfl, csrAccess_write_reg]
    exact ⟨by simp [hset], hdone.phase⟩
  · rw [show (0x0C#8) = regOffset .cmd from rfl, csrAccess_write_reg, writeReg,
      accept_idle v hdone.phase]
    exact ⟨rfl, rfl, by simp [hset], hsame.ovrP⟩

/-! ## Reset (rules R270, R272) -/

/-- After a reset every register but those of the parameters reads as in `State.reset`. -/
theorem readReg_afterReset {r : Reg} (hcap : r ≠ .cap) (hkbcap : r ≠ .kbcap) (s : State) :
    readReg r (afterReset s) = readReg r State.reset := by
  cases r <;> trivial

/-- Settles O49: every field but the latch, memory, the draw counter and the parameters is
`State.reset`'s. -/
theorem resetReleaseGivesTheResetValues : Obligations.ResetReleaseGivesTheResetValues := by
  unfold Obligations.ResetReleaseGivesTheResetValues
  intro s hrst
  have hctrl : readReg .ctrl (afterReset s) = 0#32 := readReg_afterReset (by decide) (by decide) s
  have hirq : readReg .irq (afterReset s) = 0#32 := readReg_afterReset (by decide) (by decide) s
  have hstatus : readReg .status (afterReset s) = 0#32 :=
    readReg_afterReset (by decide) (by decide) s
  refine ⟨⟨afterReset s, by simp [serve, hrst], rfl, rfl, rfl, rfl, rfl, rfl, rfl, rfl, rfl, rfl,
    hctrl, hirq, rfl, hstatus, fun r hr => ?_, rfl, abandonedMemory_of_idle⟩,
    fun a => by simp [serve, csrTurn, hrst], by simp [serve, coreTurn, hrst]⟩
  fin_cases hr <;> rfl

end Sys2Proof.Machine
end

section
/-! SUPPORT. The twiddle ROM and its views (rules R36, R156). -/

namespace Sys2Proof.Machine

/-- A ROM of another size holds the same entry at the same fraction of a turn. -/
theorem twRom_scale (m d k : Nat) : twRom (m + d) (k * 2 ^ d) = twRom m k := by
  have hd : 0 < 2 ^ d := Nat.two_pow_pos d
  have hmod : 4 * (k * 2 ^ d) % 2 ^ (m + d) = 4 * k % 2 ^ m * 2 ^ d := by
    rw [Nat.pow_add, ← Nat.mul_assoc, Nat.mul_mod_mul_right]
  have hlt : 4 * (k * 2 ^ d) < 2 ^ (m + d) ↔ 4 * k < 2 ^ m := by
    rw [Nat.pow_add, ← Nat.mul_assoc, Nat.mul_lt_mul_right hd]
  have hx : piHalfFix * (4 * k % 2 ^ m * 2 ^ d) / 2 ^ (m + d) =
      piHalfFix * (4 * k % 2 ^ m) / 2 ^ m := by
    rw [Nat.pow_add, ← Nat.mul_assoc, Nat.mul_div_mul_right _ _ hd]
  simp only [twRom, hmod, hlt, hx]

/-- The view of a length does not depend on the ROM's size (rule R156). -/
theorem twView_eq {L m : Nat} (h : m ≤ L) (i : Nat) : twView L m i = twRom m i := by
  obtain ⟨d, rfl⟩ := Nat.exists_eq_add_of_le h
  rw [twView, Nat.add_sub_cancel_left, twRom_scale]

/-- Settles O14: a length of `2^j` or more has the entries of the length `2^j` among its own, so the
exact entries are those of the lengths 1, 4 and 8. -/
theorem twiddleViewEntries : Obligations.TwiddleViewEntries := by
  unfold Obligations.TwiddleViewEntries
  intro L m hL
  refine ⟨fun i => ?_, fun _ => ?_, fun h => ?_, fun h => ?_⟩
  · rw [twView_eq hL, twView_eq le_rfl]
  · have h0 := twRom_scale 0 m 0
    rw [Nat.zero_mul, Nat.zero_add] at h0
    rw [twView_eq hL, h0]
    decide +kernel
  · obtain ⟨d, rfl⟩ := Nat.exists_eq_add_of_le h
    have hk : 2 ^ (2 + d) / 4 = 1 * 2 ^ d := by rw [Nat.pow_add]; omega
    rw [twView_eq hL, hk, twRom_scale]
    decide +kernel
  · obtain ⟨d, rfl⟩ := Nat.exists_eq_add_of_le h
    have hk : 2 ^ (3 + d) / 8 = 1 * 2 ^ d := by rw [Nat.pow_add]; omega
    have hk3 : 3 * 2 ^ (3 + d) / 8 = 3 * 2 ^ d := by rw [Nat.pow_add]; omega
    rw [twView_eq hL, twView_eq hL, hk, hk3, twRom_scale, twRom_scale]
    decide +kernel

end Sys2Proof.Machine
end

section
/-! SUPPORT. Host memory as the host sees it: words of bytes, host loads and stores, and the commands
that leave it alone. -/

namespace Sys2Proof.Machine

/-- Settles O26, byte lane by byte lane. -/
theorem wordsAreLittleEndian : Obligations.WordsAreLittleEndian := by
  unfold Obligations.WordsAreLittleEndian Memory.readWord
  intro m a k hk
  interval_cases k <;>
    simp (disch := omega) only [BitVec.extractLsb'_append_eq_of_le,
      BitVec.extractLsb'_append_eq_of_add_le] <;> simp

/-! ## Commands and accesses that leave memory alone (rule R61) -/

theorem CsrResult.mem {s t : State} (h : CsrResult s t) : t.mem = s.mem := by
  cases h with
  | kept h => exact h.mem
  | accepted w reply hidle => simp only [accept_idle w hidle]

/-- Settles O23: of what a command can leave, only a transfer has other memory. -/
theorem onlyTransfersChangeMemory : Obligations.OnlyTransfersChangeMemory := by
  unfold Obligations.OnlyTransfersChangeMemory
  refine ⟨fun i s t h hne => ?_, fun a s => (csrAccess_result a s).mem⟩
  cases exec_result h with
  | transferred _ _ _ hi => exact hi
  | _ => exact absurd rfl hne

/-! ## Host accesses of ordinary memory (rules R60, R283 H10) -/

section
variable {s : State} {a : Word} (hmem : s.plat.nonMemory = [])
include hmem

theorem serve_memRead_ordinary (htop : a.toNat + 4 ≤ addressSpace)
    (hheld : anyHeld (runningWritten s) a.toNat 4 = false) :
    serve (.memRead a) s =
      .next { s with reply := some ⟨Memory.readWord s.mem a.toNat, false⟩ } := by
  obtain ⟨hbase, hdev⟩ := nonMemory_eq_nil hmem
  rw [serve, hostAccess_ordinary hbase htop hheld, hostReply_ordinary hdev, loadWord_ordinary hdev]

theorem serve_memWrite_ordinary (v : Word) (htop : a.toNat + 4 ≤ addressSpace)
    (hheld : anyHeld (runningBuffers s) a.toNat 4 = false) :
    serve (.memWrite a v) s = .next { s with
      mem := Memory.writeWord s.mem a.toNat v, reply := some ⟨0#32, false⟩ } := by
  obtain ⟨hbase, hdev⟩ := nonMemory_eq_nil hmem
  rw [serve, hostAccess_ordinary hbase htop hheld, hostReply_ordinary hdev, storeWord_ordinary hdev]

theorem serve_memReadByte_ordinary (hheld : anyHeld (runningWritten s) a.toNat 1 = false) :
    serve (.memReadByte a) s =
      .next { s with reply := some ⟨(Memory.readByte s.mem a.toNat).setWidth 32, false⟩ } := by
  obtain ⟨hbase, hdev⟩ := nonMemory_eq_nil hmem
  rw [serve, hostAccess_ordinary hbase a.isLt hheld, hostReply_ordinary hdev,
    loadByte_ordinary hdev]

theorem serve_memWriteByte_ordinary (b : Byte)
    (hheld : anyHeld (runningBuffers s) a.toNat 1 = false) :
    serve (.memWriteByte a b) s = .next { s with
      mem := Memory.writeByte s.mem a.toNat b, reply := some ⟨0#32, false⟩ } := by
  obtain ⟨hbase, hdev⟩ := nonMemory_eq_nil hmem
  rw [serve, hostAccess_ordinary hbase a.isLt hheld, hostReply_ordinary hdev,
    storeByte_ordinary hdev]

end

/-- Settles O27: the store's step leaves an idle machine with the word in its memory, which the
load's step reads. -/
theorem hostLoadAfterStore : Obligations.HostLoadAfterStore := by
  unfold Obligations.HostLoadAfterStore
  intro s a v rest hin hidle hmem hwf htop
  have hfree : ∀ {bs : List Buffer}, bs = [] → anyHeld bs a.toNat 4 = false :=
    fun h => h ▸ anyHeld_nil _ _
  refine ⟨_, _, (step_input hin).trans (serve_memWrite_ordinary ?_ v htop ?_),
    (step_input rfl).trans (serve_memRead_ordinary ?_ htop ?_), ?_, rfl⟩
  · exact hmem
  · exact hfree (runningBuffers_of_idle hidle)
  · exact hmem
  · exact hfree (runningWritten_of_idle hidle)
  · exact congrArg (some <| Reply.mk · false) (readWord_writeWord_same hwf htop)

/-! ## Host accesses while a command runs (rules R75, R283 H1) -/

theorem touching_iff_anyHeld {bs : List Buffer} {a n : Nat} :
    Touching bs a n ↔ anyHeld bs a n = true := by
  simp only [Touching, anyHeld, List.any_eq_true (l := List.range n), List.mem_range]

theorem anyHeld_of_not_touching {bs : List Buffer} {a n : Nat} (h : ¬ Touching bs a n) :
    anyHeld bs a n = false :=
  Bool.eq_false_iff.2 (mt touching_iff_anyHeld.2 h)

theorem runningBuffers_of_busy {s : State} {i : Instr} (hbusy : s.phase = .busy)
    (hd : decode s.latch.w = .ok i) : runningBuffers s = commandBuffers i s.latch := by
  simp [runningBuffers, hbusy, hd]

theorem runningWritten_of_busy {s : State} {i : Instr} (hbusy : s.phase = .busy)
    (hd : decode s.latch.w = .ok i) : runningWritten s = writtenBuffers i s.latch := by
  simp [runningWritten, hbusy, hd]

/-- A host access with a byte in the forbidden ranges is refused. -/
theorem hostAccess_refused {a n : Nat} {bs : List Buffer} {csr : BitVec 8 → BitVec 4 → CsrAccess}
    {s t : State} (ha : a + n ≤ addressSpace) (h : Touching bs a n) :
    hostAccess a n bs csr s t = .refused .runningBuffer := by
  simp [hostAccess, Nat.not_lt.2 ha, touching_iff_anyHeld.1 h]

/-- Settles O25: the forbidden ranges are the latched command's, an access with a byte in them is
refused, and one of ordinary memory outside them goes on. -/
theorem runningBuffersAreTheCores : Obligations.RunningBuffersAreTheCores := by
  unfold Obligations.RunningBuffersAreTheCores
  intro s i a v b hbusy hd hword
  have hbyte : a.toNat + 1 ≤ addressSpace := a.isLt
  rw [← runningBuffers_of_busy hbusy hd, ← runningWritten_of_busy hbusy hd]
  refine ⟨fun h => ?_, fun h => ?_, fun h => ?_, fun h => ?_, fun hmem => ⟨
    fun h => serve_memWriteByte_ordinary hmem b (anyHeld_of_not_touching h),
    fun h => serve_memWrite_ordinary hmem v hword (anyHeld_of_not_touching h),
    fun h => serve_memReadByte_ordinary hmem (anyHeld_of_not_touching h),
    fun h => serve_memRead_ordinary hmem hword (anyHeld_of_not_touching h)⟩⟩
  · rw [serve, hostAccess_refused hbyte h]
  · rw [serve, hostAccess_refused hword h]
  · rw [serve, hostAccess_refused hbyte h]
  · rw [serve, hostAccess_refused hword h]

end Sys2Proof.Machine
end

section
/-! SUPPORT. The buffers of FFT, IFFT and CQT: what writing them leaves alone, what overlapping ones
are refused for, and what a bus error leaves in them. -/

namespace Sys2Proof.Machine

/-! ## Ranges (rules R61, R76) -/

theorem Buffer.holds_iff {b : Buffer} {a : Nat} :
    b.holds a = true ↔
      isAbsent b.ptr = false ∧ b.ptr.toNat ≤ a ∧ a < b.ptr.toNat + 4 * b.len := by
  simp [Buffer.holds, and_assoc]

theorem Buffer.outside_of_not_holds {b : Buffer} {a : Nat} (hp : isAbsent b.ptr = false)
    (h : b.holds a = false) : a < b.ptr.toNat ∨ b.ptr.toNat + 4 * b.len ≤ a := by
  by_contra hin
  have hheld : b.holds a = true := Buffer.holds_iff.2 ⟨hp, by omega, by omega⟩
  exact absurd (h.symm.trans hheld) (by decide)

/-- Two buffers that hold the same byte overlap. -/
theorem Buffer.overlaps_of_holds {b c : Buffer} {a : Nat} (hb : b.holds a = true)
    (hc : c.holds a = true) : b.overlaps c = true := by
  obtain ⟨-, hb1, hb2⟩ := Buffer.holds_iff.1 hb
  obtain ⟨-, hc1, hc2⟩ := Buffer.holds_iff.1 hc
  simp only [Buffer.overlaps, meet, Bool.and_eq_true, decide_eq_true_eq]
  omega

/-- The checks of a command say of each buffer it writes that it is present, aligned and inside the
address space (rules R64, R65, R66). -/
theorem writtenBuffers_of_commandError {i : Instr} {s : State} (h : commandError i s = none)
    {b : Buffer} (hb : b ∈ writtenBuffers i s.latch) :
    isAbsent b.ptr = false ∧ bufok b.ptr b.len = true := by
  have htransform (h : transformError s = none)
      (hb : b ∈ [⟨s.latch.ptrRe, nLen s.latch⟩, ⟨s.latch.ptrIm, nLen s.latch⟩]) :
      isAbsent b.ptr = false ∧ bufok b.ptr b.len = true := by
    obtain ⟨hre, him⟩ := transformError_eq_none h
    simp only [transformError, check_eq_none] at h
    obtain ⟨-, hnull, -⟩ := h
    simp only [Bool.or_eq_true, not_or, Bool.not_eq_true] at hnull
    fin_cases hb
    · exact ⟨hnull.1, hre⟩
    · exact ⟨hnull.2, him⟩
  cases i with
  | fft => exact htransform h hb
  | ifft => exact htransform h hb
  | cqt =>
    obtain ⟨hore, hoim⟩ := cqtError_eq_none h
    simp only [commandError, cqtError, check_eq_none] at h
    obtain ⟨hnull, -⟩ := h
    simp only [Bool.or_eq_true, not_or, Bool.not_eq_true] at hnull
    obtain ⟨⟨-, hnre⟩, hnim⟩ := hnull
    fin_cases hb
    · exact ⟨hnre, hore⟩
    · exact ⟨hnim, hoim⟩
  | _ => cases hb

/-! ## What writing buffers leaves alone -/

theorem readByte_writeBuffer_outside {b : Buffer} {vs : List Word} {m : Memory} {a : Nat}
    (hp : isAbsent b.ptr = false) (hlen : vs.length = b.len) (h : b.holds a = false) :
    Memory.readByte (Memory.writeBuffer m b.ptr vs) a = Memory.readByte m a :=
  readByte_writeWords_other (hlen ▸ Buffer.outside_of_not_holds hp h)

theorem writeCpx_outside {p q : Word} {n : Nat} {xs : List Cpx} (hp : isAbsent p = false)
    (hq : isAbsent q = false) (hlen : xs.length = n) (s : State) :
    SameMemoryOutside [⟨p, n⟩, ⟨q, n⟩] s { s with mem := writeCpx s.mem p q xs } := by
  intro a ha
  simp only [List.any_cons, List.any_nil, Bool.or_false, Bool.or_eq_false_iff] at ha
  obtain ⟨hre, him⟩ := ha
  exact (readByte_writeBuffer_outside hq (by simpa) him).trans
    (readByte_writeBuffer_outside hp (by simpa) hre)

theorem mem_bufferAddresses {b : Buffer} {x : Nat} :
    x ∈ bufferAddresses b ↔ isAbsent b.ptr = false ∧ (∃ k < b.len, elementAddress b.ptr k = x) ∧
      x + 4 ≤ addressSpace := by
  cases hp : isAbsent b.ptr <;> simp [bufferAddresses, hp]

/-- Freeing the words of buffers leaves every byte outside them alone. -/
theorem scramble_outside (d : Draw) (bs : List Buffer) (m : Memory) {a : Nat}
    (ha : bs.any (fun b => b.holds a) = false) :
    Memory.readByte (scramble d bs m) a = Memory.readByte m a := by
  refine List.foldlRecOn (motive := fun m' => Memory.readByte m' a = Memory.readByte m a) _ _ rfl
    fun m' hm' x hx => ?_
  obtain ⟨b, hb, hxb⟩ := List.mem_flatMap.1 hx
  obtain ⟨hp, ⟨k, hk, rfl⟩, -⟩ := mem_bufferAddresses.1 hxb
  have hout := Buffer.outside_of_not_holds hp (Bool.eq_false_iff.2 (List.any_eq_false.1 ha b hb))
  rw [readByte_writeWord_other (by unfold elementAddress; omega), hm']

/-- Each of FFT, IFFT and CQT is a memory command behind its own checks, whose result leaves every
byte outside the written buffers alone. -/
theorem exec_transfer {i : Instr} (hi : i = .fft ∨ i = .ifft ∨ i = .cqt) (s : State) :
    ∃ result, exec i s = memoryCommand i (commandError i s) result s ∧
      (commandError i s = none →
        SameMemoryOutside (writtenBuffers i s.latch) s { s with mem := result s }) := by
  have hp {b : Buffer} (h : commandError i s = none) (hb : b ∈ writtenBuffers i s.latch) :
      isAbsent b.ptr = false := (writtenBuffers_of_commandError h hb).1
  obtain rfl | rfl | rfl := hi
  · exact ⟨fftMemory, rfl, fun h => writeCpx_outside (hp h (.head _)) (hp h (.tail _ (.head _)))
      (by simp [readReal, readImag, readBuffer_length]) s⟩
  · exact ⟨ifftMemory, rfl, fun h => writeCpx_outside (hp h (.head _)) (hp h (.tail _ (.head _)))
      (by simp [readReal, readImag, readBuffer_length]) s⟩
  · exact ⟨cqtMemory, rfl, fun h => writeCpx_outside (hp h (.head _)) (hp h (.tail _ (.head _)))
      (cqtResult_length ..) s⟩

/-- A completion with other memory keeps the engine, the host's registers and the outside. -/
theorem complete_withMemory_frame (e : ErrCode) (m : Memory) (s : State) :
    SameEngine s (complete e { s with mem := m }) ∧
      SameOutside s (complete e { s with mem := m }) :=
  ⟨sameEngine_iff.2 rfl, by constructor <;> rfl⟩

/-- Settles O24: a failed check leaves memory as it was, a bus error frees words of the written
buffers, and the command's own result goes into them. -/
theorem transferFrame : Obligations.TransferFrame := by
  unfold Obligations.TransferFrame
  intro i s t hi h
  obtain ⟨result, he, hframe⟩ := exec_transfer hi s
  obtain ⟨e, -, rfl⟩ | ⟨-, -, rfl⟩ | ⟨hr, -, rfl⟩ := memoryCommand_next (he.symm.trans h)
  · exact ⟨fun _ _ => rfl, complete_withMemory_frame e s.mem s⟩
  · exact ⟨fun _ ha => scramble_outside _ _ _ ha, complete_withMemory_frame ..⟩
  · exact ⟨hframe hr.1, complete_withMemory_frame ..⟩

/-! ## Overlapping buffers (rule R76) -/

/-- A memory command whose checks pass and whose buffers overlap is refused. -/
theorem memoryCommand_overlap {i : Instr} {err : Option ErrCode} {result : State → Memory}
    {s : State} (herr : err = none)
    (h : buffersConflict (readOnlyBuffers i s.latch) (writtenBuffers i s.latch) = true) :
    memoryCommand i err result s = .refused .overlap := by
  simp [memoryCommand, herr, h]

/-- A byte in two written buffers, or in a written and a read one, makes buffers overlap. -/
theorem buffersConflict_of_holds {rs : List Buffer} {v w : Buffer} {a : Nat}
    (h : v.holds a = true ∧ (w.holds a = true ∨ ∃ r ∈ rs, r.holds a = true) ∨
      w.holds a = true ∧ ∃ r ∈ rs, r.holds a = true) :
    buffersConflict rs [v, w] = true := by
  simp only [buffersConflict, Bool.or_eq_true, List.any_eq_true]
  obtain ⟨hv, hw | ⟨r, hr, hra⟩⟩ | ⟨hw, r, hr, hra⟩ := h
  · exact .inr ⟨w, .head _, Buffer.overlaps_of_holds hv hw⟩
  · exact .inl ⟨r, hr, v, .head _, Buffer.overlaps_of_holds hra hv⟩
  · exact .inl ⟨r, hr, w, .tail _ (.head _), Buffer.overlaps_of_holds hra hw⟩

/-- Settles O22: a common byte makes the buffers overlap, and passed checks let the refusal come. -/
theorem overlappingBuffersAreRefused : Obligations.OverlappingBuffersAreRefused := by
  unfold Obligations.OverlappingBuffersAreRefused
  refine ⟨fun i s a hi herr hre him => ?_, fun s a herr h => ?_⟩
  · have hconflict (rs) := buffersConflict_of_holds (rs := rs) (.inl ⟨hre, .inl him⟩)
    obtain rfl | rfl := hi
    · exact memoryCommand_overlap herr (hconflict _)
    · exact memoryCommand_overlap herr (hconflict _)
  · refine memoryCommand_overlap herr (buffersConflict_of_holds (a := a) ?_)
    simpa [readOnlyBuffers] using h

/-! ## Bus errors (rule R72) -/

/-- A memory command whose checks pass, whose buffers keep the host duties and one of whose accesses
is answered with an error fails `BUS_ERROR`. -/
theorem memoryCommand_busError {i : Instr} {err : Option ErrCode} (result : State → Memory)
    {s : State} (h : memoryCommandRuns i err s)
    (hp : portAnswer s.plat (commandBuffers i s.latch) = .error) :
    memoryCommand i err result s =
      .next (complete .busError { s with mem := busErrorMemory i s }) := by
  obtain ⟨rfl, hc, ht⟩ := h
  simp [memoryCommand, hc, ht, hp]

/-- Of aligned words written one after another each reads back as the value of its own address:
two of them are the same word or share no byte. -/
theorem readWord_foldl_writeWord (f : Nat → Word) {l : List Nat} {m : Memory} {a : Nat}
    (hm : Memory.wf m = true) (hl : ∀ x ∈ l, x % 4 = 0 ∧ x + 4 ≤ addressSpace) (ha : a % 4 = 0)
    (h : a ∈ l ∨ Memory.readWord m a = f a) :
    Memory.readWord (l.foldl (fun m x => Memory.writeWord m x (f x)) m) a = f a := by
  induction l generalizing m with
  | nil => exact h.resolve_left List.not_mem_nil
  | cons x l ih =>
    obtain ⟨hx, htop⟩ := hl x (.head _)
    refine ih (writeWord_wf hm htop) (fun y hy => hl y (.tail _ hy)) ?_
    by_cases hax : a = x
    · subst hax
      exact .inr (readWord_writeWord_same hm htop)
    · rw [readWord_writeWord_other (by omega)]
      exact h.imp_left fun hmem => (List.mem_cons.1 hmem).resolve_left hax

/-- Settles O21: the frame is that of every transfer, and the buffers' words are aligned by the
checks, so that each keeps the free value of its own address. -/
theorem busErrorFreesTheWrittenRanges : Obligations.BusErrorFreesTheWrittenRanges := by
  unfold Obligations.BusErrorFreesTheWrittenRanges
  intro i s hi herr hc ht hp hm
  obtain ⟨result, he, -⟩ := exec_transfer hi s
  have hnext := he.trans (memoryCommand_busError result ⟨herr, hc, ht⟩ hp)
  obtain ⟨hframe, hengine, houtside⟩ := transferFrame i s _ hi hnext
  refine ⟨_, hnext, ⟨rfl, rfl, rfl, rfl, rfl⟩, hengine, houtside, hframe, fun b hb k hk => ?_⟩
  have halign {c : Buffer} (hcw : c ∈ writtenBuffers i s.latch) (j : Nat) :
      elementAddress c.ptr j % 4 = 0 := by
    have hok := (writtenBuffers_of_commandError herr hcw).2
    simp only [bufok, Bool.and_eq_true, decide_eq_true_eq] at hok
    unfold elementAddress
    omega
  refine readWord_foldl_writeWord (fun x => Config.freeWord [x, 1, s.draws]) hm
    (fun x hx => ?_) (halign hb k) (.inl ?_)
  · obtain ⟨c, hcw, hxc⟩ := List.mem_flatMap.1 hx
    obtain ⟨-, ⟨j, -, rfl⟩, htop⟩ := mem_bufferAddresses.1 hxc
    exact ⟨halign hcw j, htop⟩
  · obtain ⟨hpresent, hok⟩ := writtenBuffers_of_commandError herr hb
    have hspace := bufok_inSpace hok
    refine List.mem_flatMap.2 ⟨b, hb, mem_bufferAddresses.2 ⟨hpresent, ⟨k, hk, rfl⟩, ?_⟩⟩
    unfold elementAddress
    omega

end Sys2Proof.Machine
end

section
/-! SUPPORT. FFT and IFFT when nothing stands in their way: they succeed, and what their buffers hold
then (rules R61, R165, R170). -/

namespace Sys2Proof.Machine

/-! ## Pointers and ranges that keep the rules -/

theorem GoodBuffer.isAbsent_eq_false {p : Word} {n : Nat} (h : GoodBuffer p n) :
    isAbsent p = false := by
  simp [isAbsent, h.present]

theorem GoodBuffer.bufok {p : Word} {n : Nat} (h : GoodBuffer p n) : bufok p n = true := by
  have := h.inSpace
  simp only [Machine.bufok, Bool.and_eq_true, decide_eq_true_eq]
  exact ⟨h.aligned, by omega⟩

theorem Apart.not_overlaps {p q : Word} {n n' : Nat} (h : Apart p n q n') :
    (Buffer.mk p n).overlaps ⟨q, n'⟩ = false := by
  unfold Apart at h
  simp only [Buffer.overlaps, meet, Bool.and_eq_false_iff, decide_eq_false_iff_not]
  omega

/-! ## Complex results -/

/-- Two buffers that share no byte hold the halves of the results written to them. -/
theorem readWord_writeCpx {m : Memory} {p q : Word} {n : Nat} {xs : List Cpx}
    (hm : Memory.wf m = true) (hlen : xs.length = n) (hp : GoodBuffer p n) (hq : GoodBuffer q n)
    (hpq : Apart p n q n) {i : Nat} (hi : i < n) :
    Memory.readWord (writeCpx m p q xs) (elementAddress p i) = (cpxAt xs i).re ∧
      Memory.readWord (writeCpx m p q xs) (elementAddress q i) = (cpxAt xs i).im := by
  have hps := hp.inSpace
  have hqs := hq.inSpace
  unfold Apart at hpq
  subst hlen
  have hre : p.toNat + 4 * (xs.map Cpx.re).length ≤ addressSpace := by simpa
  have him : q.toNat + 4 * (xs.map Cpx.im).length ≤ addressSpace := by simpa
  have hat : cpxAt xs i = xs[i] := by simp [cpxAt, hi]
  unfold writeCpx Memory.writeBuffer elementAddress
  constructor
  · rw [readWord_writeWords_other (by simp only [List.length_map]; omega),
      readWord_writeWords_same hm hre (by simpa), hat, List.getElem_map]
  · rw [readWord_writeWords_same (writeWords_wf hm hre) him (by simpa), hat, List.getElem_map]

theorem cpxAt_mapIdx (f : Nat → Cpx → Cpx) {xs : List Cpx} {i : Nat} (hi : i < xs.length) :
    cpxAt (xs.mapIdx f) i = f i (cpxAt xs i) := by
  simp [cpxAt, hi]

/-! ## A transform that is ready -/

theorem isPow2_two_pow (m : Nat) : isPow2 (2 ^ m) = true := by
  have hbits := (Nat.ne_zero_and_sub_one_eq_zero_iff_isPowerOfTwo (n := 2 ^ m)).2 ⟨m, rfl⟩
  have hcast : ((2 : Int) ^ m).toNat = 2 ^ m := by norm_cast
  simp [isPow2, hcast, hbits.2]

section
variable {m : Nat} {s : State}

theorem TransformReady.nLen_eq (h : TransformReady m s) : nLen s.latch = 2 ^ m := by
  rw [nLen, nInt, h.length]
  norm_cast

/-- A transform that is ready passes its checks (rule R244). -/
theorem TransformReady.transformError_eq_none (h : TransformReady m s) :
    transformError s = none := by
  have hlen : nInt s.latch = 2 ^ m := h.length
  have hfft : ((fftN s : Nat) : Int) = 2 ^ m := by
    rw [fftN, h.matching]
    norm_cast
  simp [transformError, h.nLen_eq, hlen, hfft, isPow2_two_pow, h.initialised,
    h.real.isAbsent_eq_false, h.imag.isAbsent_eq_false, h.real.bufok, h.imag.bufok]

/-- A transform that is ready, on ordinary memory, breaks no host duty (rules R69, R76). -/
theorem TransformReady.runs {i : Instr} (h : TransformReady m s) (hi : i = .fft ∨ i = .ifft)
    (hs : Served i s) : memoryCommandRuns i (transformError s) s := by
  refine ⟨h.transformError_eq_none, ?_, hs.memory⟩
  obtain rfl | rfl := hi <;>
    simp [buffersConflict, readOnlyBuffers, writtenBuffers, h.nLen_eq, h.apart.not_overlaps]

/-- A successful completion with the results in the two buffers: the frame, and each word. -/
theorem TransformReady.written (h : TransformReady m s) (hm : Memory.wf s.mem = true)
    {xs : List Cpx} (hlen : xs.length = 2 ^ m) {t : State}
    (ht : t = complete .noError
      { s with mem := writeCpx s.mem s.latch.ptrRe s.latch.ptrIm xs }) :
    CompletedWith .noError t ∧ SameEngine s t ∧ SameOutside s t ∧
      SameMemoryOutside [⟨s.latch.ptrRe, 2 ^ m⟩, ⟨s.latch.ptrIm, 2 ^ m⟩] s t ∧
      ∀ i < 2 ^ m,
        Memory.readWord t.mem (elementAddress s.latch.ptrRe i) = (cpxAt xs i).re ∧
        Memory.readWord t.mem (elementAddress s.latch.ptrIm i) = (cpxAt xs i).im := by
  subst ht
  obtain ⟨hengine, houtside⟩ := complete_withMemory_frame .noError
    (writeCpx s.mem s.latch.ptrRe s.latch.ptrIm xs) s
  exact ⟨⟨rfl, rfl, rfl, rfl, rfl⟩, hengine, houtside,
    writeCpx_outside h.real.isAbsent_eq_false h.imag.isAbsent_eq_false hlen s,
    fun i hi => readWord_writeCpx hm hlen h.real h.imag h.apart hi⟩

/-! ## The core's input -/

theorem inputCpx_length (m : Nat) (s : State) : (inputCpx m s).length = 2 ^ m := by
  simp [inputCpx]

theorem TransformReady.zipCpx_eq_inputCpx (h : TransformReady m s) :
    zipCpx (readReal s) (readImag s) = inputCpx m s := by
  simp [zipCpx, readReal, readImag, Memory.readBuffer, inputCpx, h.nLen_eq, List.zipWith_map,
    List.zipWith_self]

theorem TransformReady.zipCpx_eq_inputConj (h : TransformReady m s) :
    zipCpx (readReal s) ((readImag s).map fneg) = inputConj m s := by
  simp [zipCpx, readReal, readImag, Memory.readBuffer, inputConj, inputCpx, h.nLen_eq,
    List.zipWith_map, List.zipWith_self]

theorem TransformReady.twiddle_eq (h : TransformReady m s) :
    twiddle s = twView s.cfg.log2NMax.toNat m := by
  rw [twiddle, h.matching]

/-! ## Completion -/

/-- `FFT` completes with the core's result of the two buffers (rule R165). -/
theorem exec_fft_ready (h : TransformReady m s) (hs : Served .fft s) :
    exec .fft s = .next (complete .noError { s with
      mem := writeCpx s.mem s.latch.ptrRe s.latch.ptrIm
        (fftCore (twView s.cfg.log2NMax.toNat m) s.bitrev [s.draws] m (inputCpx m s)) }) := by
  have hserved := memoryCommand_served fftMemory (h.runs (.inl rfl) hs) hs.served
  rw [fftMemory, forwardResult, h.zipCpx_eq_inputCpx, h.twiddle_eq, h.matching, drawRoot_eq]
    at hserved
  exact hserved

/-- `IFFT` completes with the scaled conjugates of the core's result of the conjugates (rule
R170). -/
theorem exec_ifft_ready (h : TransformReady m s) (hs : Served .ifft s) :
    exec .ifft s = .next (complete .noError { s with
      mem := writeCpx s.mem s.latch.ptrRe s.latch.ptrIm
        ((fftCore (twView s.cfg.log2NMax.toNat m) s.bitrev [0, s.draws] m (inputConj m s)).mapIdx
          (fun i x => inverseScale [i, 1, s.draws] m x)) }) := by
  have hserved := memoryCommand_served ifftMemory (h.runs (.inr rfl) hs) hs.served
  rw [ifftMemory, inverseResult, h.zipCpx_eq_inputConj, h.twiddle_eq, h.matching, drawRoot_eq]
    at hserved
  exact hserved

end

/-- Settles O18: the result has an element for each word of the two buffers. -/
theorem fftWritesItsBuffers : Obligations.FftWritesItsBuffers := by
  unfold Obligations.FftWritesItsBuffers
  intro m s h hs hm
  exact ⟨_, exec_fft_ready h hs, h.written hm (by simp [inputCpx_length]) rfl⟩

/-- Settles O19: word `i` is the scaled conjugate of the core's element `i`. -/
theorem ifftWritesItsBuffers : Obligations.IfftWritesItsBuffers := by
  unfold Obligations.IfftWritesItsBuffers
  intro m s h hs hm
  have hcore : (fftCore (twView s.cfg.log2NMax.toNat m) s.bitrev [0, s.draws] m
      (inputConj m s)).length = 2 ^ m := by simp [inputConj, inputCpx_length]
  obtain ⟨hdone, hengine, houtside, hframe, hwords⟩ :=
    h.written hm ((List.length_mapIdx ..).trans hcore) rfl
  refine ⟨_, exec_ifft_ready h hs, hdone, hengine, houtside, hframe, fun i hi => ⟨_, rfl, ?_⟩⟩
  have hword := hwords i hi
  rwa [cpxAt_mapIdx _ (hcore.symm ▸ hi)] at hword

end Sys2Proof.Machine
end

section
/-! SUPPORT. Command words: their fields, their bytes, and which words decode. -/

namespace Sys2Proof.Machine

/-! ## Fields (rules R91, R92) -/

theorem rsv_append_opc (w : Word) : rsv w ++ opc w = w :=
  (BitVec.extractLsb'_append_extractLsb'_eq_extractLsb' (x := w) (start₁ := 0) (len₁ := 4) rfl).trans
    BitVec.extractLsb'_eq_self

theorem eq_encode_of_fields {w : Word} {i : Instr} (hrsv : rsv w = 0#28)
    (hopc : opc w = opcodeOf i) : w = encode i := by
  rw [encode, ← hrsv, ← hopc, rsv_append_opc]

/-- The opcodes of the map are the numbers 1 to 7 (rule R92). -/
theorem exists_opcodeOf_iff {o : BitVec 4} :
    (∃ i, o = opcodeOf i) ↔ 1 ≤ o.toNat ∧ o.toNat ≤ 7 := by
  constructor
  · rintro ⟨i, rfl⟩
    cases i <;> decide
  · rintro ⟨h1, h7⟩
    interval_cases ho : o.toNat
    · exact ⟨.initFft, BitVec.eq_of_toNat_eq ho⟩
    · exact ⟨.fft, BitVec.eq_of_toNat_eq ho⟩
    · exact ⟨.ifft, BitVec.eq_of_toNat_eq ho⟩
    · exact ⟨.initCqt, BitVec.eq_of_toNat_eq ho⟩
    · exact ⟨.cqt, BitVec.eq_of_toNat_eq ho⟩
    · exact ⟨.freeFft, BitVec.eq_of_toNat_eq ho⟩
    · exact ⟨.freeCqt, BitVec.eq_of_toNat_eq ho⟩

/-! ## Which words decode (rule R97) -/

/-- A branch that answers a command has tested both of the command's fields. -/
theorem fields_of_decode {w : Word} {i : Instr} (h : decode w = .ok i) :
    rsv w = 0#28 ∧ opc w = opcodeOf i := by
  unfold decode at h
  split_ifs at h with hrsv <;> cases h <;> exact ⟨not_not.1 hrsv, by assumption⟩

theorem decode_eq_ok_iff {w : Word} {i : Instr} :
    decode w = .ok i ↔ rsv w = 0#28 ∧ opc w = opcodeOf i := by
  refine ⟨fields_of_decode, fun ⟨hrsv, hopc⟩ => ?_⟩
  rw [eq_encode_of_fields hrsv hopc, decode_encode]

theorem exists_decode_iff (w : Word) :
    (∃ i, decode w = .ok i) ↔ rsv w = 0#28 ∧ 1 ≤ (opc w).toNat ∧ (opc w).toNat ≤ 7 := by
  simp only [decode_eq_ok_iff, exists_and_left, exists_opcodeOf_iff]

/-! ## Bytes and table words (rules R62, R90) -/

theorem decodeBytes_bytesOfWord (w : Word) : decodeBytes (bytesOfWord w) = decode w :=
  congrArg decode (bytes_append w)

theorem decodeTableWord_encode (i : Instr) : decodeTableWord 32 (encode i).toNat = some i := by
  simp [decodeTableWord, Nat.mod_eq_of_lt (encode i).isLt, decodeBytes_bytesOfWord, decode_encode]

/-- Settles O1, word by word. -/
theorem opcodeMapWordsDecode : Obligations.OpcodeMapWordsDecode :=
  ⟨rfl, rfl, rfl, rfl, rfl, rfl, rfl, rfl, rfl, rfl, rfl, rfl⟩

/-- Settles O2: a word is its two fields, and a word decodes to a command exactly when they are the
command's. -/
theorem decodeAndEncodeAgree : Obligations.DecodeAndEncodeAgree := by
  unfold Obligations.DecodeAndEncodeAgree
  refine ⟨fun i => ⟨?_, decodeTableWord_encode i⟩, fun w i h => ?_, exists_decode_iff⟩
  · rw [decodeBytes_bytesOfWord, decode_encode]
  · obtain ⟨hrsv, hopc⟩ := fields_of_decode h
    exact eq_encode_of_fields hrsv hopc

/-! ## Illegal words (rule R97) -/

theorem not_decode_of_illegal {w : Word}
    (h : rsv w ≠ 0#28 ∨ opc w = 0#4 ∨ 8 ≤ (opc w).toNat) : ¬ ∃ i, decode w = .ok i := by
  rw [exists_decode_iff]
  rintro ⟨hrsv, hlow, hhigh⟩
  obtain hne | hzero | hbig := h
  · exact hne hrsv
  · simp [hzero] at hlow
  · omega

theorem coreTurn_illegal {s : State} (hrst : s.rst = false) (hbusy : s.phase = .busy)
    (hd : ¬ ∃ i, decode s.latch.w = .ok i) : coreTurn s = .next (complete .illegalCmd s) := by
  obtain ⟨hwait, -⟩ | ⟨-, -, ⟨i, hi, -⟩ | ⟨-, -, he⟩⟩ := coreTurn_cases s
  · simp [hrst, hbusy] at hwait
  · exact absurd ⟨i, hi⟩ hd
  · exact he

/-- Settles O6: the word is no command's, so the core's turn is the completion alone. -/
theorem illegalWordCompletes : Obligations.IllegalWordCompletes := by
  unfold Obligations.IllegalWordCompletes
  intro s w hillegal
  refine ⟨fun hidle => ?_, fun hrst hbusy hw => ?_⟩
  · rw [accept_idle w hidle]
    exact ⟨rfl, rfl⟩
  · subst hw
    obtain ⟨hengine, houtside⟩ := complete_withMemory_frame .illegalCmd s.mem s
    exact ⟨_, coreTurn_illegal hrst hbusy (not_decode_of_illegal hillegal),
      ⟨rfl, rfl, rfl, rfl, rfl⟩, rfl, hengine, houtside⟩

end Sys2Proof.Machine
end

section
/-! SUPPORT. Binary32 patterns: every word is a sign and 31 low bits, and what the predicates, the
value and the comparisons read from these (rules R110, R115, R116). -/

namespace Sys2Proof.Machine

/-! ## A word as its sign and its low bits -/

theorem infBits_eq : infBits = 255 * 2 ^ 23 := rfl

theorem infBits_lt : infBits < 2 ^ 31 := by decide

theorem eq_packMag (a : Word) : a = packMag (signBit a) (a.toNat % 2 ^ 31) := by
  have := a.isLt
  apply BitVec.eq_of_toNat_eq
  rw [packMag_toNat _ _ (Nat.mod_lt _ (by decide)), signBit_eq]
  split_ifs with h <;> simp only [decide_eq_true_eq] at h <;> omega

theorem exists_packMag (a : Word) : ∃ neg, ∃ bits < 2 ^ 31, a = packMag neg bits :=
  ⟨_, _, Nat.mod_lt _ (by decide), eq_packMag a⟩

/-- Settles O51: the other operand of the exclusive or has bit 31 alone. -/
theorem fnegInvertsTheSignBit : Obligations.FnegInvertsTheSignBit := by
  unfold Obligations.FnegInvertsTheSignBit
  intro a i
  have hmask : (0x80000000#32).getLsbD i = decide (31 = i) := by
    rw [show 0x80000000#32 = BitVec.twoPow 32 31 from rfl, BitVec.getLsbD_twoPow]
    simp
  rw [fneg, BitVec.getLsbD_xor, hmask]
  split_ifs with h
  · simp [h]
  · simp [Ne.symm h]

/-- A magnitude with a sign. -/
def signed (neg : Bool) (v : Nat) : Int := if neg then -(v : Int) else v

section
variable {neg : Bool} {bits : Nat}

theorem isNaN_packMag (h : bits < 2 ^ 31) :
    isNaN (packMag neg bits) = decide (infBits < bits) := by
  rw [Bool.eq_iff_iff]
  simp only [isNaN, expField_packMag _ _ h, fracField_packMag _ _ h, Bool.and_eq_true,
    beq_iff_eq, bne_iff_ne, decide_eq_true_eq]
  have := infBits_eq
  omega

theorem isInf_packMag (h : bits < 2 ^ 31) :
    isInf (packMag neg bits) = decide (bits = infBits) := by
  rw [Bool.eq_iff_iff]
  simp only [isInf, expField_packMag _ _ h, fracField_packMag _ _ h, Bool.and_eq_true,
    beq_iff_eq, decide_eq_true_eq]
  have := infBits_eq
  omega

theorem isFinite_packMag (h : bits < 2 ^ 31) :
    isFinite (packMag neg bits) = decide (bits < infBits) := by
  rw [Bool.eq_iff_iff]
  simp only [isFinite, expField_packMag _ _ h, bne_iff_ne, decide_eq_true_eq]
  have := infBits_eq
  omega

theorem isZero_packMag (h : bits < 2 ^ 31) : isZero (packMag neg bits) = decide (bits = 0) := by
  rw [Bool.eq_iff_iff]
  simp only [isZero, expField_packMag _ _ h, fracField_packMag _ _ h, Bool.and_eq_true,
    beq_iff_eq, decide_eq_true_eq]
  omega

theorem orderKey_packMag (h : bits < 2 ^ 31) :
    orderKey (packMag neg bits) = signed neg bits := by
  have hlow : bits / 2 ^ 23 * 2 ^ 23 + bits % 2 ^ 23 = bits := Nat.div_add_mod' ..
  simp only [orderKey, expField_packMag _ _ h, fracField_packMag _ _ h, signBit_packMag _ _ h, hlow,
    signed]

theorem fneg_packMag (h : bits < 2 ^ 31) : fneg (packMag neg bits) = packMag (!neg) bits := by
  have hsign : signBit (fneg (packMag neg bits)) = !neg := by
    rw [signBit, fnegInvertsTheSignBit, if_pos rfl, ← signBit, signBit_packMag _ _ h]
  have hlow : (fneg (packMag neg bits)).toNat % 2 ^ 31 = bits := by
    rw [fneg, BitVec.toNat_xor, Nat.xor_mod_two_pow, packMag_toNat _ _ h]
    cases neg <;> simp <;> omega
  rw [eq_packMag (fneg _), hsign, hlow]

end

/-! ## The kinds of words -/

theorem exists_packMag_of_isFinite {a : Word} (h : isFinite a = true) :
    ∃ neg, ∃ bits < infBits, a = packMag neg bits := by
  obtain ⟨neg, bits, hb, rfl⟩ := exists_packMag a
  exact ⟨neg, bits, by simpa [isFinite_packMag hb] using h, rfl⟩

theorem exists_packMag_of_not_isNaN {a : Word} (h : isNaN a = false) :
    ∃ neg, ∃ bits ≤ infBits, a = packMag neg bits := by
  obtain ⟨neg, bits, hb, rfl⟩ := exists_packMag a
  exact ⟨neg, bits, by simpa [isNaN_packMag hb] using h, rfl⟩

theorem eq_infOf_of_isInf {a : Word} (h : isInf a = true) : a = infOf (signBit a) := by
  obtain ⟨neg, bits, hb, rfl⟩ := exists_packMag a
  obtain rfl : bits = infBits := by simpa [isInf_packMag hb] using h
  rw [signBit_packMag _ _ hb, infOf]

theorem eq_zeroOf_of_isZero {a : Word} (h : isZero a = true) : a = zeroOf (signBit a) := by
  obtain ⟨neg, bits, hb, rfl⟩ := exists_packMag a
  obtain rfl : bits = 0 := by simpa [isZero_packMag hb] using h
  rw [signBit_packMag _ _ hb, zeroOf]

theorem not_isNaN_of_isFinite {a : Word} (h : isFinite a = true) : isNaN a = false := by
  simp_all [isFinite, isNaN]

theorem not_isInf_of_isFinite {a : Word} (h : isFinite a = true) : isInf a = false := by
  simp_all [isFinite, isInf]

theorem isFinite_of_not_isNaN_of_not_isInf {a : Word} (hn : isNaN a = false)
    (hi : isInf a = false) : isFinite a = true := by
  simp_all [isFinite, isNaN, isInf]

theorem not_isNaN_of_isInf {a : Word} (h : isInf a = true) : isNaN a = false := by
  simp_all [isInf, isNaN]

theorem not_isZero_of_isInf {a : Word} (h : isInf a = true) : isZero a = false := by
  simp_all [isInf, isZero]

theorem isFinite_of_isZero {a : Word} (h : isZero a = true) : isFinite a = true := by
  simp_all [isZero, isFinite]

section
variable (a : Word)

@[simp] theorem signBit_fneg : signBit (fneg a) = !signBit a := by
  obtain ⟨neg, bits, hb, rfl⟩ := exists_packMag a
  simp only [fneg_packMag hb, signBit_packMag _ _ hb]

@[simp] theorem isNaN_fneg : isNaN (fneg a) = isNaN a := by
  obtain ⟨neg, bits, hb, rfl⟩ := exists_packMag a
  simp only [fneg_packMag hb, isNaN_packMag hb]

@[simp] theorem isInf_fneg : isInf (fneg a) = isInf a := by
  obtain ⟨neg, bits, hb, rfl⟩ := exists_packMag a
  simp only [fneg_packMag hb, isInf_packMag hb]

@[simp] theorem isFinite_fneg : isFinite (fneg a) = isFinite a := by
  obtain ⟨neg, bits, hb, rfl⟩ := exists_packMag a
  simp only [fneg_packMag hb, isFinite_packMag hb]

end

/-! ## The value of a pattern -/

/-- The magnitude of the low 31 bits in units of `2^-149`; for the pattern of infinity it is
`2^277`, the next power of two after every finite value. -/
def patternQuanta (bits : Nat) : Nat :=
  if bits / 2 ^ 23 = 0 then bits % 2 ^ 23 else (2 ^ 23 + bits % 2 ^ 23) * 2 ^ (bits / 2 ^ 23 - 1)

theorem quanta_packMag {neg : Bool} {bits : Nat} (h : bits < 2 ^ 31) :
    quanta (packMag neg bits) = patternQuanta bits := by
  simp only [quanta, expField_packMag _ _ h, fracField_packMag _ _ h, Nat.shiftLeft_eq,
    patternQuanta]

/-- A significand, normal unless the exponent is the least, and its pattern; `2^24` is the carry
into the next exponent. -/
theorem patternQuanta_significand {e r : Nat} (hr : r ≤ 2 ^ 24) (hnormal : e = 0 ∨ 2 ^ 23 ≤ r) :
    patternQuanta (e * 2 ^ 23 + r) = r * 2 ^ e := by
  unfold patternQuanta
  obtain hsub | hmid | rfl : r < 2 ^ 23 ∨ (2 ^ 23 ≤ r ∧ r < 2 ^ 24) ∨ r = 2 ^ 24 := by omega
  · obtain rfl : e = 0 := by omega
    rw [if_pos (by omega)]
    omega
  · have hexp : (e * 2 ^ 23 + r) / 2 ^ 23 = e + 1 := by omega
    have hfrac : 2 ^ 23 + (e * 2 ^ 23 + r) % 2 ^ 23 = r := by omega
    rw [hexp, if_neg (by omega), hfrac, Nat.add_sub_cancel]
  · have hexp : (e * 2 ^ 23 + 2 ^ 24) / 2 ^ 23 = e + 2 := by omega
    have hfrac : 2 ^ 23 + (e * 2 ^ 23 + 2 ^ 24) % 2 ^ 23 = 2 ^ 23 := by omega
    rw [hexp, if_neg (by omega), hfrac, show e + 2 - 1 = e + 1 from rfl, Nat.pow_succ 2 e]
    omega

theorem exists_significand (bits : Nat) :
    ∃ e r, r < 2 ^ 24 ∧ (e = 0 ∨ 2 ^ 23 ≤ r) ∧ bits = e * 2 ^ 23 + r := by
  by_cases h : bits < 2 ^ 23
  · exact ⟨0, bits, by omega, .inl rfl, by omega⟩
  · exact ⟨bits / 2 ^ 23 - 1, 2 ^ 23 + bits % 2 ^ 23, by omega, .inr (by omega), by omega⟩

/-- The next pattern is the next significand, the carry included. -/
theorem patternQuanta_strictMono : StrictMono patternQuanta := by
  refine strictMono_nat_of_lt_succ fun bits => ?_
  obtain ⟨e, r, hr, hnormal, rfl⟩ := exists_significand bits
  rw [patternQuanta_significand hr.le hnormal, Nat.add_assoc,
    patternQuanta_significand hr (by omega)]
  exact Nat.mul_lt_mul_of_pos_right r.lt_succ_self (Nat.two_pow_pos e)

theorem patternQuanta_zero : patternQuanta 0 = 0 := rfl

theorem patternQuanta_infBits : (patternQuanta infBits : Int) = 2 ^ 277 := by
  have h : patternQuanta infBits = 2 ^ 23 * 2 ^ 254 :=
    patternQuanta_significand (e := 254) (r := 2 ^ 23) (by decide) (.inr le_rfl)
  have hpow : (2 : Int) ^ 277 = 2 ^ 23 * 2 ^ 254 := pow_add 2 23 254
  rw [h, hpow]
  norm_cast

/-! ## Comparisons (rule R116) -/

theorem signedQuanta_packMag {neg : Bool} {bits : Nat} (h : bits < 2 ^ 31) :
    signedQuanta (packMag neg bits) = signed neg (patternQuanta bits) := by
  rw [signedQuanta, signBit_packMag _ _ h, quanta_packMag h, signed]

theorem extendedQuanta_packMag {neg : Bool} {bits : Nat} (h : bits ≤ infBits) :
    extendedQuanta (packMag neg bits) = signed neg (patternQuanta bits) := by
  have hb : bits < 2 ^ 31 := h.trans_lt infBits_lt
  simp only [extendedQuanta, isInf_packMag hb, signBit_packMag _ _ hb, signedQuanta_packMag hb,
    decide_eq_true_eq]
  split_ifs with hinf hneg
  · rw [hinf, hneg, signed, if_pos rfl, patternQuanta_infBits]
  · rw [hinf, Bool.eq_false_of_not_eq_true hneg, signed, if_neg Bool.false_ne_true,
      patternQuanta_infBits]
  · rfl

/-- A strictly rising measure that begins at 0 keeps the order of magnitudes with signs. -/
theorem signed_lt_signed_iff {f : Nat → Nat} (hf : StrictMono f) (h0 : f 0 = 0) {s t : Bool}
    {b c : Nat} : signed s (f b) < signed t (f c) ↔ signed s b < signed t c := by
  have hbc := hf.lt_iff_lt (a := b) (b := c)
  have hcb := hf.lt_iff_lt (a := c) (b := b)
  have hb := hf.lt_iff_lt (a := 0) (b := b)
  have hc := hf.lt_iff_lt (a := 0) (b := c)
  rw [h0] at hb hc
  cases s <;> cases t <;> simp [signed] <;> omega

theorem extendedQuanta_lt_iff {a b : Word} (ha : isNaN a = false) (hb : isNaN b = false) :
    extendedQuanta a < extendedQuanta b ↔ orderKey a < orderKey b := by
  obtain ⟨s, x, hx, rfl⟩ := exists_packMag_of_not_isNaN ha
  obtain ⟨t, y, hy, rfl⟩ := exists_packMag_of_not_isNaN hb
  rw [extendedQuanta_packMag hx, extendedQuanta_packMag hy,
    orderKey_packMag (hx.trans_lt infBits_lt), orderKey_packMag (hy.trans_lt infBits_lt),
    signed_lt_signed_iff patternQuanta_strictMono patternQuanta_zero]

/-- Settles O58: both the key and the value are measures of the low bits with the sign, and the
value rises strictly with the pattern up to infinity's. -/
theorem comparisonsAreByValue : Obligations.ComparisonsAreByValue := by
  unfold Obligations.ComparisonsAreByValue
  constructor
  · intro a b ha hb
    refine ⟨?_, ?_, ?_⟩
    · simp [fgt, ha, hb, extendedQuanta_lt_iff hb ha]
    · rw [← not_lt, extendedQuanta_lt_iff ha hb]
      simp [fge, ha, hb]
    · simp [flt, fgt, ha, hb, extendedQuanta_lt_iff ha hb]
  · rintro a b (h | h) <;> simp [fgt, fge, flt, h]

end Sys2Proof.Machine
end

section
/-! SUPPORT. The operations case by case: which answer a drawn NaN, an infinity, a zero or a rounded
magnitude (rules R112, R114, R117, R121). -/

namespace Sys2Proof.Machine

/-! ## The draw (rule R114) -/

theorem isNaN_nanPattern (i : Nat) : isNaN (nanPattern i) = true := by
  have := infBits_eq
  rw [nanPattern, isNaN_packMag (by omega), decide_eq_true_eq]
  omega

theorem exists_nanPattern {w : Word} (h : isNaN w = true) : ∃ i < 16777214, nanPattern i = w := by
  obtain ⟨neg, bits, hb, rfl⟩ := exists_packMag w
  have hlow : infBits < bits := by simpa [isNaN_packMag hb] using h
  have := infBits_eq
  have hindex : infBits + (bits - infBits - 1 + 1) = bits := by omega
  cases neg with
  | false =>
    refine ⟨bits - infBits - 1, by omega, ?_⟩
    rw [nanPattern, Nat.mod_eq_of_lt (by omega), Nat.div_eq_of_lt (by omega),
      hindex]
    rfl
  | true =>
    refine ⟨8388607 + (bits - infBits - 1), by omega, ?_⟩
    rw [nanPattern, Nat.add_mod_left, Nat.mod_eq_of_lt (by omega), Nat.add_div_left _ (by decide),
      Nat.div_eq_of_lt (by omega),
      hindex]
    rfl

@[simp] theorem isNaN_nanOf (d : Draw) : isNaN (nanOf d) = true :=
  isNaN_nanPattern _

/-! ## Operands that are not finite -/

section
variable {d : Draw} {a b : Word}

theorem fadd_of_isNaN (h : isNaN a = true ∨ isNaN b = true) : fadd d a b = nanOf d := by
  simp [fadd, h]

theorem fsub_of_isNaN (h : isNaN a = true ∨ isNaN b = true) : fsub d a b = nanOf d :=
  fadd_of_isNaN (by simpa using h)

theorem fmul_of_isNaN (h : isNaN a = true ∨ isNaN b = true) : fmul d a b = nanOf d := by
  simp [fmul, h]

theorem fdiv_of_isNaN (h : isNaN a = true ∨ isNaN b = true) : fdiv d a b = nanOf d := by
  simp [fdiv, h]

theorem fadd_of_isInf_of_isInf (ha : isInf a = true) (hb : isInf b = true)
    (hs : signBit a ≠ signBit b) : fadd d a b = nanOf d := by
  simp [fadd, ha, hb, hs]

theorem fadd_of_isInf_of_isFinite (ha : isInf a = true) (hb : isFinite b = true) :
    fadd d a b = a := by
  simp [fadd, ha, not_isNaN_of_isInf ha, not_isNaN_of_isFinite hb, not_isInf_of_isFinite hb]

theorem fadd_of_isFinite_of_isInf (ha : isFinite a = true) (hb : isInf b = true) :
    fadd d a b = b := by
  simp [fadd, hb, not_isNaN_of_isInf hb, not_isNaN_of_isFinite ha, not_isInf_of_isFinite ha]

theorem fmul_of_isZero_of_isInf (ha : isZero a = true) (hb : isInf b = true) :
    fmul d a b = nanOf d := by
  simp [fmul, ha, hb]

theorem fmul_of_isInf_of_isZero (ha : isInf a = true) (hb : isZero b = true) :
    fmul d a b = nanOf d := by
  simp [fmul, ha, hb]

theorem fmul_of_isInf_of_not_isZero (ha : isInf a = true) (hb : isZero b = false)
    (hn : isNaN b = false) : fmul d a b = infOf (signBit a != signBit b) := by
  simp [fmul, ha, hb, hn, not_isNaN_of_isInf ha, not_isZero_of_isInf ha]

theorem fdiv_of_isInf_of_isInf (ha : isInf a = true) (hb : isInf b = true) :
    fdiv d a b = nanOf d := by
  simp [fdiv, ha, hb]

theorem fdiv_of_isInf_of_isFinite (ha : isInf a = true) (hb : isFinite b = true) :
    fdiv d a b = infOf (signBit a != signBit b) := by
  simp [fdiv, ha, not_isNaN_of_isInf ha, not_isNaN_of_isFinite hb, not_isInf_of_isFinite hb]

theorem fdiv_of_isFinite_of_isInf (ha : isFinite a = true) (hb : isInf b = true) :
    fdiv d a b = zeroOf (signBit a != signBit b) := by
  simp [fdiv, hb, not_isNaN_of_isInf hb, not_isNaN_of_isFinite ha, not_isInf_of_isFinite ha]

/-! ## Finite operands -/

theorem fadd_of_isFinite (ha : isFinite a = true) (hb : isFinite b = true) :
    fadd d a b =
      if signedQuanta a + signedQuanta b = 0 then zeroOf (signBit a && signBit b)
      else packMag (decide (signedQuanta a + signedQuanta b < 0))
        (roundMag (signedQuanta a + signedQuanta b).natAbs 1) := by
  simp [fadd, not_isNaN_of_isFinite ha, not_isNaN_of_isFinite hb, not_isInf_of_isFinite ha,
    not_isInf_of_isFinite hb]

theorem fmul_of_isFinite (ha : isFinite a = true) (hb : isFinite b = true) :
    fmul d a b =
      packMag (signBit a != signBit b) (roundMag (quanta a * quanta b) (2 ^ 149)) := by
  simp [fmul, not_isNaN_of_isFinite ha, not_isNaN_of_isFinite hb, not_isInf_of_isFinite ha,
    not_isInf_of_isFinite hb]

theorem fdiv_of_isFinite (ha : isFinite a = true) (hb : isFinite b = true)
    (hz : isZero b = false) :
    fdiv d a b =
      packMag (signBit a != signBit b) (roundMag (quanta a <<< 149) (quanta b)) := by
  simp [fdiv, not_isNaN_of_isFinite ha, not_isNaN_of_isFinite hb, not_isInf_of_isFinite ha,
    not_isInf_of_isFinite hb, hz]

theorem fdiv_of_isZero_of_isZero (ha : isZero a = true) (hb : isZero b = true) :
    fdiv d a b = nanOf d := by
  have hfa := isFinite_of_isZero ha
  have hfb := isFinite_of_isZero hb
  simp [fdiv, ha, hb, not_isInf_of_isFinite hfa, not_isInf_of_isFinite hfb]

theorem fdiv_of_isFinite_of_isZero (ha : isFinite a = true) (hz : isZero a = false)
    (hb : isZero b = true) : fdiv d a b = infOf (signBit a != signBit b) := by
  have hfb := isFinite_of_isZero hb
  simp [fdiv, hz, hb, not_isNaN_of_isFinite ha, not_isNaN_of_isFinite hfb,
    not_isInf_of_isFinite ha, not_isInf_of_isFinite hfb]

end

/-! ## Functions of one operand -/

theorem not_isFinite_of_isNaN_or_isInf {a : Word} (h : isNaN a = true ∨ isInf a = true) :
    isFinite a = false := by
  simp only [isNaN, isInf, Bool.and_eq_true, beq_iff_eq] at h
  obtain ⟨he, -⟩ | ⟨he, -⟩ := h <;> simp [isFinite, he]

/-- Settles O52: each case of the operations that has no value answers the drawn word, which is a
NaN, and the indices of the draw count the NaN patterns of either sign. -/
theorem nanResultsAreFree : Obligations.NanResultsAreFree := by
  unfold Obligations.NanResultsAreFree
  refine ⟨fun d a b h => ?_, fun d a b ha hb => ⟨fun hs => ?_, fun hs => ?_, ?_⟩,
    fun d a b ha hb => ⟨?_, ?_⟩, fun d a b ha hb => ?_, fun M d a => ⟨fun h => ?_, fun h => ?_⟩,
    fun i _ => isNaN_nanPattern i, fun w => exists_nanPattern⟩
  · simp [fadd_of_isNaN h, fsub_of_isNaN h, fmul_of_isNaN h, fdiv_of_isNaN h]
  · simp [fadd_of_isInf_of_isInf ha hb hs]
  · rw [fsub, fadd_of_isInf_of_isInf ha (by simpa) (by simp [hs]), isNaN_nanOf]
  · simp [fdiv_of_isInf_of_isInf ha hb]
  · simp [fmul_of_isZero_of_isInf ha hb]
  · simp [fmul_of_isInf_of_isZero hb ha]
  · simp [fdiv_of_isZero_of_isZero ha hb]
  · simp [fceil, fexp2, h]
  · simp [fcos, fsin, not_isFinite_of_isNaN_or_isInf h]

end Sys2Proof.Machine
end

section
/-! SUPPORT. Rounding: to an integer, to a significand, and what it leaves exact (rules R111, R112,
R113). -/

namespace Sys2Proof.Machine

/-- How far `v` multiples of `den` are from `num`. -/
def gap (num den v : Nat) : Nat := ((v * den : Nat) - (num : Int)).natAbs

/-! ## To an integer -/

section
variable {num den k : Nat}

/-- Rounding to an integer moves by at most half a unit, and by half a unit only to an even one. -/
theorem roundHalfEven_gap (hden : 0 < den) :
    2 * gap num den (roundHalfEven num den) ≤ den ∧
      (2 * gap num den (roundHalfEven num den) = den → roundHalfEven num den % 2 = 0) := by
  have hnum : num / den * den + num % den = num := Nat.div_add_mod' num den
  have hrem : num % den < den := Nat.mod_lt _ hden
  have hup : (num / den + 1) * den = num / den * den + den := Nat.succ_mul _ _
  unfold gap roundHalfEven
  dsimp only
  split_ifs with hlow hhigh
  · omega
  · omega
  · obtain heven | hodd := Nat.mod_two_eq_zero_or_one (num / den)
    · rw [heven, Nat.add_zero]
      omega
    · rw [hodd]
      omega

theorem mul_add_le_mul_of_lt {j : Nat} (h : j < k) : j * den + den ≤ k * den := by
  rw [← Nat.succ_mul]
  exact Nat.mul_le_mul_right _ h

/-- No integer is nearer than the rounded quotient, and only an even one is as near as another: two
integers lie at least a unit apart. -/
theorem roundHalfEven_nearest (hden : 0 < den) (k : Nat) :
    gap num den (roundHalfEven num den) ≤ gap num den k ∧
      (gap num den (roundHalfEven num den) = gap num den k → k ≠ roundHalfEven num den →
        roundHalfEven num den % 2 = 0) := by
  obtain ⟨hhalf, heven⟩ := roundHalfEven_gap (num := num) hden
  by_cases hk : k = roundHalfEven num den
  · exact ⟨hk ▸ le_rfl, fun _ hne => absurd hk hne⟩
  · have hapart : den ≤ gap num den (roundHalfEven num den) + gap num den k := by
      unfold gap
      obtain h | h := Nat.lt_or_gt_of_ne hk
      · have := mul_add_le_mul_of_lt (den := den) h
        omega
      · have := mul_add_le_mul_of_lt (den := den) h
        omega
    exact ⟨by omega, fun heq _ => heven (by omega)⟩

theorem le_roundHalfEven (hden : 0 < den) (h : k * den ≤ num) : k ≤ roundHalfEven num den := by
  by_contra hlt
  have hapart := mul_add_le_mul_of_lt (den := den) (Nat.lt_of_not_le hlt)
  obtain ⟨hhalf, -⟩ := roundHalfEven_gap (num := num) hden
  unfold gap at hhalf
  omega

theorem roundHalfEven_le_of_le (hden : 0 < den) (h : num ≤ k * den) :
    roundHalfEven num den ≤ k := by
  by_contra hlt
  have hapart := mul_add_le_mul_of_lt (den := den) (Nat.lt_of_not_le hlt)
  obtain ⟨hhalf, -⟩ := roundHalfEven_gap (num := num) hden
  unfold gap at hhalf
  omega

/-- Rounding to an integer passes an even one from half a unit below it: the integer before it is
odd. -/
theorem le_roundHalfEven_iff_of_even (hden : 0 < den) (heven : k % 2 = 0) :
    k ≤ roundHalfEven num den ↔ 2 * (k * den) ≤ 2 * num + den := by
  obtain ⟨hhalf, htie⟩ := roundHalfEven_gap (num := num) hden
  unfold gap at hhalf htie
  constructor
  · intro hle
    have := Nat.mul_le_mul_right den hle
    omega
  · intro hnum
    by_contra hlt
    have hnext : (roundHalfEven num den + 1) * den = roundHalfEven num den * den + den :=
      Nat.succ_mul _ _
    obtain rfl | hfar : k = roundHalfEven num den + 1 ∨ roundHalfEven num den + 1 < k := by omega
    · omega
    · have hapart := mul_add_le_mul_of_lt (den := den) hfar
      omega

end

/-! ## To a significand -/

/-- The place of the last bit that rounding keeps. -/
def roundShift (num den : Nat) : Nat := Nat.log2 (num / den) - 23

/-- The significand at that place. -/
def roundSignificand (num den : Nat) : Nat := roundHalfEven num (den * 2 ^ roundShift num den)

theorem roundMag_eq (num den : Nat) :
    roundMag num den =
      min (roundShift num den * 2 ^ 23 + roundSignificand num den) infBits := by
  simp only [roundMag, roundShift, roundSignificand, Nat.shiftLeft_eq]

section
variable {num den : Nat}

theorem lt_mul_roundShift (hden : 0 < den) : num < 2 ^ 24 * (den * 2 ^ roundShift num den) := by
  have hlog : num / den < 2 ^ (24 + roundShift num den) :=
    Nat.lt_log2_self.trans_le (Nat.pow_le_pow_right (by decide) (by unfold roundShift; omega))
  rw [Nat.div_lt_iff_lt_mul hden, Nat.pow_add] at hlog
  rwa [Nat.mul_comm den, ← Nat.mul_assoc]

theorem mul_roundShift_le (hden : 0 < den) (h : 0 < roundShift num den) :
    2 ^ 23 * (den * 2 ^ roundShift num den) ≤ num := by
  have hpos : num / den ≠ 0 := by
    intro h0
    simp [roundShift, h0] at h
  have hlog : 2 ^ (23 + roundShift num den) ≤ num / den :=
    (Nat.pow_le_pow_right (by decide) (by unfold roundShift at *; omega)).trans
      (Nat.log2_self_le hpos)
  rw [Nat.le_div_iff_mul_le hden, Nat.pow_add] at hlog
  rwa [Nat.mul_comm den, ← Nat.mul_assoc]

theorem roundSignificand_le (hden : 0 < den) : roundSignificand num den ≤ 2 ^ 24 :=
  roundHalfEven_le_of_le (Nat.mul_pos hden (Nat.two_pow_pos _)) (lt_mul_roundShift hden).le

theorem roundSignificand_normal (hden : 0 < den) :
    roundShift num den = 0 ∨ 2 ^ 23 ≤ roundSignificand num den :=
  (Nat.eq_zero_or_pos _).imp_right fun h =>
    le_roundHalfEven (Nat.mul_pos hden (Nat.two_pow_pos _)) (mul_roundShift_le hden h)

theorem roundMag_of_lt (h : roundMag num den < infBits) :
    roundMag num den = roundShift num den * 2 ^ 23 + roundSignificand num den := by
  rw [roundMag_eq] at h ⊢
  omega

theorem patternQuanta_roundMag (hden : 0 < den) (h : roundMag num den < infBits) :
    patternQuanta (roundMag num den) = roundSignificand num den * 2 ^ roundShift num den := by
  rw [roundMag_of_lt h,
    patternQuanta_significand (roundSignificand_le hden) (roundSignificand_normal hden)]

end

/-! ## Nearest -/

/-- The values of patterns at or above a place are multiples of it. -/
theorem patternQuanta_dvd_or_lt (bits e : Nat) :
    2 ^ e ∣ patternQuanta bits ∨ patternQuanta bits < 2 ^ 23 * 2 ^ e := by
  obtain ⟨e', r, hr, hnormal, rfl⟩ := exists_significand bits
  rw [patternQuanta_significand hr.le hnormal]
  obtain hlt | hle := Nat.lt_or_ge e' e
  · have hpow : 2 ^ (e' + 1) ≤ 2 ^ e := Nat.pow_le_pow_right (by decide) hlt
    have hsig : r * 2 ^ e' < 2 ^ 24 * 2 ^ e' := Nat.mul_lt_mul_of_pos_right hr (Nat.two_pow_pos _)
    rw [Nat.pow_succ] at hpow
    omega
  · exact .inl (Dvd.dvd.mul_left (Nat.pow_dvd_pow 2 hle) r)

theorem gap_mul_two_pow (num den k e : Nat) :
    gap num den (k * 2 ^ e) = gap num (den * 2 ^ e) k := by
  unfold gap
  congr 3
  ring

/-- Among the patterns at or above the rounding place this is nearness of significands; a pattern
below it is farther than the least normal significand at that place. -/
theorem roundMag_nearest {num den : Nat} (hden : 0 < den) (hfin : roundMag num den < infBits)
    (bits : Nat) :
    gap num den (patternQuanta (roundMag num den)) ≤ gap num den (patternQuanta bits) ∧
      (gap num den (patternQuanta (roundMag num den)) = gap num den (patternQuanta bits) →
        patternQuanta bits ≠ patternQuanta (roundMag num den) → roundMag num den % 2 = 0) := by
  have hnear := roundHalfEven_nearest (num := num)
    (Nat.mul_pos hden (Nat.two_pow_pos (roundShift num den)))
  rw [← roundSignificand] at hnear
  have hlast := roundMag_of_lt hfin
  rw [patternQuanta_roundMag hden hfin, gap_mul_two_pow]
  by_cases hdvd : 2 ^ roundShift num den ∣ patternQuanta bits
  · obtain ⟨k, hk⟩ := hdvd
    obtain ⟨hle, htie⟩ := hnear k
    rw [hk, Nat.mul_comm _ k, gap_mul_two_pow]
    refine ⟨hle, fun heq hne => ?_⟩
    have heven := htie heq fun hkr => hne (hkr ▸ rfl)
    omega
  · have hlow := (patternQuanta_dvd_or_lt bits _).resolve_left hdvd
    have hpos : 0 < roundShift num den := by
      refine Nat.pos_of_ne_zero fun h0 => hdvd ?_
      simp [h0]
    have hnum : 2 ^ 23 * 2 ^ roundShift num den * den ≤ num := by
      rw [Nat.mul_right_comm, Nat.mul_assoc]
      exact mul_roundShift_le hden hpos
    have hfar := Nat.mul_lt_mul_of_pos_right hlow hden
    have hstrict : gap num (den * 2 ^ roundShift num den) (2 ^ 23) <
        gap num den (patternQuanta bits) := by
      rw [← gap_mul_two_pow]
      unfold gap
      omega
    obtain ⟨hle, -⟩ := hnear (2 ^ 23)
    omega

/-- Settles O53: the rounded pattern is nearest among all patterns. -/
theorem roundingIsToNearestEven : Obligations.RoundingIsToNearestEven := by
  unfold Obligations.RoundingIsToNearestEven
  intro num den hden hfin w _
  obtain ⟨neg, bits, hb, rfl⟩ := exists_packMag w
  rw [quanta_packMag (roundMag_lt num den), quanta_packMag hb]
  exact roundMag_nearest hden hfin bits

/-! ## Exact -/

theorem roundMag_patternQuanta {bits den : Nat} (hb : bits < infBits) (hden : 0 < den) :
    roundMag (patternQuanta bits * den) den = bits := by
  obtain ⟨e, r, hr, hnormal, rfl⟩ := exists_significand bits
  have hshift : roundShift (r * 2 ^ e * den) den = e := by
    rw [roundShift, Nat.mul_div_cancel _ hden]
    by_cases hr0 : r = 0
    · obtain rfl : e = 0 := by omega
      simp [hr0]
    · have hv : r * 2 ^ e ≠ 0 := Nat.mul_ne_zero hr0 (Nat.two_pow_pos e).ne'
      have hhigh : (r * 2 ^ e).log2 < 24 + e := by
        rw [Nat.log2_lt hv, Nat.pow_add]
        exact Nat.mul_lt_mul_of_pos_right hr (Nat.two_pow_pos e)
      have hlow : e = 0 ∨ 23 + e ≤ (r * 2 ^ e).log2 := by
        refine hnormal.imp_right fun h => ?_
        rw [Nat.le_log2 hv, Nat.pow_add]
        exact Nat.mul_le_mul_right _ h
      omega
  have hsig : roundSignificand (r * 2 ^ e * den) den = r := by
    rw [roundSignificand, hshift, Nat.mul_assoc, Nat.mul_comm (2 ^ e),
      roundHalfEven_exact _ _ (Nat.mul_pos hden (Nat.two_pow_pos e))]
  rw [patternQuanta_significand hr.le hnormal, roundMag_eq, hshift, hsig, Nat.min_eq_left hb.le]

/-- Settles O54: the value of the word's low bits rounds to those bits. -/
theorem roundingIsExactOnBinary32 : Obligations.RoundingIsExactOnBinary32 := by
  unfold Obligations.RoundingIsExactOnBinary32
  intro w den hw hden
  obtain ⟨neg, bits, hb, rfl⟩ := exists_packMag_of_isFinite hw
  have hb' : bits < 2 ^ 31 := hb.trans infBits_lt
  rw [signBit_packMag _ _ hb', quanta_packMag hb', roundMag_patternQuanta hb hden]

/-- A magnitude that binary32 holds. -/
def IsBinary32 (v : Nat) : Prop := ∃ bits < infBits, patternQuanta bits = v

theorem isBinary32_quanta {a : Word} (h : isFinite a = true) : IsBinary32 (quanta a) := by
  obtain ⟨neg, bits, hb, rfl⟩ := exists_packMag_of_isFinite h
  exact ⟨bits, hb, (quanta_packMag (hb.trans infBits_lt)).symm⟩

/-- A significand that is not normal is doubled, the exponent falling, until one of them is at its
limit. -/
theorem isBinary32_mul_two_pow {r e : Nat} (hr : r < 2 ^ 24) (he : e ≤ 253) :
    IsBinary32 (r * 2 ^ e) := by
  have := infBits_eq
  induction e generalizing r with
  | zero => exact ⟨0 * 2 ^ 23 + r, by omega, patternQuanta_significand hr.le (.inl rfl)⟩
  | succ e ih =>
    obtain hsub | hnormal := Nat.lt_or_ge r (2 ^ 23)
    · rw [Nat.pow_succ', ← Nat.mul_assoc, Nat.mul_comm r]
      exact ih (by omega) (by omega)
    · exact ⟨(e + 1) * 2 ^ 23 + r, by omega, patternQuanta_significand hr.le (.inr hnormal)⟩

theorem isBinary32_two_pow {k : Nat} (hk : k ≤ 276) : IsBinary32 (2 ^ k) := by
  have hsplit : 2 ^ k = 2 ^ (k - 253) * 2 ^ (k - (k - 253)) := by
    rw [← Nat.pow_add]
    exact congrArg (2 ^ ·) (by omega)
  rw [hsplit]
  exact isBinary32_mul_two_pow (Nat.pow_lt_pow_right (by decide) (by omega)) (by omega)

/-- What binary32 holds rounds to a finite word of the same magnitude. -/
theorem IsBinary32.roundMag_mul {v : Nat} (h : IsBinary32 v) (neg : Bool) {den : Nat}
    (hden : 0 < den) :
    isFinite (packMag neg (roundMag (v * den) den)) = true ∧
      quanta (packMag neg (roundMag (v * den) den)) = v := by
  obtain ⟨bits, hb, rfl⟩ := h
  have hb' : bits < 2 ^ 31 := hb.trans infBits_lt
  rw [roundMag_patternQuanta hb hden, isFinite_packMag hb', quanta_packMag hb']
  exact ⟨decide_eq_true hb, rfl⟩

/-! ## The ratio alone counts -/

theorem roundHalfEven_mul_right {c : Nat} (hc : 0 < c) (num den : Nat) :
    roundHalfEven (num * c) (den * c) = roundHalfEven num den := by
  simp only [roundHalfEven, Nat.mul_div_mul_right _ _ hc, Nat.mul_mod_mul_right, ← Nat.mul_assoc,
    Nat.mul_lt_mul_right hc]

theorem roundMag_mul_right {c : Nat} (hc : 0 < c) (num den : Nat) :
    roundMag (num * c) (den * c) = roundMag num den := by
  simp only [roundMag_eq, roundSignificand, roundShift, Nat.mul_div_mul_right _ _ hc,
    Nat.mul_right_comm den c, roundHalfEven_mul_right hc]

/-! ## Overflow (rule R112) -/

/-- Infinity's pattern is the carry out of the last exponent: it is met from the midpoint past the
largest significand of the exponent 253, and always from the exponent 254. -/
theorem roundMag_eq_infBits_iff {num den : Nat} (hden : 0 < den) :
    roundMag num den = infBits ↔ (2 ^ 25 - 1) * 2 ^ 252 * den ≤ num := by
  have hsig := roundSignificand_le (num := num) hden
  have hnormal := roundSignificand_normal (num := num) hden
  have hlt := lt_mul_roundShift (num := num) hden
  have hinf : roundMag num den = infBits ↔
      infBits ≤ roundShift num den * 2 ^ 23 + roundSignificand num den := by
    rw [roundMag_eq]
    omega
  have hsplit : (2 ^ 25 - 1) * 2 ^ 252 * den = (2 ^ 25 - 1) * (den * 2 ^ 252) := by ring
  rw [hinf, infBits_eq, hsplit]
  obtain hlow | hlast | hhigh := Nat.lt_trichotomy (roundShift num den) 253
  · have hpow : den * 2 ^ roundShift num den ≤ den * 2 ^ 252 :=
      Nat.mul_le_mul_left _ (Nat.pow_le_pow_right (by decide) (by omega))
    omega
  · have hmid := le_roundHalfEven_iff_of_even (num := num) (den := den * 2 ^ 253) (k := 2 ^ 24)
      (Nat.mul_pos hden (Nat.two_pow_pos _)) (by decide)
    rw [← hlast, ← roundSignificand, hlast] at hmid
    omega
  · have hle := mul_roundShift_le (num := num) hden (by omega)
    have hpow : den * 2 ^ 254 ≤ den * 2 ^ roundShift num den :=
      Nat.mul_le_mul_left _ (Nat.pow_le_pow_right (by decide) hhigh)
    omega

end Sys2Proof.Machine
end

section
/-! SUPPORT. The arithmetic operations: overflow, zeros, infinities and signs; scaling by a power of
two; the ceiling (rules R112, R117, R118, R123). -/

namespace Sys2Proof.Machine

/-! ## Zeros and signs (rule R112) -/

theorem packMag_inj {s t : Bool} {x y : Nat} (hx : x < 2 ^ 31) (hy : y < 2 ^ 31) :
    packMag s x = packMag t y ↔ s = t ∧ x = y := by
  refine ⟨fun h => ?_, fun ⟨hs, hxy⟩ => by rw [hs, hxy]⟩
  have hsign := congrArg signBit h
  rw [signBit_packMag _ _ hx, signBit_packMag _ _ hy] at hsign
  have hnat := congrArg BitVec.toNat h
  rw [packMag_toNat _ _ hx, packMag_toNat _ _ hy, hsign] at hnat
  exact ⟨hsign, by omega⟩

theorem patternQuanta_eq_zero_iff {bits : Nat} : patternQuanta bits = 0 ↔ bits = 0 :=
  patternQuanta_strictMono.injective.eq_iff' patternQuanta_zero

theorem quanta_eq_zero_iff {a : Word} : quanta a = 0 ↔ isZero a = true := by
  obtain ⟨neg, bits, hb, rfl⟩ := exists_packMag a
  rw [quanta_packMag hb, isZero_packMag hb, patternQuanta_eq_zero_iff, decide_eq_true_eq]

theorem eq_negZero_iff {a : Word} :
    a = 0x80000000#32 ↔ signBit a = true ∧ quanta a = 0 := by
  obtain ⟨neg, bits, hb, rfl⟩ := exists_packMag a
  rw [show 0x80000000#32 = packMag true 0 from rfl, packMag_inj hb (by decide),
    signBit_packMag _ _ hb, quanta_packMag hb, patternQuanta_eq_zero_iff]

/-- Both terms of a zero sum are negative only when both are `-0`. -/
theorem fadd_of_sum_zero (d : Draw) {a b : Word} (ha : isFinite a = true) (hb : isFinite b = true)
    (hsum : signedQuanta a + signedQuanta b = 0) :
    fadd d a b =
      if a = 0x80000000#32 ∧ b = 0x80000000#32 then 0x80000000#32 else 0x00000000#32 := by
  rw [fadd_of_isFinite ha hb, if_pos hsum]
  unfold signedQuanta at hsum
  simp only [eq_negZero_iff]
  by_cases hs : signBit a = true ∧ signBit b = true
  · obtain ⟨hsa, hsb⟩ := hs
    rw [hsa, hsb, if_pos rfl, if_pos rfl] at hsum
    rw [if_pos ⟨⟨hsa, by omega⟩, hsb, by omega⟩, hsa, hsb]
    rfl
  · rw [if_neg fun ⟨⟨hsa, _⟩, hsb, _⟩ => hs ⟨hsa, hsb⟩,
      show (signBit a && signBit b) = false by simpa using hs]
    rfl

theorem signedQuanta_fneg (a : Word) : signedQuanta (fneg a) = -signedQuanta a := by
  obtain ⟨neg, bits, hb, rfl⟩ := exists_packMag a
  rw [fneg_packMag hb, signedQuanta_packMag hb, signedQuanta_packMag hb]
  cases neg <;> simp [signed]

theorem fsub_self (d : Draw) {x : Word} (hx : isFinite x = true) : fsub d x x = 0#32 := by
  have hsum : signedQuanta x + signedQuanta (fneg x) = 0 := by rw [signedQuanta_fneg]; omega
  rw [fsub, fadd_of_isFinite hx (by simpa), if_pos hsum, signBit_fneg, Bool.and_not_self]
  rfl

theorem signBit_infOf (neg : Bool) : signBit (infOf neg) = neg := signBit_packMag _ _ (by decide)

theorem signBit_zeroOf (neg : Bool) : signBit (zeroOf neg) = neg := signBit_packMag _ _ (by decide)

theorem signBit_pack_roundMag (neg : Bool) (num den : Nat) :
    signBit (packMag neg (roundMag num den)) = neg := signBit_packMag _ _ (roundMag_lt num den)

theorem signBit_fmul {d : Draw} {a b : Word} (h : isNaN (fmul d a b) = false) :
    signBit (fmul d a b) = (signBit a != signBit b) := by
  unfold fmul at h ⊢
  dsimp only at h ⊢
  split_ifs at h ⊢
  · simp at h
  · simp at h
  · exact signBit_infOf _
  · exact signBit_pack_roundMag ..

theorem signBit_fdiv {d : Draw} {a b : Word} (h : isNaN (fdiv d a b) = false) :
    signBit (fdiv d a b) = (signBit a != signBit b) := by
  unfold fdiv at h ⊢
  dsimp only at h ⊢
  split_ifs at h ⊢
  · simp at h
  · simp at h
  · exact signBit_infOf _
  · exact signBit_zeroOf _
  · simp at h
  · exact signBit_infOf _
  · exact signBit_pack_roundMag ..

/-- Settles O55: the overflow edge of rounding, and the operations' cases that do not round. -/
theorem zeroAndInfinityEdges : Obligations.ZeroAndInfinityEdges := by
  unfold Obligations.ZeroAndInfinityEdges
  refine ⟨fun num den => roundMag_eq_infBits_iff, fun d a b => fadd_of_sum_zero d,
    fun d x => fsub_self d, fun d => ?_, fun d x y hx hy => ⟨?_, ?_, ?_, ?_⟩,
    fun d x y => ⟨signBit_fmul, signBit_fdiv⟩, fun d x z => fdiv_of_isFinite_of_isZero⟩
  · exact fadd_of_sum_zero d rfl rfl rfl
  · exact fadd_of_isFinite_of_isInf hx hy
  · exact fadd_of_isInf_of_isFinite hy hx
  · exact fdiv_of_isFinite_of_isInf hx hy
  · rw [fdiv_of_isInf_of_isFinite hy hx, bne_comm]

/-! ## Integers as binary32 (rule R118) -/

theorem i2f_exact {v : Int} (h : IsBinary32 (v.natAbs * 2 ^ 149)) :
    isFinite (i2f v) = true ∧ signBit (i2f v) = decide (v < 0) ∧
      quanta (i2f v) = v.natAbs * 2 ^ 149 := by
  obtain ⟨hfin, hquanta⟩ := h.roundMag_mul (decide (v < 0)) Nat.one_pos
  rw [Nat.mul_one] at hfin hquanta
  exact ⟨hfin, signBit_pack_roundMag .., hquanta⟩

/-! ## Scaling by a power of two (rule R123) -/

theorem invPow2_exact {m : Nat} (hm : m ≤ 24) :
    isFinite (invPow2 m) = true ∧ signBit (invPow2 m) = false ∧
      quanta (invPow2 m) = 2 ^ (149 - m) := by
  have hpack : invPow2 m = packMag false ((126 - m) * 2 ^ 23 + 2 ^ 23) := by
    rw [← Nat.succ_mul, show (126 - m).succ = 127 - m by omega, ← Nat.shiftLeft_eq]
    rfl
  have hb : (126 - m) * 2 ^ 23 + 2 ^ 23 < infBits := by rw [infBits_eq]; omega
  have hb' := hb.trans infBits_lt
  rw [hpack, isFinite_packMag hb', signBit_packMag _ _ hb', quanta_packMag hb',
    patternQuanta_significand (by decide) (.inr le_rfl), ← Nat.pow_add]
  exact ⟨decide_eq_true hb, rfl, congrArg (2 ^ ·) (by omega)⟩

theorem i2f_two_pow_exact {m : Nat} (hm : m ≤ 24) :
    isFinite (i2f (2 ^ m)) = true ∧ signBit (i2f (2 ^ m)) = false ∧
      quanta (i2f (2 ^ m)) = 2 ^ m * 2 ^ 149 := by
  have habs : ((2 : Int) ^ m).natAbs = 2 ^ m := by simp [Int.natAbs_pow]
  have hbin : IsBinary32 (((2 : Int) ^ m).natAbs * 2 ^ 149) := by
    rw [habs, ← Nat.pow_add]
    exact isBinary32_two_pow (by omega)
  obtain ⟨hfin, hsign, hquanta⟩ := i2f_exact hbin
  have hpos : ¬ (2 : Int) ^ m < 0 := not_lt.2 (by positivity)
  exact ⟨hfin, by rw [hsign, decide_eq_false hpos], by rw [hquanta, habs]⟩

/-- Settles O56: product and quotient round the same ratio, `quanta x` to `2^m`. -/
theorem scalingIsDivision : Obligations.ScalingIsDivision := by
  unfold Obligations.ScalingIsDivision
  intro d d' x m hm hnan
  obtain ⟨hfi, hsi, hqi⟩ := invPow2_exact hm
  obtain ⟨hfn, hsn, hqn⟩ := i2f_two_pow_exact hm
  have hzi : isZero (invPow2 m) = false := by
    rw [← Bool.not_eq_true, ← quanta_eq_zero_iff, hqi]
    positivity
  have hzn : isZero (i2f (2 ^ m)) = false := by
    rw [← Bool.not_eq_true, ← quanta_eq_zero_iff, hqn]
    positivity
  cases hinf : isInf x with
  | true =>
    rw [fmul_of_isInf_of_not_isZero hinf hzi (not_isNaN_of_isFinite hfi),
      fdiv_of_isInf_of_isFinite hinf hfn, hsi, hsn]
    simp [← eq_infOf_of_isInf hinf]
  | false =>
    have hfin := isFinite_of_not_isNaN_of_not_isInf hnan hinf
    rw [fmul_of_isFinite hfin hfi, fdiv_of_isFinite hfin hfn hzn, hsi, hsn, hqi, hqn]
    constructor
    · have hden : 2 ^ 149 = 2 ^ m * 2 ^ (149 - m) := by
        rw [← Nat.pow_add]
        exact congrArg (2 ^ ·) (by omega)
      rw [Nat.shiftLeft_eq, roundMag_mul_right (by decide), hden,
        roundMag_mul_right (Nat.two_pow_pos _)]
    · intro hx
      have hz : isZero x = true := by simpa using hx
      rw [quanta_eq_zero_iff.2 hz, Nat.zero_mul, roundMag_zero, Bool.bne_false]
      exact (eq_zeroOf_of_isZero hz).symm

/-! ## The ceiling (rule R117) -/

/-- The whole number of the ceiling of a magnitude with a sign. -/
def ceilWhole (neg : Bool) (q : Nat) : Nat :=
  if neg then q / 2 ^ 149 else (q + (2 ^ 149 - 1)) / 2 ^ 149

theorem fceil_of_isFinite (d : Draw) {a : Word} (h : isFinite a = true) :
    fceil d a = packMag (signBit a) (roundMag (ceilWhole (signBit a) (quanta a) * 2 ^ 149) 1) := by
  simp [fceil, not_isNaN_of_isFinite h, not_isInf_of_isFinite h, ceilWhole]

/-- A value of at least `2^23` is whole already, and the whole part of a smaller one fits a
significand. -/
theorem isBinary32_ceilWhole {a : Word} (h : isFinite a = true) (neg : Bool) :
    IsBinary32 (ceilWhole neg (quanta a) * 2 ^ 149) := by
  obtain ⟨bits, hb, hq⟩ := isBinary32_quanta h
  rw [← hq]
  obtain ⟨c, hc⟩ | hlt := patternQuanta_dvd_or_lt bits 149
  · refine ⟨bits, hb, ?_⟩
    unfold ceilWhole
    split_ifs <;> omega
  · refine isBinary32_mul_two_pow ?_ (by decide)
    unfold ceilWhole
    split_ifs <;> omega

theorem fceil_exact (d : Draw) {a : Word} (h : isFinite a = true) :
    isFinite (fceil d a) = true ∧ signBit (fceil d a) = signBit a ∧
      quanta (fceil d a) = ceilWhole (signBit a) (quanta a) * 2 ^ 149 := by
  obtain ⟨hfin, hquanta⟩ :=
    (isBinary32_ceilWhole h (signBit a)).roundMag_mul (signBit a) Nat.one_pos
  rw [Nat.mul_one, ← fceil_of_isFinite d h] at hfin hquanta
  exact ⟨hfin, by rw [fceil_of_isFinite d h, signBit_pack_roundMag], hquanta⟩

theorem fceil_of_isZero (d : Draw) {a : Word} (h : isZero a = true) : fceil d a = a := by
  have hwhole : ceilWhole (signBit a) 0 = 0 := by
    unfold ceilWhole
    split_ifs <;> rfl
  rw [fceil_of_isFinite d (isFinite_of_isZero h), quanta_eq_zero_iff.2 h, hwhole, Nat.zero_mul,
    roundMag_zero]
  exact (eq_zeroOf_of_isZero h).symm

theorem fceil_of_isInf (d : Draw) {a : Word} (h : isInf a = true) : fceil d a = a := by
  simp [fceil, h, not_isNaN_of_isInf h]

/-- Settles O57: the result is the whole number of `ceilWhole`, held exactly. -/
theorem ceilIsTheLeastIntegralAbove : Obligations.CeilIsTheLeastIntegralAbove := by
  unfold Obligations.CeilIsTheLeastIntegralAbove
  refine fun d a => ⟨fun h => ?_, fun h => h.elim (fceil_of_isZero d) (fceil_of_isInf d)⟩
  obtain ⟨hfin, hsign, hquanta⟩ := fceil_exact d h
  simp only [hfin, hsign, signedQuanta, hquanta, ceilWhole, and_true, true_and]
  split_ifs <;> omega

end Sys2Proof.Machine
end

section
/-! SUPPORT. The reference `MATH`: bounds, powers of two, operands that are zeros or infinities
(rule R121). -/

namespace Sys2Proof.Machine

/-! ## Rounding below a binary32 value -/

/-- A magnitude at most a binary32 value rounds to at most that value, which is nearer than any
beyond it. -/
theorem IsBinary32.quanta_roundMag_le {v num den : Nat} (hv : IsBinary32 v) (hden : 0 < den)
    (h : num ≤ v * den) (neg : Bool) :
    isFinite (packMag neg (roundMag num den)) = true ∧
      quanta (packMag neg (roundMag num den)) ≤ v := by
  obtain ⟨bits, hb, rfl⟩ := hv
  have hv : ¬ (2 ^ 25 - 1) * 2 ^ 252 * den ≤ patternQuanta bits * den := by
    rw [← roundMag_eq_infBits_iff hden, roundMag_patternQuanta hb hden]
    exact hb.ne
  have hfin : roundMag num den < infBits :=
    lt_of_le_of_ne (roundMag_le num den) fun hinf =>
      hv (((roundMag_eq_infBits_iff hden).1 hinf).trans h)
  rw [isFinite_packMag (roundMag_lt num den), quanta_packMag (roundMag_lt num den)]
  refine ⟨decide_eq_true hfin, Nat.le_of_not_lt fun hgt => ?_⟩
  obtain ⟨hnear, -⟩ := roundMag_nearest hden hfin bits
  have hbeyond := Nat.mul_lt_mul_of_pos_right hgt hden
  unfold gap at hnear
  omega

/-! ## Cosine and sine -/

theorem alternating_le (x2 k j : Nat) : alternating x2 k j ≤ fixOne := by
  cases k with
  | zero => exact le_rfl
  | succ k => exact Nat.sub_le _ _

theorem cosFix_le (x : Nat) : cosFix x ≤ fixOne := alternating_le _ _ _

theorem sinFix_le (x : Nat) : sinFix x ≤ fixOne := Nat.min_le_left _ _

theorem fixOne_eq : fixOne = 2 ^ 149 * 2 ^ 107 := rfl

theorem fixOne_pos : 0 < fixOne := Nat.two_pow_pos 256

/-- A fixed-point magnitude of at most 1 rounds to a word of at most 1. -/
theorem roundFix_le_one (neg : Bool) {v : Nat} (h : v ≤ fixOne) :
    isFinite (roundFix neg v) = true ∧ quanta (roundFix neg v) ≤ 2 ^ 149 :=
  (isBinary32_two_pow (by decide)).quanta_roundMag_le (Nat.two_pow_pos 107) (fixOne_eq ▸ h) neg

theorem cosRef_le_one (a : Word) : isFinite (cosRef a) = true ∧ quanta (cosRef a) ≤ 2 ^ 149 := by
  unfold cosRef
  dsimp only
  split_ifs
  · exact roundFix_le_one _ (cosFix_le _)
  · exact roundFix_le_one _ (sinFix_le _)
  · exact roundFix_le_one _ (cosFix_le _)
  · exact roundFix_le_one _ (sinFix_le _)

theorem sinRef_le_one (a : Word) : isFinite (sinRef a) = true ∧ quanta (sinRef a) ≤ 2 ^ 149 := by
  unfold sinRef
  dsimp only
  split_ifs
  · exact roundFix_le_one _ (sinFix_le _)
  · exact roundFix_le_one _ (cosFix_le _)
  · exact roundFix_le_one _ (sinFix_le _)
  · exact roundFix_le_one _ (cosFix_le _)

/-! ## Zeros -/

theorem fixOfWord_eq (a : Word) : fixOfWord a = quanta a * 2 ^ 107 := Nat.shiftLeft_eq _ _

theorem alternating_zero (k j : Nat) : alternating 0 k j = fixOne := by
  cases k with
  | zero => rfl
  | succ k => simp [alternating]

theorem cosFix_zero : cosFix 0 = fixOne := by
  rw [cosFix, Nat.zero_mul, Nat.zero_div, alternating_zero]

theorem sinFix_zero : sinFix 0 = 0 := by
  simp only [sinFix, Nat.zero_mul, Nat.zero_div, Nat.min_zero]

theorem pack_roundMag_one {den : Nat} (hden : 0 < den) :
    packMag false (roundMag (2 ^ 149 * den) den) = oneF :=
  roundingIsExactOnBinary32 oneF den rfl hden

section
variable {z : Word}

theorem fixOfWord_of_isZero (hz : isZero z = true) : fixOfWord z = 0 := by
  rw [fixOfWord_eq, quanta_eq_zero_iff.2 hz, Nat.zero_mul]

theorem cosRef_of_isZero (hz : isZero z = true) : cosRef z = oneF := by
  unfold cosRef
  simp only [fixOfWord_of_isZero hz, Nat.zero_div, Nat.zero_mod, cosFix_zero, if_true, roundFix,
    fixOne_eq]
  exact pack_roundMag_one (Nat.two_pow_pos 107)

theorem sinRef_of_isZero (hz : isZero z = true) : sinRef z = z := by
  unfold sinRef
  simp only [fixOfWord_of_isZero hz, Nat.zero_div, Nat.zero_mod, sinFix_zero, if_true,
    roundFix, roundMag_zero]
  exact (eq_zeroOf_of_isZero hz).symm

end

/-! ## Powers of two -/

theorem expFix_zero (k j : Nat) : expFix 0 k j = fixOne := by
  cases k with
  | zero => rfl
  | succ k => simp [expFix]

theorem exp2Fix_zero : exp2Fix 0 = fixOne := by
  rw [exp2Fix, Nat.zero_mul, Nat.zero_div, expFix_zero]

section
variable {a : Word} {i : Nat}

/-- `2^-i`, its subnormals included, is one quotient of powers of two. -/
theorem exp2Ref_of_neg_integer (hs : signBit a = true) (hx : fixOfWord a = i * fixOne)
    (hi : i ≤ 149) :
    exp2Ref a = packMag false (roundMag (2 ^ (149 - i) * (fixOne <<< i)) (fixOne <<< i)) := by
  have hint : (i * fixOne + (fixOne - 1)) / fixOne = i := by
    rw [Nat.add_comm, Nat.add_mul_div_right _ _ fixOne_pos,
      Nat.div_eq_of_lt (Nat.sub_lt fixOne_pos Nat.one_pos), Nat.zero_add]
  have hnum : fixOne <<< 149 = 2 ^ (149 - i) * (fixOne <<< i) := by
    rw [Nat.shiftLeft_eq, Nat.shiftLeft_eq, Nat.mul_left_comm, ← Nat.pow_add, Nat.sub_add_cancel hi]
  unfold exp2Ref
  dsimp only
  rw [if_pos hs, hx, hint, if_neg (by omega), Nat.sub_self, exp2Fix_zero, hnum]

theorem exp2Ref_of_nonneg_integer (hs : signBit a = false) (hx : fixOfWord a = i * fixOne)
    (hi : i < 128) :
    exp2Ref a = packMag false (roundMag (2 ^ (i + 149) * fixOne) fixOne) := by
  unfold exp2Ref
  dsimp only
  rw [hs, if_neg Bool.false_ne_true, hx, Nat.mul_div_cancel _ fixOne_pos, if_neg (by omega),
    Nat.mul_mod_left, exp2Fix_zero, Nat.shiftLeft_eq, Nat.mul_comm]

end

theorem exp2Ref_of_isZero {z : Word} (hz : isZero z = true) : exp2Ref z = oneF := by
  have hx : fixOfWord z = 0 * fixOne := by rw [fixOfWord_of_isZero hz, Nat.zero_mul]
  cases hs : signBit z with
  | true =>
    rw [exp2Ref_of_neg_integer hs hx (by decide)]
    exact pack_roundMag_one fixOne_pos
  | false =>
    rw [exp2Ref_of_nonneg_integer hs hx (by decide)]
    exact pack_roundMag_one fixOne_pos

theorem exp2Ref_i2f {e : Int} (hlow : -149 ≤ e) (hhigh : e ≤ 127) :
    signBit (exp2Ref (i2f e)) = false ∧ quanta (exp2Ref (i2f e)) = 2 ^ (e + 149).toNat := by
  obtain ⟨-, hsign, hquanta⟩ :=
    i2f_exact (isBinary32_mul_two_pow (r := e.natAbs) (e := 149) (by omega) (by decide))
  have hx : fixOfWord (i2f e) = e.natAbs * fixOne := by
    rw [fixOfWord_eq, hquanta, Nat.mul_assoc, fixOne_eq]
  obtain hneg | hpos := Int.lt_or_le e 0
  · rw [decide_eq_true hneg] at hsign
    rw [exp2Ref_of_neg_integer hsign hx (by omega), signBit_pack_roundMag]
    have hbin := isBinary32_two_pow (k := 149 - e.natAbs) (by omega)
    rw [(hbin.roundMag_mul false (by simp [Nat.shiftLeft_eq, fixOne_pos])).2]
    exact ⟨rfl, congrArg (2 ^ ·) (by omega)⟩
  · rw [decide_eq_false hpos.not_gt] at hsign
    rw [exp2Ref_of_nonneg_integer hsign hx (by omega), signBit_pack_roundMag]
    have hbin := isBinary32_two_pow (k := e.natAbs + 149) (by omega)
    rw [(hbin.roundMag_mul false fixOne_pos).2]
    exact ⟨rfl, congrArg (2 ^ ·) (by omega)⟩

/-! ## `MATH` at finite operands -/

section
variable {M : Config.Math} {d : Draw} {a : Word}

theorem fcos_of_isFinite (h : isFinite a = true) : fcos M d a = M.cos a := if_pos h

theorem fsin_of_isFinite (h : isFinite a = true) : fsin M d a = M.sin a := if_pos h

theorem fexp2_of_isFinite (h : isFinite a = true) : fexp2 M d a = M.exp2 a := by
  simp [fexp2, not_isNaN_of_isFinite h, not_isInf_of_isFinite h]

end

/-- Settles O59: the series never pass 1, and at the named operands they are exact. -/
theorem referenceMathBounds : Obligations.ReferenceMathBounds := by
  unfold Obligations.ReferenceMathBounds
  refine ⟨fun a _ => ⟨cosRef_le_one a, sinRef_le_one a⟩, fun e => exp2Ref_i2f,
    fun d z hz => ?_, fun M d => ⟨rfl, rfl⟩⟩
  have hfin := isFinite_of_isZero hz
  rw [fsin_of_isFinite hfin, fcos_of_isFinite hfin, fexp2_of_isFinite hfin]
  exact ⟨sinRef_of_isZero hz, cosRef_of_isZero hz, exp2Ref_of_isZero hz⟩

end Sys2Proof.Machine
end

section
/-! SUPPORT. INIT_FFT, FREE_FFT, and the checks and the completion of FFT and IFFT (rules R145, R165,
R170, R180). -/

namespace Sys2Proof.Machine

/-! ## The latched length (rules R124, R244) -/

section
variable {l : Latch}

theorem isPow2_of_not_exists (h : ¬ ∃ m : Nat, l.n.toInt = 2 ^ m) : isPow2 (nInt l) = false :=
  Bool.eq_false_iff.2 fun hpow => h (eq_two_pow_of_isPow2 hpow)

theorem isPow2_of_length {m : Nat} (h : l.n.toInt = 2 ^ m) : isPow2 (nInt l) = true := by
  rw [nInt, h, isPow2_two_pow]

theorem nLen_of_length {m : Nat} (h : l.n.toInt = 2 ^ m) : nLen l = 2 ^ m := by
  rw [nLen, nInt, h]
  norm_cast

end

/-! ## `INIT_FFT` (rule R145) -/

theorem exec_initFft_failed {s : State} {e : ErrCode} (h : initFftError s = some e) :
    exec .initFft s = .next (complete e s) := by
  simp only [exec, execInitFft, h, fail_eq]

/-- The length check comes first; a power of two then meets the other two. -/
theorem initFftError_of_length {s : State} {m : Nat} (h : s.latch.n.toInt = 2 ^ m) :
    initFftError s =
      if s.fftValid then some .alreadyInit
      else if 2 ^ s.cfg.log2NMax.toNat < 2 ^ m then some .allocFail
      else none := by
  have hlarge : nInt s.latch > s.cfg.nMax ↔ 2 ^ s.cfg.log2NMax.toNat < 2 ^ m := by
    rw [nInt, h, Config.Params.nMax]
    norm_cast
  simp [initFftError, isPow2_of_length h, hlarge]

/-- Settles O8: the checks in their order, the last branch being the built context. -/
theorem initFftMeaning : Obligations.InitFftMeaning := by
  unfold Obligations.InitFftMeaning
  intro s
  constructor
  · intro h
    exact exec_initFft_failed (by simp [initFftError, isPow2_of_not_exists h])
  · intro m h
    have herr := initFftError_of_length h
    refine ⟨fun hv => ?_, fun hv hlt => ?_, fun hv hle => ?_⟩
    · exact exec_initFft_failed (by rw [herr, if_pos hv])
    · exact exec_initFft_failed (by rw [herr, if_neg (by simp [hv]), if_pos hlt])
    · rw [if_neg (by simp [hv]), if_neg (Nat.not_lt.2 hle)] at herr
      simp only [exec, execInitFft, herr, buildFft, nLen_of_length h, Nat.log2_two_pow]

/-! ## `FREE_FFT` (rule R180) -/

/-- Settles O9: the completion of a state that differs in the FFT context only. -/
theorem freeFftMeaning : Obligations.FreeFftMeaning := by
  unfold Obligations.FreeFftMeaning
  intro s
  have hexec : exec .freeFft s = .next (complete .noError (freeFft s)) := rfl
  have hres := exec_result hexec
  obtain ⟨hdone, houtside⟩ := hres.completes
  exact ⟨_, hexec, hdone, rfl, rfl, hres.sameBank (by decide), rfl, rfl, houtside⟩

/-! ## The checks of `FFT` and `IFFT` (rules R165, R170, R244) -/

theorem exec_transform_failed {i : Instr} {s : State} {e : ErrCode} (hi : i = .fft ∨ i = .ifft)
    (h : transformError s = some e) : exec i s = .next (complete e s) := by
  obtain rfl | rfl := hi
  · rw [exec, execFft, h, memoryCommand_failed]
  · rw [exec, execIfft, h, memoryCommand_failed]

theorem isAbsent_eq_false {p : Word} (h : p ≠ 0#32) : isAbsent p = false := by
  simp [isAbsent, h]

/-- A present pointer passes `bufok` only when its buffer keeps rules R64 to R66. -/
theorem goodBuffer_of_bufok {p : Word} {n : Nat} (hp : p ≠ 0#32) (h : bufok p n = true) :
    GoodBuffer p n := by
  refine ⟨hp, ?_, bufok_inSpace h⟩
  simp only [bufok, Bool.and_eq_true, decide_eq_true_eq] at h
  exact h.1

section
variable {s : State} {m : Nat}

theorem transformError_absent (h : s.latch.n.toInt = 2 ^ m)
    (hp : s.latch.ptrRe = 0#32 ∨ s.latch.ptrIm = 0#32) : transformError s = some .nullBuffer := by
  have habsent : (isAbsent s.latch.ptrRe || isAbsent s.latch.ptrIm) = true := by
    simpa [isAbsent] using hp
  rw [transformError, if_neg (by simp [isPow2_of_length h]), if_pos habsent]

/-- With a power of two and two present buffers the engine's state and the ranges remain to be
checked. -/
theorem transformError_present (h : s.latch.n.toInt = 2 ^ m) (hre : s.latch.ptrRe ≠ 0#32)
    (him : s.latch.ptrIm ≠ 0#32) :
    transformError s =
      if !s.fftValid then some .uninit
      else if s.fftLog2n.toNat ≠ m then some .lengthMismatch
      else if !bufok s.latch.ptrRe (2 ^ m) || !bufok s.latch.ptrIm (2 ^ m) then some .badPointer
      else none := by
  have hother : nInt s.latch ≠ fftN s ↔ s.fftLog2n.toNat ≠ m := by
    rw [nInt, h, fftN]
    norm_cast
    rw [(Nat.pow_right_injective le_rfl).eq_iff, eq_comm]
  simp only [transformError, isPow2_of_length h, isAbsent_eq_false hre, isAbsent_eq_false him,
    nLen_of_length h, hother, Bool.not_true, Bool.or_self, Bool.false_eq_true, if_false]

theorem transformError_uninit (h : s.latch.n.toInt = 2 ^ m) (hre : s.latch.ptrRe ≠ 0#32)
    (him : s.latch.ptrIm ≠ 0#32) (hv : s.fftValid = false) :
    transformError s = some .uninit := by
  rw [transformError_present h hre him, if_pos (by simp [hv])]

end

/-- Settles O16: each answer is the first check that does not hold. -/
theorem transformChecksInOrder : Obligations.TransformChecksInOrder := by
  unfold Obligations.TransformChecksInOrder
  intro i s hi
  refine ⟨fun h => ?_, fun m h => ⟨fun hp => ?_, fun hre him => ⟨fun hv => ?_, ?_⟩⟩⟩
  · exact exec_transform_failed hi (by simp [transformError, isPow2_of_not_exists h])
  · exact exec_transform_failed hi (transformError_absent h hp)
  · exact exec_transform_failed hi (transformError_uninit h hre him hv)
  · have herr := transformError_present h hre him
    refine ⟨fun hv hlen => ?_, fun hv hlen hbad => ?_⟩
    · exact exec_transform_failed hi (by rw [herr, if_neg (by simp [hv]), if_pos hlen])
    · have hbufs : (!bufok s.latch.ptrRe (2 ^ m) || !bufok s.latch.ptrIm (2 ^ m)) = true := by
        rw [Bool.or_eq_true, Bool.not_eq_true', Bool.not_eq_true']
        by_contra! hok
        exact hbad ⟨goodBuffer_of_bufok hre (by simpa using hok.1),
          goodBuffer_of_bufok him (by simpa using hok.2)⟩
      exact exec_transform_failed hi
        (by rw [herr, if_neg (by simp [hv]), if_neg (not_not.2 hlen), if_pos hbufs])

/-- Settles O10: `FREE_FFT` leaves `FFT_VALID` 0, so the third check answers. -/
theorem transformAfterFreeFails : Obligations.TransformAfterFreeFails := by
  unfold Obligations.TransformAfterFreeFails
  intro s t m ht l hlen hre him
  have hexec : exec .freeFft s = .next (complete .noError (freeFft s)) := rfl
  cases hexec.symm.trans ht
  have herr : transformError { complete .noError (freeFft s) with latch := l } = some .uninit :=
    transformError_uninit hlen hre him rfl
  exact ⟨exec_transform_failed (.inl rfl) herr, exec_transform_failed (.inr rfl) herr⟩

/-! ## The completion of `FFT` (rules R161, R165) -/

/-- Settles O17: a transform that is ready and served runs to its result. -/
theorem fftCompletes : Obligations.FftCompletes := fun _ _ h hs => exec_fft_ready h hs

theorem writeByte_readByte_self {m : Memory} {a : Nat} (hm : Memory.wf m = true)
    (ha : a < addressSpace) : Memory.writeByte m a (Memory.readByte m a) = m := by
  refine memory_ext (writeByte_wf hm ha) hm fun c => ?_
  by_cases hc : c = a
  · rw [hc, readByte_writeByte_same hm]
  · rw [readByte_writeByte_other hc]

/-- Writing back the word that stands at an address changes nothing. -/
theorem writeWord_readWord_self {m : Memory} {a : Nat} (hm : Memory.wf m = true)
    (ha : a + 4 ≤ addressSpace) : Memory.writeWord m a (Memory.readWord m a) = m := by
  have hself : ∀ k < 4, Memory.writeByte m (a + k)
      ((Memory.readWord m a).extractLsb' (8 * k) 8) = m := fun k hk => by
    rw [wordsAreLittleEndian m a k hk]
    exact writeByte_readByte_self hm (by omega)
  have h0 : Memory.writeByte m a ((Memory.readWord m a).extractLsb' 0 8) = m :=
    hself 0 (by decide)
  rw [Memory.writeWord, h0, hself 1 (by decide), hself 2 (by decide), hself 3 (by decide)]

/-- Settles O20: the one element of each buffer is written back as it was read. -/
theorem fftOfLengthOneIsTheIdentity : Obligations.FftOfLengthOneIsTheIdentity := by
  unfold Obligations.FftOfLengthOneIsTheIdentity
  intro s h hs hm hrev
  refine ⟨_, exec_fft_ready h hs, ⟨rfl, rfl, rfl, rfl, rfl⟩, ?_⟩
  have hre := h.real.inSpace
  have him := h.imag.inSpace
  have hinput : inputCpx 0 s =
      [⟨Memory.readWord s.mem s.latch.ptrRe.toNat, Memory.readWord s.mem s.latch.ptrIm.toNat⟩] := rfl
  have hrev1 : bitrevGen 1 = [0] := rfl
  rw [complete_mem, hrev, hrev1, fftCore_one, hinput]
  simp only [writeCpx, Memory.writeBuffer, Memory.writeWords, List.map_cons, List.map_nil]
  rw [writeWord_readWord_self hm hre, writeWord_readWord_self hm him]

end Sys2Proof.Machine
end

section
/-! SUPPORT. The bit-reversal table and the permutation by it (rules R155, R158, R159). -/

namespace Sys2Proof.Machine

/-! ## The reversal of `m` bits (rule R155) -/

theorem revBits_succ (m i : Nat) : revBits (m + 1) i = i % 2 * 2 ^ m + revBits m (i / 2) := rfl

theorem revBits_lt (m i : Nat) : revBits m i < 2 ^ m := by
  induction m generalizing i with
  | zero => exact Nat.one_pos
  | succ m ih =>
    have hbit := Nat.mod_two_eq_zero_or_one i
    have hrest := ih (i / 2)
    rw [revBits_succ, Nat.pow_succ]
    obtain h | h := hbit <;> rw [h] <;> omega

theorem revBits_zero (m : Nat) : revBits m 0 = 0 := by
  induction m with
  | zero => rfl
  | succ m ih => simp [revBits, ih]

/-- The reversal taken from the other end: the top bit becomes the lowest. -/
theorem revBits_top {b m i : Nat} (hb : b < 2) (hi : i < 2 ^ m) :
    revBits (m + 1) (b * 2 ^ m + i) = 2 * revBits m i + b := by
  induction m generalizing i with
  | zero =>
    have hbit : (b * 2 ^ 0 + i) % 2 = b := by omega
    rw [revBits_succ, hbit, revBits, revBits, pow_zero, Nat.mul_one, Nat.mul_zero, Nat.add_comm]
  | succ m ih =>
    have hdouble : b * 2 ^ (m + 1) = 2 * (b * 2 ^ m) := by ring
    have hlow : (b * 2 ^ (m + 1) + i) % 2 = i % 2 := by omega
    have hhigh : (b * 2 ^ (m + 1) + i) / 2 = b * 2 ^ m + i / 2 := by omega
    rw [revBits_succ, hlow, hhigh, ih (by omega), revBits_succ]
    ring

theorem revBits_revBits {m i : Nat} (hi : i < 2 ^ m) : revBits m (revBits m i) = i := by
  induction m generalizing i with
  | zero => rw [Nat.lt_one_iff.1 hi, revBits_zero, revBits_zero]
  | succ m ih =>
    rw [revBits_succ m i, revBits_top (Nat.mod_lt i two_pos) (revBits_lt m _), ih (by omega)]
    omega

/-! ## The incremental generator (rule R155) -/

theorem two_pow_add_xor_two_pow {m r : Nat} (h : r < 2 ^ m) : (2 ^ m + r) ^^^ 2 ^ m = r := by
  have hdiv : ((2 ^ m + r) ^^^ 2 ^ m) / 2 ^ m = 0 := by
    rw [Nat.xor_div_two_pow, Nat.add_div_left _ (Nat.two_pow_pos m), Nat.div_eq_of_lt h,
      Nat.div_self (Nat.two_pow_pos m), Nat.xor_self]
  have hmod : ((2 ^ m + r) ^^^ 2 ^ m) % 2 ^ m = r := by
    rw [Nat.xor_mod_two_pow, Nat.add_mod_left, Nat.mod_self, Nat.mod_eq_of_lt h, Nat.xor_zero]
  rw [← Nat.div_add_mod ((2 ^ m + r) ^^^ 2 ^ m) (2 ^ m), hdiv, hmod, Nat.mul_zero, Nat.zero_add]

section
variable {m r : Nat} (hr : r < 2 ^ m) (fuel : Nat)
include hr

/-- A clear top bit is set. -/
theorem nextReversed_clear : nextReversed (fuel + 1) (2 ^ m) r = 2 ^ m + r := by
  have hclear : r &&& 2 ^ m = 0 := by simp [Nat.and_two_pow, Nat.testBit_lt_two_pow hr]
  have hset : r ^^^ 2 ^ m = 2 ^ m + r := by
    have hcancel := Nat.xor_xor_cancel_right (2 ^ m + r) (2 ^ m)
    rwa [two_pow_add_xor_two_pow hr] at hcancel
  rw [nextReversed, if_neg (not_not.2 hclear), hset]

/-- A set top bit is cleared, and the bits below are stepped. -/
theorem nextReversed_carry :
    nextReversed (fuel + 1) (2 ^ m) (2 ^ m + r) = nextReversed fuel (2 ^ m >>> 1) r := by
  have hset : (2 ^ m + r) &&& 2 ^ m ≠ 0 := by
    simp [Nat.and_two_pow, Nat.testBit_two_pow_add_eq, Nat.testBit_lt_two_pow hr]
  rw [nextReversed, if_pos hset, two_pow_add_xor_two_pow hr]

end

/-- One step of the generator adds 1 in the reversed order of bits (rule R155). -/
theorem nextReversed_revBits {m i : Nat} (h : i + 1 < 2 ^ m) :
    nextReversed m (2 ^ m >>> 1) (revBits m i) = revBits m (i + 1) := by
  induction m generalizing i with
  | zero => omega
  | succ m ih =>
    have hrest := revBits_lt m (i / 2)
    have hbit : 2 ^ (m + 1) >>> 1 = 2 ^ m := by rw [Nat.shiftRight_one]; omega
    rw [hbit, revBits_succ, revBits_succ]
    obtain heven | hodd := Nat.mod_two_eq_zero_or_one i
    · rw [heven, Nat.zero_mul, Nat.zero_add, nextReversed_clear hrest,
        show (i + 1) % 2 = 1 by omega, show (i + 1) / 2 = i / 2 by omega, Nat.one_mul]
    · rw [hodd, Nat.one_mul, nextReversed_carry hrest, ih (by omega),
        show (i + 1) % 2 = 0 by omega, show (i + 1) / 2 = i / 2 + 1 by omega, Nat.zero_mul,
        Nat.zero_add]

theorem bitrevFrom_revBits {m count i : Nat} (h : i + count ≤ 2 ^ m) :
    bitrevFrom (2 ^ m) count (revBits m i) = (List.range' i count).map (revBits m) := by
  induction count generalizing i with
  | zero => rfl
  | succ count ih =>
    rw [bitrevFrom, List.range'_succ, List.map_cons]
    cases count with
    | zero => rfl
    | succ count =>
      rw [Nat.log2_two_pow, nextReversed_revBits (by omega), ih (by omega)]

/-- The generator's table lists the reversals (rule R155's closed form). -/
theorem bitrevGen_eq_map (m : Nat) :
    bitrevGen (2 ^ m) = (List.range (2 ^ m)).map (revBits m) := by
  have h := bitrevFrom_revBits (m := m) (i := 0) (Nat.zero_add (2 ^ m)).le
  rwa [revBits_zero, ← List.range_eq_range'] at h

theorem bitrevAt_bitrevGen {m i : Nat} (hi : i < 2 ^ m) :
    bitrevAt (bitrevGen (2 ^ m)) i = revBits m i := by
  simp [bitrevAt, bitrevGen_eq_map, hi]

/-- Settles O11: the table lists the reversals. -/
theorem bitrevTableIsBitReversal : Obligations.BitrevTableIsBitReversal := by
  unfold Obligations.BitrevTableIsBitReversal
  intro m i hi
  rw [bitrevAt_bitrevGen hi]
  exact ⟨bitrevGen_length _, rfl, revBits_lt m i⟩

/-- Settles O12: reversing the bits twice gives them back. -/
theorem bitrevTableIsAnInvolution : Obligations.BitrevTableIsAnInvolution := by
  unfold Obligations.BitrevTableIsAnInvolution
  intro m i hi
  rw [bitrevAt_bitrevGen hi, bitrevAt_bitrevGen (revBits_lt m i), revBits_revBits hi]

/-! ## The swap loop (rule R158) -/

theorem cpxAt_swapAt {x : List Cpx} {i r : Nat} (hi : i < x.length) (hr : r < x.length) (j : Nat) :
    cpxAt (swapAt x i r) j =
      if j = r then cpxAt x i else if j = i then cpxAt x r else cpxAt x j := by
  unfold swapAt
  split_ifs with hjr hji
  · rw [hjr, cpxAt_set_same _ _ _ (by simpa)]
  · rw [cpxAt_set_other _ _ _ _ (Ne.symm hjr), hji, cpxAt_set_same _ _ _ hi]
  · rw [cpxAt_set_other _ _ _ _ (Ne.symm hjr), cpxAt_set_other _ _ _ _ (Ne.symm hji)]

/-- The first `k` passes of the swap loop. -/
def swapPasses (table : List Nat) (k : Nat) (x : List Cpx) : List Cpx :=
  (List.range k).foldl
    (fun y i => if i < bitrevAt table i then swapAt y i (bitrevAt table i) else y) x

theorem permute_eq_swapPasses (table : List Nat) (n : Nat) (x : List Cpx) :
    permute table n x = swapPasses table n x := rfl

theorem swapPasses_succ (table : List Nat) (k : Nat) (x : List Cpx) :
    swapPasses table (k + 1) x =
      if k < bitrevAt table k then swapAt (swapPasses table k x) k (bitrevAt table k)
      else swapPasses table k x :=
  foldl_range_succ _ _ _

/-- An involution of the indices below `n` (rule R159). -/
def IsInvolution (f : Nat → Nat) (n : Nat) : Prop := ∀ i < n, f i < n ∧ f (f i) = i

theorem isInvolution_bitrevGen (m : Nat) : IsInvolution (bitrevAt (bitrevGen (2 ^ m))) (2 ^ m) :=
  fun i hi => ⟨(bitrevTableIsBitReversal m i hi).2.2, bitrevTableIsAnInvolution m i hi⟩

/-- Where the element at `j` comes from when the pairs with an index below `k` are swapped. -/
def swappedIndex (f : Nat → Nat) (k j : Nat) : Nat := if j < k ∨ f j < k then f j else j

theorem swappedIndex_zero (f : Nat → Nat) (j : Nat) : swappedIndex f 0 j = j := by
  simp [swappedIndex]

theorem swappedIndex_of_lt {f : Nat → Nat} {k j : Nat} (h : j < k) : swappedIndex f k j = f j :=
  if_pos (.inl h)

section
variable {f : Nat → Nat} {k j : Nat} (hkk : f (f k) = k) (hjj : f (f j) = j)
include hkk hjj

/-- Swapping the pair of `k` exchanges two sources and keeps the others. -/
theorem swappedIndex_succ_of_lt (h : k < f k) :
    swappedIndex f (k + 1) j =
      if j = f k then swappedIndex f k k
      else if j = k then swappedIndex f k (f k) else swappedIndex f k j := by
  have hpair : f j = k ↔ j = f k := ⟨fun h => by rw [← h, hjj], fun h => by rw [h, hkk]⟩
  have hsame : j = k → f j = f k := congrArg f
  unfold swappedIndex
  split_ifs <;> omega

/-- The pair of `k` was swapped before, or is `k` alone. -/
theorem swappedIndex_succ_of_le (h : f k ≤ k) :
    swappedIndex f (k + 1) j = swappedIndex f k j := by
  have hpair : f j = k ↔ j = f k := ⟨fun h => by rw [← h, hjj], fun h => by rw [h, hkk]⟩
  have hsame : j = k → f j = f k := congrArg f
  unfold swappedIndex
  split_ifs <;> omega

end

/-- After `k` passes the pairs with an index below `k` are swapped and the others are not. -/
theorem cpxAt_swapPasses {table : List Nat} {n k : Nat} {x : List Cpx} (hlen : x.length = n)
    (hinv : IsInvolution (bitrevAt table) n) (hk : k ≤ n) {j : Nat} (hj : j < n) :
    cpxAt (swapPasses table k x) j = cpxAt x (swappedIndex (bitrevAt table) k j) := by
  induction k generalizing j with
  | zero => rw [swappedIndex_zero, swapPasses, List.range_zero, List.foldl_nil]
  | succ k ih =>
    have hlen' : (swapPasses table k x).length = n := by
      rw [← permute_eq_swapPasses, permute_length, hlen]
    obtain ⟨hr, hkk⟩ := hinv k hk
    obtain ⟨-, hjj⟩ := hinv j hj
    have hk' : k ≤ n := Nat.le_of_succ_le hk
    rw [swapPasses_succ]
    split_ifs with hswap
    · rw [cpxAt_swapAt (hlen'.symm ▸ hk) (hlen'.symm ▸ hr), ih hk' hj, ih hk' hk, ih hk' hr,
        swappedIndex_succ_of_lt hkk hjj hswap]
      simp only [apply_ite (cpxAt x)]
    · rw [ih hk' hj, swappedIndex_succ_of_le hkk hjj (Nat.not_lt.1 hswap)]

/-- Settles O13: after the last pass every pair is swapped. -/
theorem permuteGathersByTheTable : Obligations.PermuteGathersByTheTable := by
  unfold Obligations.PermuteGathersByTheTable
  intro m x hlen i hi
  rw [permute_eq_swapPasses, cpxAt_swapPasses hlen (isInvolution_bitrevGen m) le_rfl hi,
    swappedIndex_of_lt hi]

end Sys2Proof.Machine
end

section
/-! SUPPORT. The impulse law (rule R163): a butterfly on a zero odd element copies its even element,
whatever the twiddle, so each stage doubles the row of ones. -/

namespace Sys2Proof.Machine

/-! ## Zeros in sums and products (rule R112) -/

section
variable {d : Draw} {a z : Word} (hz : isZero z = true)
include hz

theorem signedQuanta_of_isZero : signedQuanta z = 0 := by
  simp [signedQuanta, quanta_eq_zero_iff.2 hz]

theorem isZero_fneg : isZero (fneg z) = true := by
  rw [eq_zeroOf_of_isZero hz, zeroOf, fneg_packMag (by decide), isZero_packMag (by decide)]
  rfl

theorem isZero_fmul (ha : isFinite a = true) : isZero (fmul d a z) = true := by
  rw [fmul_of_isFinite ha (isFinite_of_isZero hz), quanta_eq_zero_iff.2 hz, Nat.mul_zero,
    roundMag_zero, isZero_packMag (by decide)]
  rfl

theorem isZero_fadd (ha : isZero a = true) : isZero (fadd d a z) = true := by
  rw [fadd_of_sum_zero d (isFinite_of_isZero ha) (isFinite_of_isZero hz)
    (by rw [signedQuanta_of_isZero ha, signedQuanta_of_isZero hz, Int.add_zero])]
  split <;> rfl

theorem isZero_fsub (ha : isZero a = true) : isZero (fsub d a z) = true :=
  isZero_fadd (isZero_fneg hz) ha

/-- A finite value but `-0` absorbs a zero of either sign. -/
theorem fadd_isZero (ha : isFinite a = true) (hne : a ≠ 0x80000000#32) : fadd d a z = a := by
  have hsum : signedQuanta a + signedQuanta z = signedQuanta a := by
    rw [signedQuanta_of_isZero hz, Int.add_zero]
  obtain h0 | h0 := eq_or_ne (quanta a) 0
  · have hzero : signedQuanta a = 0 := signedQuanta_of_isZero (quanta_eq_zero_iff.1 h0)
    have hpos : signBit a = false := by simpa [eq_negZero_iff, h0] using hne
    rw [fadd_of_sum_zero d ha (isFinite_of_isZero hz) (hsum.trans hzero), if_neg (by simp [hne]),
      eq_zeroOf_of_isZero (quanta_eq_zero_iff.1 h0), hpos]
    rfl
  · have hexact := roundingIsExactOnBinary32 a 1 ha Nat.one_pos
    have hsign : decide (signedQuanta a < 0) = signBit a := by
      cases hs : signBit a with
      | false => simp [signedQuanta, hs]
      | true => simp [signedQuanta, hs, Nat.pos_of_ne_zero h0]
    have habs : (signedQuanta a).natAbs = quanta a := by
      unfold signedQuanta
      split <;> omega
    rw [Nat.mul_one] at hexact
    rw [fadd_of_isFinite ha (isFinite_of_isZero hz), hsum, if_neg (by omega), hsign, habs, hexact]

theorem fsub_isZero (ha : isFinite a = true) (hne : a ≠ 0x80000000#32) : fsub d a z = a :=
  fadd_isZero (isZero_fneg hz) ha hne

end

/-! ## Twiddles are finite (rule R156) -/

/-- Both parts are finite. -/
def FiniteCpx (w : Cpx) : Prop := isFinite w.re = true ∧ isFinite w.im = true

theorem isFinite_roundFixPosZero (neg : Bool) {v : Nat} (h : v ≤ fixOne) :
    isFinite (roundFixPosZero neg v) = true := by
  unfold roundFixPosZero
  split
  · rfl
  · exact (roundFix_le_one neg h).1

theorem twRom_finite (L k : Nat) : FiniteCpx (twRom L k) := by
  unfold twRom
  dsimp only
  split
  · exact ⟨isFinite_roundFixPosZero _ (cosFix_le _), isFinite_roundFixPosZero _ (sinFix_le _)⟩
  · exact ⟨isFinite_roundFixPosZero _ (sinFix_le _), isFinite_roundFixPosZero _ (cosFix_le _)⟩

theorem twView_finite (L m i : Nat) : FiniteCpx (twView L m i) := twRom_finite _ _

/-- A finite twiddle times zero is a zero, of some signs. -/
theorem isZero_cmul_zero {d : Draw} {w : Cpx} (hw : FiniteCpx w) :
    isZero (cmul d w Cpx.zero).re = true ∧ isZero (cmul d w Cpx.zero).im = true := by
  obtain ⟨hre, him⟩ := hw
  have h0 : isZero 0#32 = true := by decide
  exact ⟨isZero_fsub (isZero_fmul h0 him) (isZero_fmul h0 hre),
    isZero_fadd (isZero_fmul h0 him) (isZero_fmul h0 hre)⟩

/-! ## A row of ones (rules R160, R161) -/

/-- `(1, +0)`. -/
def oneCpx : Cpx := ⟨oneF, 0#32⟩

/-- The elements of a working array below `c` are `(1, +0)`, the others `(+0, +0)`. -/
def OnesBelow (c : Nat) (x : List Cpx) : Prop :=
  ∀ i, cpxAt x i = if i < c then oneCpx else Cpx.zero

section
variable {c : Nat} {x : List Cpx} (hx : OnesBelow c x)
include hx

/-- Where the odd element is zero the butterfly leaves the even element in both places. -/
theorem OnesBelow.cpxAt_butterfly {d : Draw} {p q : Nat} {w : Cpx} (hw : FiniteCpx w)
    (hpq : p < q) (hq : q < x.length) (hc : c ≤ q) (i : Nat) :
    cpxAt (butterfly d x p q w) i = if i = q then cpxAt x p else cpxAt x i := by
  have hodd : cpxAt x q = Cpx.zero := by rw [hx, if_neg (Nat.not_lt.2 hc)]
  obtain ⟨hre, him⟩ := isZero_cmul_zero (d := 0 :: d) hw
  have heven : (isFinite (cpxAt x p).re = true ∧ (cpxAt x p).re ≠ 0x80000000#32) ∧
      isFinite (cpxAt x p).im = true ∧ (cpxAt x p).im ≠ 0x80000000#32 := by
    rw [hx]
    split <;> decide
  obtain ⟨⟨hfre, hnre⟩, hfim, hnim⟩ := heven
  split_ifs with hiq
  · rw [hiq, cpxAt_butterfly_odd _ _ _ _ _ hq hpq.ne, hodd, fsub_isZero hre hfre hnre,
      fsub_isZero him hfim hnim]
  · by_cases hip : i = p
    · rw [hip, cpxAt_butterfly_even _ _ _ _ _ (hpq.trans hq), hodd, fadd_isZero hre hfre hnre,
        fadd_isZero him hfim hnim]
    · rw [cpxAt_butterfly_other _ _ _ _ _ _ (Ne.symm hip) (Ne.symm hiq)]

/-- A one copied to the first zero makes the row longer. -/
theorem OnesBelow.butterfly_grows {d : Draw} {p : Nat} {w : Cpx} (hw : FiniteCpx w)
    (hp : p < c) (hc : c < x.length) : OnesBelow (c + 1) (butterfly d x p c w) := by
  intro i
  rw [hx.cpxAt_butterfly hw hp hc le_rfl, hx p, if_pos hp, hx i]
  by_cases hic : i = c
  · rw [if_pos hic, if_pos (by omega)]
  · have hlt : i < c + 1 ↔ i < c := by omega
    rw [if_neg hic]
    simp only [hlt]

/-- A zero copied to a zero changes nothing. -/
theorem OnesBelow.butterfly_keeps {d : Draw} {p q : Nat} {w : Cpx} (hw : FiniteCpx w)
    (hp : c ≤ p) (hpq : p < q) (hq : q < x.length) : OnesBelow c (butterfly d x p q w) := by
  intro i
  rw [hx.cpxAt_butterfly hw hpq hq (by omega), hx p, if_neg (Nat.not_lt.2 hp), hx i]
  by_cases hiq : i = q
  · rw [if_pos hiq, if_neg (by omega)]
  · rw [if_neg hiq]

end

/-! ## Stages -/

/-- What a counted loop keeps of an array, pass after pass. -/
theorem foldl_range_inv {P : Nat → List Cpx → Prop} {f : List Cpx → Nat → List Cpx} {n : Nat}
    {x : List Cpx} (h0 : P 0 x) (hstep : ∀ k < n, ∀ y, P k y → P (k + 1) (f y k)) :
    P n ((List.range n).foldl f x) := by
  induction n with
  | zero => exact h0
  | succ n ih =>
    rw [foldl_range_succ]
    exact hstep n (Nat.lt_succ_self n) _ (ih fun k hk => hstep k (Nat.lt_succ_of_lt hk))

/-- An array of `n` elements whose first `c` are ones and whose others are zeros. -/
structure OnesRow (n c : Nat) (x : List Cpx) : Prop where
  length : x.length = n
  ones : OnesBelow c x

section
variable {tw : Nat → Cpx} (htw : ∀ i, FiniteCpx (tw i)) {n half : Nat} {x : List Cpx}
include htw

/-- The first block copies the row of ones behind itself. -/
theorem OnesRow.fftBlock_grows {d : Draw} {step : Nat} (hx : OnesRow n half x)
    (hn : 2 * half ≤ n) : OnesRow n (2 * half) (fftBlock tw d 0 half step x) := by
  have hloop : OnesRow n (half + half) (fftBlock tw d 0 half step x) := by
    refine foldl_range_inv (P := fun j => OnesRow n (j + half)) (by rwa [Nat.zero_add])
      fun j hj y hy => ?_
    have hgrows := hy.ones.butterfly_grows (d := j :: d) (htw (j * step)) (p := j) (by omega)
      (by rw [hy.length]; omega)
    rw [Nat.zero_add, Nat.add_right_comm]
    exact ⟨by rw [butterfly_length, hy.length], hgrows⟩
  rwa [Nat.two_mul]

/-- A block behind the row of ones holds zeros only. -/
theorem OnesRow.fftBlock_keeps {d : Draw} {base step c : Nat} (hx : OnesRow n c x)
    (hc : c ≤ base) (hn : base + 2 * half ≤ n) :
    OnesRow n c (fftBlock tw d base half step x) := by
  refine foldl_range_inv (P := fun _ => OnesRow n c) hx fun j hj y hy => ?_
  exact ⟨by rw [butterfly_length, hy.length], hy.ones.butterfly_keeps (htw _) (by omega) (by omega)
    (by rw [hy.length]; omega)⟩

/-- Each stage doubles the row of ones (rule R161). -/
theorem OnesRow.fftStage_doubles {d : Draw} (hx : OnesRow n half x) (hhalf : 0 < half)
    (hn : 2 * half ≤ n) : OnesRow n (2 * half) (fftStage tw d n (2 * half) x) := by
  have hblocks : 0 < n / (2 * half) := Nat.div_pos hn (by omega)
  have hloop : OnesRow n (if n / (2 * half) = 0 then half else 2 * half)
      (fftStage tw d n (2 * half) x) := by
    refine foldl_range_inv (P := fun b => OnesRow n (if b = 0 then half else 2 * half))
      (by rwa [if_pos rfl]) fun b hb y hy => ?_
    rw [if_neg (Nat.succ_ne_zero b), Nat.mul_div_cancel_left half two_pos]
    cases b with
    | zero =>
      rw [if_pos rfl] at hy
      rw [Nat.zero_mul]
      exact hy.fftBlock_grows htw hn
    | succ b =>
      rw [if_neg (Nat.succ_ne_zero b)] at hy
      have hlast : (b + 1 + 1) * (2 * half) ≤ n :=
        (Nat.mul_le_mul_right _ hb).trans (Nat.div_mul_le_self _ _)
      exact hy.fftBlock_keeps htw (Nat.le_mul_of_pos_left _ b.succ_pos)
        (by rwa [Nat.succ_mul] at hlast)
  rwa [if_neg hblocks.ne'] at hloop

end

/-! ## The transform of an impulse (rule R163) -/

/-- The permutation leaves an impulse where it is: only index 0 reverses to 0. -/
theorem OnesRow.permute_keeps {m : Nat} {x : List Cpx} (hx : OnesRow (2 ^ m) 1 x) :
    OnesRow (2 ^ m) 1 (permute (bitrevGen (2 ^ m)) (2 ^ m) x) := by
  refine ⟨by rw [permute_length, hx.length], fun i => ?_⟩
  obtain hi | hi := Nat.lt_or_ge i (2 ^ m)
  · have hzero : revBits m i < 1 ↔ i < 1 := by
      rw [Nat.lt_one_iff, Nat.lt_one_iff]
      exact ⟨fun h => by rw [← revBits_revBits hi, h, revBits_zero],
        fun h => by rw [h, revBits_zero]⟩
    rw [permuteGathersByTheTable m x hx.length i hi, bitrevAt_bitrevGen hi, hx.ones]
    simp only [hzero]
  · have hpos := Nat.two_pow_pos m
    rw [if_neg (by omega), cpxAt, List.getD_eq_default _ _ (by rwa [permute_length, hx.length])]

theorem OnesRow.fftCore_fills {tw : Nat → Cpx} (htw : ∀ i, FiniteCpx (tw i)) {d : Draw} {m : Nat}
    {x : List Cpx} (hx : OnesRow (2 ^ m) 1 x) :
    OnesRow (2 ^ m) (2 ^ m) (fftCore tw (bitrevGen (2 ^ m)) d m x) := by
  refine foldl_range_inv (P := fun k => OnesRow (2 ^ m) (2 ^ k)) hx.permute_keeps fun k hk y hy => ?_
  have hle : 2 ^ (k + 1) ≤ 2 ^ m := Nat.pow_le_pow_right two_pos hk
  rw [Nat.pow_succ'] at hle ⊢
  exact hy.fftStage_doubles htw (Nat.two_pow_pos k) hle

theorem onesRow_impulse {n : Nat} (hn : 0 < n) :
    OnesRow n 1 (oneCpx :: List.replicate (n - 1) Cpx.zero) := by
  refine ⟨by rw [List.length_cons, List.length_replicate]; omega, fun i => ?_⟩
  cases i with
  | zero => rfl
  | succ i =>
    rw [if_neg (by omega)]
    exact List.getElem?_getD_replicate_default_eq ..

theorem OnesRow.eq_replicate {n : Nat} {x : List Cpx} (hx : OnesRow n n x) :
    x = List.replicate n oneCpx := by
  refine List.ext_getElem (by simp [hx.length]) fun i hi _ => ?_
  have hone := hx.ones i
  rw [if_pos (hx.length ▸ hi), cpxAt, List.getD_eq_getElem _ _ hi] at hone
  rw [hone, List.getElem_replicate]

/-- Settles O15: the twiddles are finite, and each stage doubles the row of ones. -/
theorem impulseBecomesFlatSpectrum : Obligations.ImpulseBecomesFlatSpectrum := by
  unfold Obligations.ImpulseBecomesFlatSpectrum
  intro L m d _
  exact ((onesRow_impulse (Nat.two_pow_pos m)).fftCore_fills (twView_finite L m)).eq_replicate

end Sys2Proof.Machine
end

section
/-! SUPPORT. INIT_CQT: its checks in their order, and the bank it builds when they pass; FREE_CQT
(rules R195, R197 to R205, R220, R244). -/

namespace Sys2Proof.Machine

/-! ## `FREE_CQT` (rule R220) -/

/-- Settles O36: the completion of a state that differs in the kernel bank only. -/
theorem freeCqtMeaning : Obligations.FreeCqtMeaning := by
  unfold Obligations.FreeCqtMeaning
  intro s
  have hexec : exec .freeCqt s = .next (complete .noError (freeCqt s)) := rfl
  have hres := exec_result hexec
  obtain ⟨hdone, houtside⟩ := hres.completes
  exact ⟨_, hexec, hdone, rfl, rfl, rfl, hres.sameFftContext (by decide), rfl, rfl, houtside⟩

/-! ## The checks of `INIT_CQT` (rules R195, R244) -/

theorem exec_initCqt_failed {s : State} {e : ErrCode} (h : initCqtError s = some e) :
    exec .initCqt s = .next (complete e s) := by
  simp only [exec, execInitCqt, h, fail_eq]

/-! The bins of positive counts, as a length and as the exact product (rule R124). -/
theorem binsLen_of_counts {l : Latch} {bpo oct : Nat} (hbpo : l.bpo.toInt = bpo)
    (hoct : l.oct.toInt = oct) : binsLen l = bpo * oct := by
  simp [binsLen, bpoInt, octInt, hbpo, hoct]

theorem binsInt_of_counts {l : Latch} {bpo oct : Nat} (hbpo : l.bpo.toInt = bpo)
    (hoct : l.oct.toInt = oct) : binsInt l = ((bpo * oct : Nat) : Int) := by
  simp [binsInt, bpoInt, octInt, hbpo, hoct]

section
variable {s : State} {m : Nat}

/-- A length other than the context's, as exponents. -/
theorem nInt_ne_fftN_iff (h : s.latch.n.toInt = 2 ^ m) :
    nInt s.latch ≠ fftN s ↔ s.fftLog2n.toNat ≠ m := by
  rw [nInt, h, fftN]
  norm_cast
  rw [(Nat.pow_right_injective le_rfl).eq_iff, eq_comm]

theorem initCqtError_params (h : s.latch.n.toInt = 2 ^ m)
    (hbad : s.latch.bpo.toInt ≤ 0 ∨ s.latch.oct.toInt ≤ 0 ∨ posfin s.latch.sr = false ∨
      posfin s.latch.fmin = false) : initCqtError s = some .invalidParam := by
  rw [initCqtError, if_neg (by simp [isPow2_of_length h])]
  by_cases hcount : bpoInt s.latch ≤ 0 ∨ octInt s.latch ≤ 0
  · rw [if_pos hcount]
  · have hvalue : (!posfin s.latch.sr || !posfin s.latch.fmin) = true := by
      simpa using (or_assoc.2 hbad).resolve_left hcount
    rw [if_neg hcount, if_pos hvalue]

/-- With a power of two and good parameters the engine's state and the bank's size remain to be
checked. -/
theorem initCqtError_good_params (h : s.latch.n.toInt = 2 ^ m) (hbpo : 0 < s.latch.bpo.toInt)
    (hoct : 0 < s.latch.oct.toInt) (hsr : posfin s.latch.sr = true)
    (hfmin : posfin s.latch.fmin = true) :
    initCqtError s =
      if s.cqtValid then some .alreadyInit
      else if !s.fftValid then some .uninit
      else if s.fftLog2n.toNat ≠ m then some .lengthMismatch
      else if (s.cfg.kbankCap.toNat : Int) < s.latch.bpo.toInt * s.latch.oct.toInt * 2 ^ m then
        some .allocFail
      else none := by
  have hcount : ¬ (bpoInt s.latch ≤ 0 ∨ octInt s.latch ≤ 0) := by
    rw [bpoInt, octInt]
    omega
  have hsize : binsInt s.latch * nInt s.latch = s.latch.bpo.toInt * s.latch.oct.toInt * 2 ^ m := by
    rw [binsInt, bpoInt, octInt, nInt, h]
  simp only [initCqtError, isPow2_of_length h, if_neg hcount, hsr, hfmin, nInt_ne_fftN_iff h,
    hsize, gt_iff_lt, Bool.not_true, Bool.or_self, Bool.false_eq_true, if_false]

end

/-- Settles O28: each answer is the first check that does not hold. -/
theorem initCqtChecksInOrder : Obligations.InitCqtChecksInOrder := by
  unfold Obligations.InitCqtChecksInOrder
  refine fun s => ⟨fun h => ?_, fun m h => ⟨fun hbad => ?_, fun hbpo hoct hsr hfmin => ?_⟩⟩
  · exact exec_initCqt_failed (by simp [initCqtError, isPow2_of_not_exists h])
  · exact exec_initCqt_failed (initCqtError_params h hbad)
  · have herr := initCqtError_good_params h hbpo hoct hsr hfmin
    refine ⟨fun hbank => ?_, fun hbank hfft => ?_, fun hbank hfft hlen => ?_,
      fun hbank hfft hlen hbig => ?_⟩ <;> refine exec_initCqt_failed (herr.trans ?_)
    · rw [if_pos hbank]
    · rw [if_neg (by simp [hbank]), if_pos (by simp [hfft])]
    · rw [if_neg (by simp [hbank]), if_neg (by simp [hfft]), if_pos hlen]
    · rw [if_neg (by simp [hbank]), if_neg (by simp [hfft]), if_neg (not_not.2 hlen), if_pos hbig]

/-! ## The bank `INIT_CQT` builds (rules R195, R197 to R205) -/

theorem InitCqtReady.initCqtError_eq_none {m bpo oct : Nat} {s : State}
    (h : InitCqtReady m bpo oct s) : initCqtError s = none := by
  have hbpo := h.bpoArg
  have hoct := h.octArg
  have hfits : ¬ (s.cfg.kbankCap.toNat : Int) < s.latch.bpo.toInt * s.latch.oct.toInt * 2 ^ m := by
    rw [hbpo, hoct, not_lt]
    exact_mod_cast h.fits
  rw [initCqtError_good_params h.length (by have := h.bpoPos; omega) (by have := h.octPos; omega)
    h.rate h.freq, if_neg (by simp [h.noBank]), if_neg (by simp [h.initialised]),
    if_neg (not_not.2 h.matching), if_neg hfits]

/-- The bank has its kernels in the order of the bins (rule R195). -/
theorem getElem?_kernelBank (M : Config.Math) (tw : Nat → Cpx) (table : List Nat) (d : Draw)
    (m : Nat) (bpo : Int) (sr fmin : Word) {bins k : Nat} (hk : k < bins) :
    (kernelBank M tw table d m bins bpo sr fmin)[k]? =
      some (kernel M tw table (k :: 1 :: d) m k (bankConsts M (0 :: d) bpo sr) sr fmin) := by
  simp [kernelBank, hk]

theorem InitCqtReady.builtBank_eq {m bpo oct : Nat} {s : State} (h : InitCqtReady m bpo oct s) :
    builtBank s = kernelBank (coreMath s.cfg) (twView s.cfg.log2NMax.toNat m) s.bitrev [s.draws] m
      (bpo * oct) bpo s.latch.sr s.latch.fmin := by
  rw [builtBank, twiddle, h.matching, drawRoot_eq, binsLen_of_counts h.bpoArg h.octArg, bpoInt,
    h.bpoArg]

/-- Settles O29: the checks pass, and the bins and the length, which the bank's capacity bounds, fit
their registers. -/
theorem initCqtBuildsTheBank : Obligations.InitCqtBuildsTheBank := by
  unfold Obligations.InitCqtBuildsTheBank
  intro m bpo oct s h
  have hexec : exec .initCqt s = .next (complete .noError (buildCqt s)) := by
    simp only [exec, execInitCqt, h.initCqtError_eq_none, succeed_eq]
  have hres := exec_result hexec
  obtain ⟨hdone, houtside⟩ := hres.completes
  have hcap := s.cfg.kbankCap.isLt
  have hfits := h.fits
  have hbins : bpo * oct < 2 ^ 32 :=
    ((Nat.le_mul_of_pos_right _ (Nat.two_pow_pos m)).trans hfits).trans_lt hcap
  have hlen : 2 ^ m < 2 ^ 32 :=
    ((Nat.le_mul_of_pos_left _ (Nat.mul_pos h.bpoPos h.octPos)).trans hfits).trans_lt hcap
  refine ⟨_, hexec, hdone, rfl, ?_, ?_, ?_, fun k hk => ?_, hres.sameFftContext (by decide), rfl,
    houtside⟩
  · rw [complete_cqtBins, buildCqt_cqtBins, binsLen_of_counts h.bpoArg h.octArg,
      BitVec.toNat_ofNat, Nat.mod_eq_of_lt hbins]
  · rw [complete_cqtLen, buildCqt_cqtLen, nLen_of_length h.length, BitVec.toNat_ofNat,
      Nat.mod_eq_of_lt hlen]
  · rw [complete_kbank, buildCqt_kbank, h.builtBank_eq, kernelBank_length]
  · rw [complete_kbank, buildCqt_kbank, h.builtBank_eq, getElem?_kernelBank _ _ _ _ _ _ _ _ hk]

end Sys2Proof.Machine
end

section
/-! SUPPORT. CQT: its checks in their order, and what its outputs hold when nothing stands in its
way (rules R210, R212, R216, R244). -/

namespace Sys2Proof.Machine

/-! ## The checks of `CQT` (rules R210, R244) -/

theorem exec_cqt_failed {s : State} {e : ErrCode} (h : cqtError s = some e) :
    exec .cqt s = .next (complete e s) := by
  rw [exec, execCqt, h, memoryCommand_failed]

section
variable {s : State}

/-- The four pointers of `CQT` are all present. -/
def CqtPointersPresent (l : Latch) : Prop :=
  l.ptrRe ≠ 0#32 ∧ l.ptrIm ≠ 0#32 ∧ l.ptrOre ≠ 0#32 ∧ l.ptrOim ≠ 0#32

theorem cqtError_absent (h : s.latch.ptrRe = 0#32 ∨ s.latch.ptrIm = 0#32 ∨
    s.latch.ptrOre = 0#32 ∨ s.latch.ptrOim = 0#32) : cqtError s = some .nullBuffer := by
  have habsent : (isAbsent s.latch.ptrRe || isAbsent s.latch.ptrIm || isAbsent s.latch.ptrOre
      || isAbsent s.latch.ptrOim) = true := by
    simpa [isAbsent, or_assoc] using h
  rw [cqtError, if_pos habsent]

theorem cqtError_present (h : CqtPointersPresent s.latch) :
    cqtError s =
      if s.latch.bpo.toInt ≤ 0 ∨ s.latch.oct.toInt ≤ 0 then some .invalidParam
      else if !s.cqtValid then some .uninit
      else if binsInt s.latch > s.cqtBins.toNat then some .bankTooSmall
      else if s.latch.n.toInt ≠ s.cqtLen.toNat then some .lengthMismatch
      else if !bufok s.latch.ptrRe (nLen s.latch) || !bufok s.latch.ptrIm (nLen s.latch)
          || !bufok s.latch.ptrOre (binsLen s.latch)
          || !bufok s.latch.ptrOim (binsLen s.latch) then some .badPointer
      else none := by
  obtain ⟨hre, him, hore, hoim⟩ := h
  rw [cqtError, if_neg (by simp [isAbsent_eq_false, hre, him, hore, hoim])]
  rfl

/-- With four present buffers and positive counts the bank's descriptor and the ranges remain to be
checked. -/
theorem cqtError_counts {bpo oct : Nat} (h : CqtPointersPresent s.latch) (hbpo : 0 < bpo)
    (hoct : 0 < oct) (hb : s.latch.bpo.toInt = bpo) (ho : s.latch.oct.toInt = oct) :
    cqtError s =
      if !s.cqtValid then some .uninit
      else if s.cqtBins.toNat < bpo * oct then some .bankTooSmall
      else if s.latch.n.toInt ≠ s.cqtLen.toNat then some .lengthMismatch
      else if !bufok s.latch.ptrRe (nLen s.latch) || !bufok s.latch.ptrIm (nLen s.latch)
          || !bufok s.latch.ptrOre (bpo * oct) || !bufok s.latch.ptrOim (bpo * oct) then
        some .badPointer
      else none := by
  have hcount : ¬ (s.latch.bpo.toInt ≤ 0 ∨ s.latch.oct.toInt ≤ 0) := by omega
  rw [cqtError_present h, if_neg hcount, binsLen_of_counts hb ho, binsInt_of_counts hb ho]
  simp only [gt_iff_lt, Nat.cast_lt]

end

/-- Settles O33: each answer is the first check that does not hold. -/
theorem cqtChecksInOrder : Obligations.CqtChecksInOrder := by
  unfold Obligations.CqtChecksInOrder
  refine fun s => ⟨fun habsent => ?_, fun hre him hore hoim => ?_⟩
  · exact exec_cqt_failed (cqtError_absent habsent)
  have hp : CqtPointersPresent s.latch := ⟨hre, him, hore, hoim⟩
  refine ⟨fun hcount => ?_, fun bpo oct hbpo hoct hb ho => ?_⟩
  · exact exec_cqt_failed (by rw [cqtError_present hp, if_pos hcount])
  have herr := cqtError_counts hp hbpo hoct hb ho
  refine ⟨fun hv => ?_, fun hv hsmall => ?_, fun hv hfits hlen => ?_,
    fun n hv hfits hn hlen hbad _ => ?_⟩ <;> refine exec_cqt_failed (herr.trans ?_)
  · rw [if_pos (by simp [hv])]
  · rw [if_neg (by simp [hv]), if_pos hsmall]
  · rw [if_neg (by simp [hv]), if_neg (Nat.not_lt.2 hfits), if_pos hlen]
  · have hnLen : nLen s.latch = n := by rw [nLen, nInt, hn, Int.toNat_natCast]
    rw [if_neg (by simp [hv]), if_neg (Nat.not_lt.2 hfits), if_neg (by rw [hn, hlen, not_not]),
      hnLen, if_pos]
    by_contra hok
    simp only [Bool.or_eq_true, Bool.not_eq_true', not_or, Bool.not_eq_false] at hok
    obtain ⟨⟨⟨hokre, hokim⟩, hokore⟩, hokoim⟩ := hok
    exact hbad ⟨goodBuffer_of_bufok hre hokre, goodBuffer_of_bufok him hokim,
      goodBuffer_of_bufok hore hokore, goodBuffer_of_bufok hoim hokoim⟩

/-! ## A correlation that is ready -/

section
variable {m bpo oct : Nat} {s : State} (h : CqtReady m bpo oct s)
include h

/-- A correlation that is ready passes its checks (rule R244). -/
theorem CqtReady.cqtError_eq_none : cqtError s = none := by
  have hlen : s.latch.n.toInt = s.cqtLen.toNat := by
    rw [h.length, h.matching]
    norm_cast
  rw [cqtError_counts ⟨h.inReal.present, h.inImag.present, h.outReal.present, h.outImag.present⟩
    h.bpoPos h.octPos h.bpoArg h.octArg, if_neg (by simp [h.initialised]),
    if_neg (Nat.not_lt.2 h.fits), if_neg (not_not.2 hlen), nLen_of_length h.length,
    if_neg (by simp [h.inReal.bufok, h.inImag.bufok, h.outReal.bufok, h.outImag.bufok])]

/-- A correlation that is ready, on ordinary memory, breaks no host duty (rules R69, R76). -/
theorem CqtReady.runs (hs : Served .cqt s) : memoryCommandRuns .cqt (cqtError s) s := by
  refine ⟨h.cqtError_eq_none, ?_, hs.memory⟩
  simp [buffersConflict, readOnlyBuffers, writtenBuffers, nLen_of_length h.length,
    binsLen_of_counts h.bpoArg h.octArg, h.outsApart.not_overlaps, h.realReal.not_overlaps,
    h.realImag.not_overlaps, h.imagReal.not_overlaps, h.imagImag.not_overlaps]

theorem CqtReady.zipCpx_eq_inputCpx : zipCpx (readReal s) (readImag s) = inputCpx m s := by
  simp [zipCpx, readReal, readImag, Memory.readBuffer, inputCpx, nLen_of_length h.length,
    List.zipWith_map, List.zipWith_self]

end

/-- The coefficients of a bank (rules R210, R212). -/
def coefficients (m bins : Nat) (s : State) : List Cpx :=
  (List.range bins).map fun k => correlate [k, s.draws] (inputCpx m s) (kernelAt s.kbank k) m

theorem cpxAt_coefficients {m bins k : Nat} (s : State) (hk : k < bins) :
    cpxAt (coefficients m bins s) k =
      correlate [k, s.draws] (inputCpx m s) (kernelAt s.kbank k) m := by
  simp [cpxAt, coefficients, hk]

/-- `CQT` completes with the coefficients in its two outputs (rule R210). -/
theorem exec_cqt_ready {m bpo oct : Nat} {s : State} (h : CqtReady m bpo oct s)
    (hs : Served .cqt s) :
    exec .cqt s = .next (complete .noError { s with
      mem := writeCpx s.mem s.latch.ptrOre s.latch.ptrOim (coefficients m (bpo * oct) s) }) := by
  have hserved := memoryCommand_served cqtMemory (h.runs hs) hs.served
  rw [cqtMemory, cqtResult, h.zipCpx_eq_inputCpx, nLen_of_length h.length, Nat.log2_two_pow,
    binsLen_of_counts h.bpoArg h.octArg, drawRoot_eq] at hserved
  exact hserved

/-- Settles O34: the result has a coefficient for each word of the two outputs. -/
theorem cqtWritesItsCoefficients : Obligations.CqtWritesItsCoefficients := by
  unfold Obligations.CqtWritesItsCoefficients
  intro m bpo oct s h hs hm
  have hlen : (coefficients m (bpo * oct) s).length = bpo * oct := by simp [coefficients]
  obtain ⟨hengine, houtside⟩ := complete_withMemory_frame .noError
    (writeCpx s.mem s.latch.ptrOre s.latch.ptrOim (coefficients m (bpo * oct) s)) s
  refine ⟨_, exec_cqt_ready h hs, ⟨rfl, rfl, rfl, rfl, rfl⟩, hengine, houtside,
    writeCpx_outside h.outReal.isAbsent_eq_false h.outImag.isAbsent_eq_false hlen s,
    fun k hk => ?_⟩
  rw [← cpxAt_coefficients s hk]
  exact readWord_writeCpx hm hlen h.outReal h.outImag h.outsApart hk

end Sys2Proof.Machine
end

section
/-! SUPPORT. The CQT datapath: skipped bins, the Hann window's edges, the clamped filter length and
the correlator on an all-zero kernel (rules R199 to R203, R212, R213). -/

namespace Sys2Proof.Machine

/-! ## Skipped bins (rule R199) -/

theorem binSkipped_of_frequency {freq nyq lr : Word}
    (h : fgt freq 0#32 = false ∨ fge freq nyq = true) : binSkipped freq nyq lr = true := by
  obtain hlow | hhigh := h
  · simp [binSkipped, hlow]
  · simp [binSkipped, hhigh]

/-- Settles O30: a frequency out of range alone makes the bin skipped. -/
theorem binsAtNyquistHaveZeroKernels : Obligations.BinsAtNyquistHaveZeroKernels := by
  unfold Obligations.BinsAtNyquistHaveZeroKernels
  intro M tw table d m k c sr fmin h
  exact if_pos (binSkipped_of_frequency h)

/-! ## Zeros and ones in products and quotients (rule R112) -/

theorem isZero_fdiv {d : Draw} {z b : Word} (hz : isZero z = true) (hb : isFinite b = true)
    (hne : isZero b = false) : isZero (fdiv d z b) = true := by
  rw [fdiv_of_isFinite (isFinite_of_isZero hz) hb hne, quanta_eq_zero_iff.2 hz, Nat.zero_shiftLeft,
    roundMag_zero, isZero_packMag (by decide)]
  rfl

/-- `ONE` is the unit of multiplication. -/
theorem fmul_oneF {d : Draw} {a : Word} (ha : isFinite a = true) : fmul d a oneF = a := by
  have hone : quanta oneF = 2 ^ 149 := by decide
  have hsign : signBit oneF = false := by decide
  rw [fmul_of_isFinite ha (by decide), hone, hsign, Bool.bne_false]
  exact roundingIsExactOnBinary32 a _ ha (by decide)

theorem fmul_posZero {d : Draw} {b : Word} (hb : isFinite b = true) (hs : signBit b = false) :
    fmul d 0#32 b = 0#32 := by
  have hzero : quanta 0#32 = 0 := by decide
  rw [fmul_of_isFinite (by decide) hb, hzero, hs, Nat.zero_mul, roundMag_zero]
  rfl

/-! ## The Hann window (rule R203) -/

/-- The last index of a filter of 2 to `2^24` samples is a positive value. -/
theorem i2f_lastIndex {len : Nat} (hlow : 2 ≤ len) (hhigh : len ≤ 2 ^ 24) :
    isFinite (i2f ((len : Int) - 1)) = true ∧ isZero (i2f ((len : Int) - 1)) = false := by
  have habs : ((len : Int) - 1).natAbs = len - 1 := by omega
  have hbin : IsBinary32 (((len : Int) - 1).natAbs * 2 ^ 149) :=
    isBinary32_mul_two_pow (by omega) (by decide)
  obtain ⟨hfin, -, hquanta⟩ := i2f_exact hbin
  refine ⟨hfin, ?_⟩
  rw [← Bool.not_eq_true, ← quanta_eq_zero_iff, hquanta]
  omega

/-- Sample 0 has the angle `2π · 0` over the last index. -/
theorem isZero_twoPi_mul_zero (d : Draw) : isZero (fmul d twoPiF (i2f (0 : Nat))) = true :=
  isZero_fmul (by decide) (by decide)

/-- Settles O31: the first angle is a zero, whose cosine is 1, unless the last index is 0 as well
and the angle is a NaN, which every later operation hands on. -/
theorem hannWindowEdges : Obligations.HannWindowEdges := by
  unfold Obligations.HannWindowEdges
  refine ⟨fun d len hlow hhigh => ?_, fun d => ?_⟩
  · obtain ⟨hfin, hne⟩ := i2f_lastIndex hlow hhigh
    have hangle := isZero_fdiv (d := 3 :: d) (isZero_twoPi_mul_zero (4 :: d)) hfin hne
    have hcos : mathReference.cos _ = oneF := cosRef_of_isZero hangle
    rw [hann, fcos_of_isFinite (isFinite_of_isZero hangle), hcos, fmul_oneF (by decide),
      fsub_self _ (by decide)]
  · have hangle : fdiv (3 :: d) (fmul (4 :: d) twoPiF (i2f (0 : Nat))) (i2f ((1 : Nat) - 1)) =
        nanOf (3 :: d) := fdiv_of_isZero_of_isZero (isZero_twoPi_mul_zero _) (by decide)
    have hcos (d' : Draw) : isNaN (fcos mathReference d' (nanOf (3 :: d))) = true := by
      simp [fcos, not_isFinite_of_isNaN_or_isInf]
    rw [hann, hangle, fmul_of_isNaN (.inr (hcos _)), fsub_of_isNaN (.inr (isNaN_nanOf _)),
      isNaN_nanOf]

/-! ## The filter length (rules R200, R201) -/

theorem extendedQuanta_of_isFinite {a : Word} (h : isFinite a = true) :
    extendedQuanta a = signedQuanta a := by
  simp [extendedQuanta, not_isInf_of_isFinite h]

/-- `a f>= i2f(2^m)` by value. -/
theorem fge_i2f_two_pow_iff {a : Word} {m : Nat} (ha : isNaN a = false) (hm : m ≤ 24) :
    fge a (i2f (2 ^ m)) = true ↔ 2 ^ m * 2 ^ 149 ≤ extendedQuanta a := by
  obtain ⟨hfin, hsign, hquanta⟩ := i2f_two_pow_exact hm
  have hvalue : extendedQuanta (i2f (2 ^ m)) = 2 ^ m * 2 ^ 149 := by
    rw [extendedQuanta_of_isFinite hfin, signedQuanta, hsign, if_neg Bool.false_ne_true, hquanta]
    norm_cast
  obtain ⟨-, hge, -⟩ := comparisonsAreByValue.1 a _ ha (not_isNaN_of_isFinite hfin)
  rw [hge, hvalue]

theorem fge_oneF_iff {a : Word} (ha : isNaN a = false) :
    fge a oneF = true ↔ 2 ^ 149 ≤ extendedQuanta a := by
  have hone : oneF = i2f (2 ^ 0) := by decide
  rw [hone, fge_i2f_two_pow_iff ha (Nat.zero_le _), pow_zero, one_mul]

theorem clampLength_two_pow (lr : Word) (m : Nat) :
    clampLength lr (2 ^ m) = if fge lr (i2f (2 ^ m)) then 2 ^ m else f2i lr := by
  rw [clampLength]
  norm_cast

/-- An infinite `Lr` of at least 1 is above every length. -/
theorem fge_i2f_two_pow_of_isInf {a : Word} {m : Nat} (hinf : isInf a = true)
    (hone : fge a oneF = true) (hm : m ≤ 24) : fge a (i2f (2 ^ m)) = true := by
  have hnan := not_isNaN_of_isInf hinf
  rw [fge_oneF_iff hnan, extendedQuanta, if_pos hinf] at hone
  have hle : (2 : Int) ^ m ≤ 2 ^ 24 := pow_le_pow_right₀ (by decide) hm
  rw [fge_i2f_two_pow_iff hnan hm, extendedQuanta, if_pos hinf]
  split_ifs at hone ⊢ <;> omega

/-- A finite ceiling of at least 1 is a positive whole number. -/
theorem exists_whole_of_fge_oneF {d : Draw} {x : Word} (hx : isFinite x = true)
    (hone : fge (fceil d x) oneF = true) :
    ∃ w, 1 ≤ w ∧ signedQuanta (fceil d x) = (w * 2 ^ 149 : Nat) ∧ f2i (fceil d x) = w := by
  obtain ⟨hfin, -, hquanta⟩ := fceil_exact d hx
  rw [fge_oneF_iff (not_isNaN_of_isFinite hfin), extendedQuanta_of_isFinite hfin] at hone
  refine ⟨ceilWhole (signBit x) (quanta x), ?_⟩
  rw [f2i, hquanta, Nat.mul_div_cancel _ (by decide)]
  rw [signedQuanta, hquanta] at hone ⊢
  split_ifs at hone ⊢ <;> omega

/-- Settles O32: an infinite `Lr` is above `n`, and a finite one is a whole number `w`, which
reaches `n` exactly when `w` does. -/
theorem filterLengthIsClamped : Obligations.FilterLengthIsClamped := by
  unfold Obligations.FilterLengthIsClamped
  intro d x m hm hnan hone
  rw [clampLength_two_pow]
  cases hge : fge (fceil d x) (i2f (2 ^ m)) with
  | true =>
    rw [if_pos rfl]
    exact ⟨Nat.one_le_two_pow, le_rfl, fun _ => rfl, fun h => absurd h.symm Bool.false_ne_true,
      fun _ => rfl⟩
  | false =>
    have hfin : isFinite x = true := by
      refine isFinite_of_not_isNaN_of_not_isInf hnan (Bool.eq_false_iff.2 fun hinf => ?_)
      rw [fceil_of_isInf d hinf] at hone hge
      exact absurd (fge_i2f_two_pow_of_isInf hinf hone hm) (by simp [hge])
    obtain ⟨w, hw, hvalue, hint⟩ := exists_whole_of_fge_oneF hfin hone
    obtain ⟨hcfin, -, -⟩ := fceil_exact d hfin
    have hlt : w < 2 ^ m := by
      rw [← Bool.not_eq_true, fge_i2f_two_pow_iff (not_isNaN_of_isFinite hcfin) hm,
        extendedQuanta_of_isFinite hcfin, hvalue, not_le] at hge
      exact lt_of_mul_lt_mul_right (by exact_mod_cast hge) (Nat.zero_le (2 ^ 149))
    rw [if_neg Bool.false_ne_true, hint]
    exact ⟨hw, hlt.le, fun h => absurd h Bool.false_ne_true, fun _ => ⟨hlt, hvalue.symm⟩,
      fun hinf => absurd hinf (by simp [not_isInf_of_isFinite hfin])⟩

/-! ## The correlator (rules R212, R213) -/

/-- `2^-m` is finite and positive, or `+0` beyond the format's exponents. -/
theorem invPow2_finite (m : Nat) : isFinite (invPow2 m) = true ∧ signBit (invPow2 m) = false := by
  have hpack : invPow2 m = packMag false ((127 - m) * 2 ^ 23) := by
    rw [← Nat.shiftLeft_eq]
    rfl
  have hb : (127 - m) * 2 ^ 23 < infBits := by rw [infBits_eq]; omega
  have hb' := hb.trans infBits_lt
  rw [hpack, isFinite_packMag hb', signBit_packMag _ _ hb']
  exact ⟨decide_eq_true hb, rfl⟩

/-- A finite value times zero is a zero, of some signs. -/
theorem isZero_cmulconj_zero {d : Draw} {a : Cpx} (ha : FiniteCpx a) :
    isZero (cmulconj d a Cpx.zero).re = true ∧ isZero (cmulconj d a Cpx.zero).im = true := by
  obtain ⟨hre, him⟩ := ha
  have h0 : isZero 0#32 = true := by decide
  exact ⟨isZero_fadd (isZero_fmul h0 him) (isZero_fmul h0 hre),
    isZero_fsub (isZero_fmul h0 hre) (isZero_fmul h0 him)⟩

/-- A zero product leaves the accumulator at `(+0, +0)`, whatever the product's signs. -/
theorem accumulate_zero {d : Draw} {x : List Cpx} {kern : Nat → Cpx} {i : Nat}
    (hk : kern i = Cpx.zero) (hx : FiniteCpx (cpxAt x i)) :
    accumulate d x kern Cpx.zero i = Cpx.zero := by
  obtain ⟨hre, him⟩ := isZero_cmulconj_zero (d := 0 :: i :: d) hx
  rw [← hk] at hre him
  exact congrArg₂ Cpx.mk (fadd_isZero hre (by decide) (by decide))
    (fadd_isZero him (by decide) (by decide))

/-- Settles O35: the accumulator stays `(+0, +0)`, and scaling keeps it. -/
theorem zeroKernelGivesZero : Obligations.ZeroKernelGivesZero := by
  unfold Obligations.ZeroKernelGivesZero
  intro d m x kern hk hx
  have hacc : (List.range (2 ^ m)).foldl (accumulate (0 :: d) x kern) Cpx.zero = Cpx.zero := by
    refine List.foldlRecOn (motive := (· = Cpx.zero)) _ _ rfl fun acc hacc i hi => ?_
    rw [hacc]
    exact accumulate_zero (hk i (List.mem_range.1 hi)) (hx i (List.mem_range.1 hi))
  obtain ⟨hfin, hsign⟩ := invPow2_finite m
  simp only [correlate, hacc]
  exact congrArg₂ Cpx.mk (fmul_posZero hfin hsign) (fmul_posZero hfin hsign)

end Sys2Proof.Machine
end

section
/-! SUPPORT. What a failed completion leaves alone, and the interrupt output as its two registers read. -/

namespace Sys2Proof.Machine

/-! ## Precise failures (rule R245) -/

/-- A memory command whose failure is no bus error failed a check, before any access (rule R141). -/
theorem memoryCommand_precise {i : Instr} {err : Option ErrCode} {result : State → Memory}
    {s t : State} (h : memoryCommand i err result s = .next t) (hfail : t.err ≠ .noError)
    (hbus : t.err ≠ .busError) : ∃ e, t = complete e s := by
  obtain ⟨e, -, rfl⟩ | ⟨-, -, rfl⟩ | ⟨-, -, rfl⟩ := memoryCommand_next h
  · exact ⟨e, rfl⟩
  · exact absurd rfl hbus
  · exact absurd rfl hfail

/-- A command that fails with another error than a bus error does nothing but complete. -/
theorem exec_precise {i : Instr} {s t : State} (h : exec i s = .next t)
    (hfail : t.err ≠ .noError) (hbus : t.err ≠ .busError) : ∃ e, t = complete e s := by
  cases i with
  | initFft =>
    obtain ⟨e, -, he⟩ | ⟨-, he⟩ := execInitFft_cases s <;> cases he.symm.trans h
    · exact ⟨e, rfl⟩
    · exact absurd rfl hfail
  | initCqt =>
    obtain ⟨e, -, he⟩ | ⟨-, he⟩ := execInitCqt_cases s <;> cases he.symm.trans h
    · exact ⟨e, rfl⟩
    · exact absurd rfl hfail
  | fft | ifft | cqt => exact memoryCommand_precise h hfail hbus
  | freeFft | freeCqt =>
    cases h
    exact absurd rfl hfail

/-- So it is with every turn of a busy core out of reset, illegal words included. -/
theorem coreTurn_precise {s t : State} (hrst : s.rst = false) (hbusy : s.phase = .busy)
    (h : coreTurn s = .next t) (hfail : t.err ≠ .noError) (hbus : t.err ≠ .busError) :
    ∃ e, t = complete e s := by
  obtain ⟨hwait, -⟩ | ⟨-, -, ⟨i, -, he⟩ | ⟨-, -, he⟩⟩ := coreTurn_cases s
  · simp [hrst, hbusy] at hwait
  · exact exec_precise (he.symm.trans h) hfail hbus
  · cases he.symm.trans h
    exact ⟨.illegalCmd, rfl⟩

/-- Settles O5: every turn completes, and one that fails precisely does nothing else. -/
theorem completionActions : Obligations.CompletionActions := by
  unfold Obligations.CompletionActions
  intro s t hrst hbusy h
  obtain ⟨hdone, hsame⟩ := coreTurn_completes hrst hbusy h
  refine ⟨hdone, hsame, fun hfail hbus => ?_⟩
  obtain ⟨e, rfl⟩ := coreTurn_precise hrst hbusy h hfail hbus
  exact ⟨rfl, sameEngine_iff.2 rfl⟩

/-! ## The interrupt output (rule R243) -/

/-- A bit of `IRQ` and `CTRL` together says that an event is pending and enabled. -/
theorem getLsbD_irqWord_and_ctrlWord (s : State) (i : Nat) :
    (irqWord s &&& ctrlWord s).getLsbD i =
      ((i = 0 && (s.doneP && s.ieDone)) || (i = 1 && (s.ovrP && s.ieOvr))) := by
  rw [BitVec.getLsbD_and, getLsbD_irqWord, getLsbD_ctrlWord]
  rcases i with _ | _ | i <;> simp

/-- The two words have no set bit in common exactly when the output is low. -/
theorem irqWord_and_ctrlWord_eq_zero_iff {s : State} :
    irqWord s &&& ctrlWord s = 0#32 ↔ irqLine s = false := by
  rw [irqLine, Bool.or_eq_false_iff]
  constructor
  · intro h
    have hbit := getLsbD_irqWord_and_ctrlWord s
    simp only [h, BitVec.getLsbD_zero] at hbit
    exact ⟨by simpa using hbit 0, by simpa using hbit 1⟩
  · rintro ⟨hdone, hovr⟩
    refine BitVec.eq_of_getLsbD_eq fun i _ => ?_
    simp [getLsbD_irqWord_and_ctrlWord, hdone, hovr, -BitVec.getLsbD_and]

/-- Settles O45, by its contrapositive. -/
theorem interruptOutputFollowsEnabledPending :
    Obligations.InterruptOutputFollowsEnabledPending := by
  unfold Obligations.InterruptOutputFollowsEnabledPending
  intro s
  rw [← Bool.not_eq_false, ← irqWord_and_ctrlWord_eq_zero_iff]
  rfl

end Sys2Proof.Machine
end

section
/-! SUPPORT. The reset that abandons a command (rule R271). -/

namespace Sys2Proof.Machine

/-- A reset frees the written ranges of the command it abandons. -/
theorem abandonedMemory_of_command {i : Instr} {s : State} (hbusy : s.phase = .busy)
    (hd : decode s.latch.w = .ok i) :
    abandonedMemory s = scramble (1 :: drawRoot s) (writtenBuffers i s.latch) s.mem := by
  simp [abandonedMemory, hbusy, hd]

/-- An illegal word has no ranges a reset could free (rule R97). -/
theorem abandonedMemory_of_illegal {e : DecodeError} {s : State}
    (hd : decode s.latch.w = .error e) : abandonedMemory s = s.mem := by
  simp [abandonedMemory, hd]

/-- Settles O50: the state after is `afterReset`, idle without flags as `State.reset` is, and its
memory is the abandoned one, where only words of the written buffers are freed. -/
theorem resetAbandonsTheCommand : Obligations.ResetAbandonsTheCommand := by
  unfold Obligations.ResetAbandonsTheCommand
  intro s hrst hbusy
  refine ⟨afterReset s, by simp [serve, hrst], rfl, rfl, rfl, fun i hd a ha => ?_,
    fun e hd => abandonedMemory_of_illegal hd⟩
  calc Memory.readByte (abandonedMemory s) a
      = Memory.readByte (scramble (1 :: drawRoot s) (writtenBuffers i s.latch) s.mem) a := by
        rw [abandonedMemory_of_command hbusy hd]
    _ = Memory.readByte s.mem a := scramble_outside _ _ _ ha

end Sys2Proof.Machine
end
